-- ==== Sys2Proof/Word.lean ====
section
/-! DEFINITION. The word types of the core: the 32-bit command word (R82) and the 64-bit pattern of an
IEEE 754 binary64 value (R8, R22). -/

namespace Sys2Proof

/-- A command word (R82). -/
abbrev CmdWord := BitVec 32

/-- The bit pattern of an IEEE 754 binary64 value, "any pattern storable" (R22). -/
abbrev F64 := BitVec 64

end Sys2Proof
end

