-- ==== Sys2Proof/Syntax.lean ====
section
/-! DEFINITION. The ten commands of the core (R85), one constructor per row of spec/opcode_table.json. -/

namespace Sys2Proof

/-- A command as its word gives it (R83, R84). The write data of `WR` and the accumulator pair of
`PE.STEP` are operand ports, not part of the word (R80). An envelope number is the 4-bit field `SEL`;
which values are legal is `Instr.wf`. -/
inductive Instr where
  /-- `NOP` (R100). -/
  | nop
  /-- `WR bank:reg` (R101). -/
  | wr (bank : BitVec 4) (reg : BitVec 8)
  /-- `RD bank:reg` (R102). -/
  | rd (bank : BitVec 4) (reg : BitVec 8)
  /-- `EG.INIT e` (R112). -/
  | egInit (e : BitVec 4)
  /-- `EG.START e` (R113). -/
  | egStart (e : BitVec 4)
  /-- `EG.RELEASE e` (R114). -/
  | egRelease (e : BitVec 4)
  /-- `EG.STEP e` (R118). -/
  | egStep (e : BitVec 4)
  /-- `PE.INIT` (R140). -/
  | peInit
  /-- `PE.STEP` (R160). -/
  | peStep
  /-- `PE.STOP` (R185). -/
  | peStop
  deriving DecidableEq, Repr

end Sys2Proof
end

