-- ==== Sys2Proof/WellFormed.lean ====
section
/-! DEFINITION. Which commands are well formed: a format E command names an envelope 0, 1 or 2 (R83). -/

namespace Sys2Proof

/-- "E | opcode | e in 0..2" (R83). -/
def legalEnvelope (e : BitVec 4) : Bool := decide (e.toNat ≤ 2)

/-- Format R "accepts every SEL and REG" (R86); format N has no operand; format E wants `e <= 2`. -/
def Instr.wf : Instr → Bool
  | .nop => true
  | .wr _ _ => true
  | .rd _ _ => true
  | .egInit e => legalEnvelope e
  | .egStart e => legalEnvelope e
  | .egRelease e => legalEnvelope e
  | .egStep e => legalEnvelope e
  | .peInit => true
  | .peStep => true
  | .peStop => true

end Sys2Proof
end

