-- ==== Sys2Proof/Decode.lean ====
section
/-! DEFINITION. The decoder of command words (R82, R85, R86), total and rejecting by name, and the encoder
written from the same table (R83, R85). -/

namespace Sys2Proof

/-- Why a command word is illegal, the cases of R86. -/
inductive IllegalWord where
  /-- "`OP` is 0x3 or 0xB..0xF". -/
  | reservedOp
  /-- "`ZERO != 0`". -/
  | zeroField
  /-- "format N with `SEL != 0`" or "format E with `SEL > 2`". -/
  | selField
  /-- "format N with ... `REG != 0`" or "format E with ... `REG != 0`". -/
  | regField
  deriving DecidableEq, Repr

/-- `OP = cmd[31:28]` (R82). -/
def opField (w : CmdWord) : BitVec 4 := w.extractLsb' 28 4

/-- `SEL = cmd[27:24]` (R82). -/
def selField (w : CmdWord) : BitVec 4 := w.extractLsb' 24 4

/-- `REG = cmd[23:16]` (R82). -/
def regField (w : CmdWord) : BitVec 8 := w.extractLsb' 16 8

/-- `ZERO = cmd[15:0]` (R82). -/
def zeroField (w : CmdWord) : BitVec 16 := w.extractLsb' 0 16

/-- A format N word: SEL and REG are zero (R83). -/
def decodeN (w : CmdWord) (i : Instr) : Except IllegalWord Instr :=
  if selField w ≠ 0#4 then .error .selField
  else if regField w ≠ 0#8 then .error .regField
  else .ok i

/-- A format E word: SEL is an envelope number 0..2 and REG is zero (R83). -/
def decodeE (w : CmdWord) (mk : BitVec 4 → Instr) : Except IllegalWord Instr :=
  if !legalEnvelope (selField w) then .error .selField
  else if regField w ≠ 0#8 then .error .regField
  else .ok (mk (selField w))

/-- "A decoder: take `OP`; check the format's zero fields; for format E check `e <= 2`." (R85) -/
def decode (w : CmdWord) : Except IllegalWord Instr :=
  if zeroField w ≠ 0#16 then .error .zeroField
  else match (opField w).toNat with
    | 0x0 => decodeN w .nop
    | 0x1 => .ok (.wr (selField w) (regField w))
    | 0x2 => .ok (.rd (selField w) (regField w))
    | 0x4 => decodeE w .egInit
    | 0x5 => decodeE w .egStart
    | 0x6 => decodeE w .egRelease
    | 0x7 => decodeE w .egStep
    | 0x8 => decodeN w .peInit
    | 0x9 => decodeN w .peStep
    | 0xA => decodeN w .peStop
    | _ => .error .reservedOp

/-- The opcode number of a command (R85). -/
def opcode : Instr → BitVec 4
  | .nop => 0x0#4
  | .wr _ _ => 0x1#4
  | .rd _ _ => 0x2#4
  | .egInit _ => 0x4#4
  | .egStart _ => 0x5#4
  | .egRelease _ => 0x6#4
  | .egStep _ => 0x7#4
  | .peInit => 0x8#4
  | .peStep => 0x9#4
  | .peStop => 0xA#4

/-- The SEL field of a command: a bank, an envelope number, or zero (R83). -/
def selOf : Instr → BitVec 4
  | .wr bank _ => bank
  | .rd bank _ => bank
  | .egInit e => e
  | .egStart e => e
  | .egRelease e => e
  | .egStep e => e
  | .nop => 0#4
  | .peInit => 0#4
  | .peStep => 0#4
  | .peStop => 0#4

/-- The REG field of a command: a register number, or zero (R83). -/
def regOf : Instr → BitVec 8
  | .wr _ reg => reg
  | .rd _ reg => reg
  | .egInit _ => 0#8
  | .egStart _ => 0#8
  | .egRelease _ => 0#8
  | .egStep _ => 0#8
  | .nop => 0#8
  | .peInit => 0#8
  | .peStep => 0#8
  | .peStop => 0#8

/-- The word of a command: `{OP, SEL, REG, ZERO}` (R82). -/
def encode (i : Instr) : CmdWord := opcode i ++ (selOf i ++ (regOf i ++ 0#16))

/-- The instruction of a word given as a number, bit 0 its least significant bit, `nbits` of it given and
the rest zero. A command word is 32 bits and has no byte order (R65, R82). -/
def decodeTableWord (nbits w : Nat) : Option Instr :=
  match decode (BitVec.ofNat 32 (w % 2 ^ nbits)) with
  | .ok i => some i
  | .error _ => none

end Sys2Proof
end

