-- ==== Sys2Proof/Config.lean ====
section
/-! DEFINITION. The configuration record CFG of R6, left open, and the free values of the model. -/

namespace Sys2Proof

/-- The OPEN fields of the configuration record `CFG` (R6). The fields of R6 that have a value are in the
definitions that use them (`POS_ROUND` is `F64.rha`, `CNT_W` and `IDX_W` are the register widths). -/
structure Cfg where
  /-- `N_VOICES - 1`: the natural number of R6 is at least 1. -/
  extraVoices : Nat
  /-- `N_BP - 1`: `N_BP` is in 1..128 (R6). -/
  extraBp : Fin 128
  /-- `BP_SENTINEL`: "the break-point value accepting any key". -/
  bpSentinel : BitVec 7
  /-- `SMP_UNSET`: "the sample index signaling unset". -/
  smpUnset : BitVec 16
  /-- `KEYDIFF_SHIFT`: whether the key shift enters the key difference (D21). -/
  keydiffShift : Bool
  /-- `LPF_B0`, the first of the five coefficients both smoothing stages share (D33). -/
  lpfB0 : F64
  /-- `LPF_B1`. -/
  lpfB1 : F64
  /-- `LPF_B2`. -/
  lpfB2 : F64
  /-- `LPF_A1`. -/
  lpfA1 : F64
  /-- `LPF_A2`. -/
  lpfA2 : F64
  /-- `pitchEnvRatio`: the live output of EG0 as a rate factor (D25). -/
  pitchEnvRatio : F64 → F64
  /-- `NUM.pow2` before R12's property P1 is imposed (`Num.pow2`). -/
  pow2Open : F64 → F64
  /-- `NUM.ln` before R12's properties P2 and P3 are imposed (`Num.ln`). -/
  lnOpen : F64 → F64
  /-- `NUM.exp` before R12's property P5 is imposed (`Num.exp`). -/
  expOpen : F64 → F64
  deriving Inhabited

/-- `CFG.N_VOICES` (R6). -/
def Cfg.nVoices (c : Cfg) : Nat := c.extraVoices + 1

/-- `CFG.N_BP` (R6). -/
def Cfg.nBp (c : Cfg) : Nat := c.extraBp.val + 1

/-- The f64 operations, as arguments of the free NaN. -/
inductive FloatOp where
  | add
  | sub
  | mul
  | div
  deriving DecidableEq, Repr

/-- The configuration of the machine: "A field marked OPEN has no value in any source" (R6). It has no
body, so nothing can be proved of a particular value (log 6). DESIGN CHOICE, safe. -/
opaque Config.cfg : Cfg

/-- FREE VALUE: the NaN an operation delivers, of which R9 and R53 say only that it is a NaN (log 8). -/
opaque Config.freeNan : FloatOp → F64 → F64 → F64

/-- FREE VALUE: `rha` of an infinity, "not defined" (R10, U7), as `POS_ROUND` meets it, before the bound of
R170 and R175 is put on it (`posRound`, log 9). -/
opaque Config.freeRound : F64 → Int

/-- FREE VALUE: the phase length stored when `t * SAMPLE_RATE` is not finite or its `rha` does not fit
the u32 `LEN` (R119, U7), as a function of that product (log 10). -/
opaque Config.freeLength : F64 → BitVec 32

end Sys2Proof
end

