-- ==== Sys2Proof/Machine/Float64.lean ====
section
/-! DEFINITION. IEEE 754 binary64 arithmetic (R8, R9), `rha` (R10), `clamp` (R11), decimal literals, and the
open transcendental functions with the properties R12 allows a rule to rely on. Finite results are the exact
rational result rounded once, to nearest, ties to even. -/

namespace Sys2Proof.Machine

/-! ### The binary64 pattern -/

/-- The magnitude bits of an infinity: exponent field all ones, fraction zero. -/
def F64.infMag : Nat := 2047 * 2 ^ 52

/-- The sign bit. -/
def F64.sign (x : F64) : Bool := x.msb

/-- The pattern without its sign bit, as a number. -/
def F64.mag (x : F64) : Nat := x.toNat % 2 ^ 63

/-- A NaN has an exponent field of all ones and a fraction that is not zero. -/
def F64.isNaN (x : F64) : Bool := decide (F64.infMag < F64.mag x)

/-- An infinity of either sign. -/
def F64.isInf (x : F64) : Bool := decide (F64.mag x = F64.infMag)

/-- Neither an infinity nor a NaN. -/
def F64.isFinite (x : F64) : Bool := decide (F64.mag x < F64.infMag)

/-- A zero of either sign. -/
def F64.isZero (x : F64) : Bool := decide (F64.mag x = 0)

/-- The value of magnitude bits `m` of a finite pattern, in units of 2^-1074. -/
def F64.magUnits (m : Nat) : Nat :=
  if m / 2 ^ 52 = 0 then m else (2 ^ 52 + m % 2 ^ 52) * 2 ^ (m / 2 ^ 52 - 1)

/-- The exact value of a finite pattern. -/
def F64.toRat (x : F64) : Rat :=
  let q := mkRat (F64.magUnits (F64.mag x)) (2 ^ 1074)
  if F64.sign x then -q else q

/-- The pattern of a sign and magnitude bits. -/
def F64.ofSignMag (s : Bool) (m : Nat) : F64 :=
  BitVec.ofNat 64 ((if s then 2 ^ 63 else 0) + m)

/-- The positive zero, `+0.0`. -/
def F64.zero : F64 := 0#64

/-- The same value with the sign bit turned over. -/
def F64.neg (x : F64) : F64 := F64.ofSignMag (!F64.sign x) (F64.mag x)

/-! ### Rounding to binary64 -/

/-- `n / d` to the nearest integer, ties to even (R9). -/
def roundHalfEven (n d : Nat) : Nat :=
  let q := n / d
  let r := n % d
  if 2 * r < d then q
  else if d < 2 * r then q + 1
  else if q % 2 = 0 then q else q + 1

/-- The exponent of two of the last place of the binary64 nearest `n / d`: 53 bits of precision, but never
below 2^-1074. -/
def lastPlace (n d : Nat) : Int :=
  let e : Int := (n.log2 : Int) - (d.log2 : Int)
  let e := if n * 2 ^ (-e).toNat < d * 2 ^ e.toNat then e - 1 else e
  max (e - 52) (-1074)

/-- The magnitude bits of `n / d` rounded to nearest, ties to even; an infinity above the largest finite
value (R9). -/
def roundMag (n d : Nat) : Nat :=
  if n = 0 then 0
  else
    let p := lastPlace n d
    let k := roundHalfEven (n * 2 ^ (-p).toNat) (d * 2 ^ p.toNat)
    min ((p + 1074).toNat * 2 ^ 52 + k) F64.infMag

/-- A rational rounded to binary64; a result that rounds to zero takes the sign `s`. -/
def F64.ofRat (s : Bool) (q : Rat) : F64 := F64.ofSignMag s (roundMag q.num.natAbs q.den)

/-- `toF64(i)`: "the exact conversion of an integer to f64" (R8). -/
def F64.ofInt (i : Int) : F64 := F64.ofRat (decide (i < 0)) (i : Rat)

/-- A decimal literal `n / d` of a rule: the binary64 nearest to it (R87; DEDUCED for the rules, log 16). -/
def F64.lit (n d : Nat) : F64 := F64.ofSignMag false (roundMag n d)

/-! ### Arithmetic and comparison (R9) -/

/-- The NaN an operation delivers: any NaN, the free value `Config.freeNan` (log 8). -/
def F64.nan (op : FloatOp) (a b : F64) : F64 :=
  if F64.isNaN (Config.freeNan op a b) then Config.freeNan op a b else 0x7FF8000000000000#64

/-- The sum, where `bad` is the NaN delivered if there is no number to deliver. An exact sum of zero is
`+0.0` unless both terms are negative zeros. -/
def F64.sumOr (bad a b : F64) : F64 :=
  if F64.isNaN a || F64.isNaN b then bad
  else if F64.isInf a then
    if F64.isInf b && F64.sign a != F64.sign b then bad else a
  else if F64.isInf b then b
  else
    let q := F64.toRat a + F64.toRat b
    if q = 0 then F64.ofSignMag (F64.sign a && F64.sign b) 0
    else F64.ofRat (decide (q < 0)) q

/-- `a + b` (R9). -/
def F64.add (a b : F64) : F64 := F64.sumOr (F64.nan .add a b) a b

/-- `a - b` (R9). -/
def F64.sub (a b : F64) : F64 := F64.sumOr (F64.nan .sub a b) a (F64.neg b)

/-- `a * b` (R9). -/
def F64.mul (a b : F64) : F64 :=
  let s := F64.sign a != F64.sign b
  if F64.isNaN a || F64.isNaN b then F64.nan .mul a b
  else if F64.isInf a || F64.isInf b then
    if F64.isZero a || F64.isZero b then F64.nan .mul a b else F64.ofSignMag s F64.infMag
  else F64.ofRat s (F64.toRat a * F64.toRat b)

/-- `a / b` (R9). -/
def F64.div (a b : F64) : F64 :=
  let s := F64.sign a != F64.sign b
  if F64.isNaN a || F64.isNaN b then F64.nan .div a b
  else if F64.isInf a then
    if F64.isInf b then F64.nan .div a b else F64.ofSignMag s F64.infMag
  else if F64.isInf b then F64.ofSignMag s 0
  else if F64.isZero b then
    if F64.isZero a then F64.nan .div a b else F64.ofSignMag s F64.infMag
  else F64.ofRat s (F64.toRat a / F64.toRat b)

/-- The place of a number in the order of the extended reals; both zeros have place 0. -/
def F64.key (x : F64) : Int := if F64.sign x then -(F64.mag x : Int) else (F64.mag x : Int)

/-- `a < b`: "any comparison with a NaN is false" (R9). -/
def F64.lt (a b : F64) : Bool :=
  !F64.isNaN a && !F64.isNaN b && decide (F64.key a < F64.key b)

/-- `a <= b` (R9). -/
def F64.le (a b : F64) : Bool :=
  !F64.isNaN a && !F64.isNaN b && decide (F64.key a ≤ F64.key b)

/-- `a == b`: "`-0.0 == 0.0` is true" (R9). -/
def F64.eq (a b : F64) : Bool :=
  !F64.isNaN a && !F64.isNaN b && decide (F64.key a = F64.key b)

/-! ### Integers -/

/-- `rha` of the exact value: the nearest integer, halves away from zero (R10). -/
def rhaRat (q : Rat) : Int :=
  let m : Int := (((2 * q.num.natAbs + q.den) / (2 * q.den) : Nat) : Int)
  if q < 0 then -m else m

/-- `rha(x)` for a finite x, "computed on the exact real value of x" (R10). -/
def F64.rha (x : F64) : Int := rhaRat (F64.toRat x)

/-- `CFG.POS_ROUND` (R6) as the catch-up loops compare it with `IDX`: none for a NaN, with which "every
comparison is false" (R164, U6); for an infinity, where `rha` is not defined (U7), a free integer (log 9). Of
`+infinity` it is at least 2^31 - 1, so that no index is past it: "`IDX` equals E when this runs (the catch-up
... has run and `POS > E`)" (R170), and with it J2 (R47, R175). DEDUCED. -/
def posRound (x : F64) : Option Int :=
  if F64.isNaN x then none
  else if F64.isInf x then
    some (if F64.sign x then Config.freeRound x else max (2 ^ 31 - 1) (Config.freeRound x))
  else some (F64.rha x)

/-- `clamp(x, lo, hi)` (R11). -/
def clampInt (x lo hi : Int) : Int := if x < lo then lo else if hi < x then hi else x

/-! ### Literals of the rules -/

/-- `1.0`. -/
def F64.one : F64 := F64.lit 1 1

/-- `LN2 = 0x3FE62E42FEFA39EF` (R150). -/
def F64.ln2 : F64 := 0x3FE62E42FEFA39EF#64

/-! ### The transcendental functions of `CFG.NUM` (R12) -/

/-- `pow2(x)`: the open function with "(P1) `pow2(0.0) = 1.0`" (log 7). -/
def Num.pow2 (c : Cfg) (x : F64) : F64 := if x = F64.zero then F64.one else c.pow2Open x

/-- `ln(x)`: the open function with "(P2) `ln(1.0) = 0.0`" and "(P3) `ln(11.0) / ln(11.0) = 1.0`" (log 7). -/
def Num.ln (c : Cfg) (x : F64) : F64 :=
  if x = F64.one then F64.zero
  else if x = F64.lit 11 1 ∧ F64.div (c.lnOpen x) (c.lnOpen x) ≠ F64.one then F64.one
  else c.lnOpen x

/-- `exp(x)`: the open function with "(P5) `exp(0.0) = 1.0`" (log 7). -/
def Num.exp (c : Cfg) (x : F64) : F64 := if x = F64.zero then F64.one else c.expOpen x

end Sys2Proof.Machine
end

