-- ==== Sys2Proof/Machine/State.lean ====
section
/-! DEFINITION. Everything the spec gives the machine to hold, as plain data, the names of what it can
answer, and the state after reset. -/

namespace Sys2Proof.Machine

/-- The five ramps of an envelope, in order (R14, R25, C1). -/
inductive Ramp where
  | attack
  | hold
  | decay
  | sustain
  | release
  deriving DecidableEq, Repr

/-- `PHASE`: "six states and five of them are ramps" (C1, R24). The codes 6 and 7 do not exist. -/
inductive Phase where
  | off
  | ramp (r : Ramp)
  deriving DecidableEq, Repr

/-- `LMODE` (R44): 0 forward-loop, 1 forward-backward, 2 forward-stop; "3 never latched". -/
inductive LoopMode where
  | forwardLoop
  | forwardBackward
  | forwardStop
  deriving DecidableEq, Repr

/-- The diagnostic codes 0..7 of R200; 8..15 are "never produced". -/
inductive Diag where
  | none
  | egOffCall
  | peSampleUnset
  | egBadStart
  | badReg
  | illegalCmd
  | peUnusable
  | peBadSample
  deriving DecidableEq, Repr

/-- Envelope configuration registers (R26). -/
structure EgConfig where
  /-- `TGT[0..4]`. -/
  tgt : Vector F64 5
  /-- `DUR[0..4]`. -/
  dur : Vector (BitVec 7) 5
  /-- `SHP[0..4]`: 0 linear, 1 logarithmic. -/
  shp : Vector (BitVec 1) 5
  /-- `KEY`, s8. -/
  key : BitVec 8
  /-- `CTL_A`. -/
  ctlA : BitVec 7
  /-- `CTL_D`. -/
  ctlD : BitVec 7
  /-- `CTL_R`. -/
  ctlR : BitVec 7
  deriving DecidableEq, Repr

/-- Envelope runtime registers (R27). -/
structure EgRun where
  /-- `PHASE`. -/
  phase : Phase
  /-- `CNT`. -/
  cnt : BitVec 32
  /-- `LEN`. -/
  len : BitVec 32
  /-- `ENTRY`. -/
  entry : F64
  /-- `CUR`. -/
  cur : F64
  /-- `FIN`. -/
  fin : Bool
  deriving DecidableEq, Repr

/-- One envelope generator `EG[e]` (R20). -/
structure Envelope where
  conf : EgConfig
  run : EgRun
  deriving DecidableEq, Repr

/-- Partial engine configuration registers, bank 8 (R36..R39). -/
structure PeConfig where
  /-- `SAMPLE_RATE`. -/
  sampleRate : F64
  /-- `NATIVE_RATE`. -/
  nativeRate : F64
  /-- `KEY`. -/
  key : BitVec 7
  /-- `FLAGS` (R37). -/
  flags : BitVec 3
  /-- `KS_COARSE`, s8. -/
  ksCoarse : BitVec 8
  /-- `KS_MASTER`, s8. -/
  ksMaster : BitVec 8
  /-- `KS_PART`, s8. -/
  ksPart : BitVec 8
  /-- `PLAY_KEY`. -/
  playKey : BitVec 7
  /-- `KF_MULT`. -/
  kfMult : F64
  /-- `P_COARSE_CENTS`. -/
  pCoarseCents : F64
  /-- `P_FINE_CENTS`. -/
  pFineCents : F64
  /-- `R_FINETUNE`. -/
  rFinetune : F64
  /-- `R_TUNE`. -/
  rTune : F64
  /-- `R_BEND`. -/
  rBend : F64
  /-- `R_SCALE[0..11]`. -/
  rScale : Vector F64 12
  /-- `VOL_PARTIAL`. -/
  volPartial : BitVec 7
  /-- `VOL_DRUM`. -/
  volDrum : BitVec 7
  /-- `AMP_CTL`. -/
  ampCtl : BitVec 7
  /-- `PAN`. -/
  pan : BitVec 7
  deriving DecidableEq, Repr

/-- One entry of the break-point table, bank 9 (R42). -/
structure BpEntry where
  /-- `BP_KEY[i]`. -/
  key : BitVec 7
  /-- `BP_SMP[i]`. -/
  smp : BitVec 16
  deriving DecidableEq, Repr

/-- The state of one smoothing stage (R46). -/
structure FilterStage where
  x1 : F64
  x2 : F64
  y1 : F64
  y2 : F64
  deriving DecidableEq, Repr

/-- Partial engine runtime registers, bank 10 (R43..R46). -/
structure PeRun where
  /-- `POS`. -/
  pos : F64
  /-- `DIR`: false forward, true backward. -/
  dir : Bool
  /-- `IDX`, s32. -/
  idx : BitVec 32
  /-- `SMP`. -/
  smp : F64
  /-- `TERM`. -/
  term : Bool
  /-- `ERR`. -/
  err : Bool
  /-- `STATIC`. -/
  static : F64
  /-- `SMP_INDEX`. -/
  smpIndex : BitVec 16
  /-- `KEYSHIFT`, s16. -/
  keyshift : BitVec 16
  /-- `KEYDIFF`, s16. -/
  keydiff : BitVec 16
  /-- `END`, s32. -/
  endIdx : BitVec 32
  /-- `LSTART`, s32. -/
  lstart : BitVec 32
  /-- `LMODE`. -/
  lmode : LoopMode
  /-- `BASE`. -/
  base : BitVec 32
  /-- `SVOL`. -/
  svol : BitVec 7
  /-- `F1_X1, F1_X2, F1_Y1, F1_Y2`. -/
  f1 : FilterStage
  /-- `F2_X1, F2_X2, F2_Y1, F2_Y2`. -/
  f2 : FilterStage
  deriving DecidableEq, Repr

/-- "The state of one voice is exactly: three envelope generators ..., the partial engine's configuration
registers, its break-point table, and its runtime registers" (R20). -/
structure Voice where
  /-- `EG[0]` pitch, `EG[1]` filter, `EG[2]` amplitude. -/
  eg : Vector Envelope 3
  /-- Bank 8. -/
  pe : PeConfig
  /-- Bank 9, `CFG.N_BP` entries. -/
  bp : List BpEntry
  /-- Bank 10. -/
  ps : PeRun
  deriving DecidableEq, Repr

/-- A sample record of the SREC space, "an abstract tuple, not a byte layout" (R63). -/
structure SampleRecord where
  rootKey : BitVec 7
  sampleLen : BitVec 32
  loopLen : BitVec 32
  loopMode : BitVec 2
  fineCents : F64
  volume : BitVec 7
  base : BitVec 32
  deriving DecidableEq, Repr

/-- A read-only space (R60): the objects the platform backs, by their integer name. It is canonical when the
names strictly rise (`Memory.wf`); a name that is not listed is not backed (log 11). -/
abbrev Memory (α : Type) := List (Nat × α)

/-- The operand ports of a command transfer (R80). -/
structure Bus where
  /-- `voice`, "enough bits for `CFG.N_VOICES`": a number. -/
  voice : Nat
  /-- `wdata`, read only by `WR`. -/
  wdata : BitVec 64
  /-- `mix_l_in`, read only by `PE.STEP`. -/
  mixL : F64
  /-- `mix_r_in`, read only by `PE.STEP`. -/
  mixR : F64
  deriving DecidableEq, Repr

/-- One command transfer: the command word and the operand ports presented with it (R80). -/
structure Transfer where
  cmd : CmdWord
  bus : Bus
  deriving DecidableEq, Repr

/-- The answer of a command (R80, R200). -/
structure Answer where
  rdata : BitVec 64
  /-- `mix_l_out`. -/
  mixL : F64
  /-- `mix_r_out`. -/
  mixR : F64
  term : Bool
  diag : Diag
  deriving DecidableEq, Repr

/-- The machine. `pending`, `bus` and `answer` are the command interface of R80, held here because a step is
a function of the state alone; they are the model's fields, not state of the core (log 1). -/
structure State where
  /-- The voices, `CFG.N_VOICES` of them (R20, R214). -/
  voices : List Voice
  /-- The WAVE space: word address to raw sample (R61). No command writes it. -/
  wave : Memory F64
  /-- The SREC space: index to sample record (R63). No command writes it. -/
  srec : Memory SampleRecord
  /-- The transfers the host has issued and the core has not executed, oldest first. -/
  pending : List Transfer
  /-- The operand ports of the command being executed. -/
  bus : Bus
  /-- The answer of the last command executed. -/
  answer : Answer
  deriving DecidableEq, Repr

/-- Why the machine stops with a fault. -/
inductive Fault where
  /-- Raised by `PE.STEP` (`feed`) when `BASE + IDX` is outside [0, 2^32 - 1]: "the read has no defined
  result" (R62). Safe: the model stops where the spec defines no result (log 12). -/
  | waveOutOfSpace
  /-- Raised by `PE.STEP` (`feed`) when "the platform has no sample at that address" (R62). Safe (log 12). -/
  | waveUnbacked
  deriving DecidableEq, Repr

/-- Why the machine has no meaning for a command. -/
inductive Refusal where
  /-- Raised by an arm of `exec` whose instruction has no meaning yet. Safe: nothing can be proved of it. -/
  | notModelled (mnemonic : String)
  /-- Raised by every command whose `voice` port is `N_VOICES` or more: "outside the model (refuse)" (R80).
  Safe (log 13). -/
  | voiceOutOfRange
  /-- Raised by `PE.INIT` when the platform has no record of the selected index: "no defined result (model:
  refuse)" (R63). Safe (log 12). -/
  | srecUnbacked
  deriving DecidableEq, Repr

/-- What one call of an envelope generator gives: the envelope after it, its output value, its `diag`. -/
structure EgResult where
  eg : Envelope
  value : F64
  diag : Diag
  deriving DecidableEq, Repr

/-- What a command does to its voice and what it answers, `term` apart (`State.complete` computes it). -/
structure Reply where
  voice : Voice
  rdata : BitVec 64
  diag : Diag
  mixL : F64
  mixR : F64
  deriving DecidableEq, Repr

/-- The registers of the map (R26, R27, R36..R46), each under its own name. -/
inductive Reg where
  | tgt (e : Fin 3) (i : Fin 5)
  | dur (e : Fin 3) (i : Fin 5)
  | shp (e : Fin 3) (i : Fin 5)
  | egKey (e : Fin 3)
  | ctlA (e : Fin 3)
  | ctlD (e : Fin 3)
  | ctlR (e : Fin 3)
  | phase (e : Fin 3)
  | cnt (e : Fin 3)
  | len (e : Fin 3)
  | entry (e : Fin 3)
  | cur (e : Fin 3)
  | fin (e : Fin 3)
  | sampleRate
  | nativeRate
  | key
  | flags
  | ksCoarse
  | ksMaster
  | ksPart
  | playKey
  | kfMult
  | pCoarseCents
  | pFineCents
  | rFinetune
  | rTune
  | rBend
  | rScale (i : Fin 12)
  | volPartial
  | volDrum
  | ampCtl
  | pan
  | bpKey (i : Nat)
  | bpSmp (i : Nat)
  | pos
  | dir
  | idx
  | smp
  | term
  | err
  | static
  | smpIndex
  | keyshift
  | keydiff
  | endIdx
  | lstart
  | lmode
  | base
  | svol
  | f1x1
  | f1x2
  | f1y1
  | f1y2
  | f2x1
  | f2x2
  | f2y1
  | f2y2
  deriving DecidableEq, Repr

/-- Access classes of R22. -/
inductive Access where
  | rw
  | ro
  deriving DecidableEq, Repr

/-- Reset of the envelope configuration registers, "unspecified" in R26: DESIGN CHOICE zero, unsafe (log 4). -/
def EgConfig.reset : EgConfig where
  tgt := Vector.replicate 5 0#64
  dur := Vector.replicate 5 0#7
  shp := Vector.replicate 5 0#1
  key := 0#8
  ctlA := 0#7
  ctlD := 0#7
  ctlR := 0#7

/-- The reset column of R27. -/
def EgRun.reset : EgRun where
  phase := .off
  cnt := 0#32
  len := 0#32
  entry := 0#64
  cur := 0#64
  fin := false

/-- An envelope generator after reset (R220). -/
def Envelope.reset : Envelope where
  conf := EgConfig.reset
  run := EgRun.reset

/-- Reset of bank 8, "unspecified" in R36..R39: DESIGN CHOICE zero, unsafe (log 4). -/
def PeConfig.reset : PeConfig where
  sampleRate := 0#64
  nativeRate := 0#64
  key := 0#7
  flags := 0#3
  ksCoarse := 0#8
  ksMaster := 0#8
  ksPart := 0#8
  playKey := 0#7
  kfMult := 0#64
  pCoarseCents := 0#64
  pFineCents := 0#64
  rFinetune := 0#64
  rTune := 0#64
  rBend := 0#64
  rScale := Vector.replicate 12 0#64
  volPartial := 0#7
  volDrum := 0#7
  ampCtl := 0#7
  pan := 0#7

/-- Reset of a break-point entry, "unspecified" in R42: DESIGN CHOICE zero, unsafe (log 4). -/
def BpEntry.reset : BpEntry where
  key := 0#7
  smp := 0#16

/-- "a silent filter" (R46, R141). -/
def FilterStage.reset : FilterStage where
  x1 := 0#64
  x2 := 0#64
  y1 := 0#64
  y2 := 0#64

/-- The reset column of R43..R46: "`IDX = -1`", everything else zero (R220). -/
def PeRun.reset : PeRun where
  pos := 0#64
  dir := false
  idx := BitVec.ofInt 32 (-1)
  smp := 0#64
  term := false
  err := false
  static := 0#64
  smpIndex := 0#16
  keyshift := 0#16
  keydiff := 0#16
  endIdx := 0#32
  lstart := 0#32
  lmode := .forwardLoop
  base := 0#32
  svol := 0#7
  f1 := FilterStage.reset
  f2 := FilterStage.reset

/-- A voice after reset of a core whose break-point table has `n` entries (R220). -/
def Voice.reset (n : Nat) : Voice where
  eg := Vector.replicate 3 Envelope.reset
  pe := PeConfig.reset
  bp := List.replicate n BpEntry.reset
  ps := PeRun.reset

/-- The operand ports before the first command: DESIGN CHOICE (log 5). -/
def Bus.reset : Bus where
  voice := 0
  wdata := 0#64
  mixL := 0#64
  mixR := 0#64

/-- The answer ports before the first command: DESIGN CHOICE (log 5). -/
def Answer.reset : Answer where
  rdata := 0#64
  mixL := 0#64
  mixR := 0#64
  term := false
  diag := .none

/-- "After reset every voice is in the same state" (R220); "All voices leave reset in the same state" (R214).
The two memories list nothing until the platform loads them (R76, log 11). -/
def State.reset : State where
  voices := List.replicate Config.cfg.nVoices (Voice.reset Config.cfg.nBp)
  wave := []
  srec := []
  pending := []
  bus := Bus.reset
  answer := Answer.reset

end Sys2Proof.Machine
end

