-- ==== Sys2Proof/Machine/Ops.lean ====
section
/-! DEFINITION. The operations every command shares: the two read-only memories, the choice of a voice, the
answer of a command, and reporting a diagnostic, which is what stands here in place of taking an exception. -/

namespace Sys2Proof.Machine

/-! ### The read-only memories (R60..R63) -/

/-- The object named `a`, or none where the platform backs nothing (R62, R63). -/
def Memory.read {α : Type} (m : Memory α) (a : Nat) : Option α :=
  match m with
  | [] => none
  | (b, x) :: rest => if a = b then some x else Memory.read rest a

/-- The host's load of one object before use (R76); it keeps the names strictly rising. -/
def Memory.load {α : Type} (m : Memory α) (a : Nat) (x : α) : Memory α :=
  match m with
  | [] => [(a, x)]
  | (b, y) :: rest =>
    if a < b then (a, x) :: (b, y) :: rest
    else if a = b then (a, x) :: rest
    else (b, y) :: Memory.load rest a x

/-- Every name listed is at least `lo` and the names strictly rise. -/
def Memory.wfFrom {α : Type} (lo : Nat) (m : Memory α) : Bool :=
  match m with
  | [] => true
  | (a, _) :: rest => decide (lo ≤ a) && Memory.wfFrom (a + 1) rest

/-- The canonical form: names strictly rising and below the size of the space. An unlisted name reads as
nothing, so no entry can equal what an unlisted name reads as (log 11). -/
def Memory.wf {α : Type} (size : Nat) (m : Memory α) : Bool :=
  Memory.wfFrom 0 m && m.all (fun c => decide (c.1 < size))

/-- The size of the WAVE space: a u32 word address (R61). -/
def waveSize : Nat := 2 ^ 32

/-- The size of the SREC space: a u16 index (R63). -/
def srecSize : Nat := 2 ^ 16

/-- The platform loads one raw sample (R76). -/
def State.loadWave (s : State) (a : BitVec 32) (x : F64) : State :=
  { s with wave := Memory.load s.wave a.toNat x }

/-- The platform loads one sample record (R76). -/
def State.loadSrec (s : State) (i : BitVec 16) (r : SampleRecord) : State :=
  { s with srec := Memory.load s.srec i.toNat r }

/-- `WaveRead(BASE + IDX)`: the address "is computed as a mathematical integer" (R62). -/
def waveRead (wave : Memory F64) (base idx : BitVec 32) : Except Fault F64 :=
  let a : Int := (base.toNat : Int) + idx.toInt
  if a < 0 ∨ (waveSize : Int) ≤ a then .error .waveOutOfSpace
  else match Memory.read wave a.toNat with
    | none => .error .waveUnbacked
    | some x => .ok x

/-- `SrecRead(i)` (R63). -/
def srecRead (srec : Memory SampleRecord) (i : BitVec 16) : Except Refusal SampleRecord :=
  match Memory.read srec i.toNat with
  | none => .error .srecUnbacked
  | some r => .ok r

/-! ### One command of one voice (R80, R81) -/

/-- The answer `term`: "`PE.TERM | PE.ERR` as they stand after the command" (R80). -/
def Voice.termOut (v : Voice) : Bool := v.ps.term || v.ps.err

/-- A command is complete: the addressed voice takes its new state and the answer ports are driven (R80).
Nothing else changes. -/
def State.complete (s : State) (r : Reply) : State :=
  { s with
    voices := s.voices.set s.bus.voice r.voice
    answer :=
      { rdata := r.rdata
        mixL := r.mixL
        mixR := r.mixR
        term := r.voice.termOut
        diag := r.diag } }

/-- The reply of a command that leaves the accumulator alone: `mix_*_out` is `mix_*_in` "bit for bit" (R80). -/
def Bus.reply (b : Bus) (v : Voice) (rdata : BitVec 64) (d : Diag) : Reply where
  voice := v
  rdata := rdata
  diag := d
  mixL := b.mixL
  mixR := b.mixR

/-- Reporting a condition, in place of taking an exception: "Nothing is saved, no mode changes, control goes
nowhere: the command completes with the state effect its row in rule R200 gives" (R208), here the voice `v`;
`rdata` is 0. There is no return from it (R209). -/
def Bus.report (b : Bus) (v : Voice) (d : Diag) : Reply := b.reply v 0#64 d

/-- What a command with `rdata = 0` and nothing to report answers. -/
def Bus.done (b : Bus) (v : Voice) : Reply := b.reply v 0#64 .none

/-- A command that always has a reply, run on the voice the `voice` port names: "a value >= N_VOICES is
outside the model (refuse)" (R80). -/
def State.onVoice (s : State) (f : Voice → Reply) : Host.Outcome State Fault Refusal :=
  match s.voices[s.bus.voice]? with
  | none => .refused .voiceOutOfRange
  | some v => .next (s.complete (f v))

/-- An illegal command: "An illegal word changes no state; its answer is `rdata = 0`, `mix_*_out = mix_*_in`,
`term` as rule R80, `diag = 5`" (R86). -/
def State.illegal (s : State) : Host.Outcome State Fault Refusal :=
  s.onVoice fun v => s.bus.report v .illegalCmd

/-! ### Envelopes of a voice -/

/-- The envelope number of a format E command: `e = cmd[27:24]`, 0..2 (R84, R86). -/
def envIndex (e : BitVec 4) : Option (Fin 3) :=
  if h : e.toNat < 3 then some ⟨e.toNat, h⟩ else none

/-- `EG[e]`. -/
def Voice.getEg (v : Voice) (e : Fin 3) : Envelope := v.eg[e]

/-- `EG[e] <- g`. -/
def Voice.setEg (v : Voice) (e : Fin 3) (g : Envelope) : Voice := { v with eg := v.eg.set e g }

/-- A format E command: run on envelope e of the voice, illegal for e in 3..15 (R86). -/
def State.onEnvelope (s : State) (e : BitVec 4) (f : Voice → Fin 3 → Reply) :
    Host.Outcome State Fault Refusal :=
  match envIndex e with
  | none => s.illegal
  | some k => s.onVoice fun v => f v k

end Sys2Proof.Machine
end

