-- ==== Sys2Proof/Machine/Operands.lean ====
section
/-! DEFINITION. The register map: which register a bank and number name (R21, R103), its access class and the
64-bit data port it is read and written through (R22). -/

namespace Sys2Proof.Machine

/-- The code of a ramp's array index: "the element of phase p (1..5) is index p - 1" (R25). -/
def Ramp.index : Ramp → Fin 5
  | .attack => 0
  | .hold => 1
  | .decay => 2
  | .sustain => 3
  | .release => 4

/-- The u3 code of `PHASE` (R24). -/
def Phase.code : Phase → BitVec 3
  | .off => 0#3
  | .ramp .attack => 1#3
  | .ramp .hold => 2#3
  | .ramp .decay => 3#3
  | .ramp .sustain => 4#3
  | .ramp .release => 5#3

/-- The u2 code of `LMODE` (R44, D31). -/
def LoopMode.code : LoopMode → BitVec 2
  | .forwardLoop => 0#2
  | .forwardBackward => 1#2
  | .forwardStop => 2#2

/-- The loop mode of a record's code; "3 reserved" (R63). -/
def loopModeOf (m : BitVec 2) : Option LoopMode :=
  if m = 0#2 then some .forwardLoop
  else if m = 1#2 then some .forwardBackward
  else if m = 2#2 then some .forwardStop
  else none

/-- `lo <= n < lo + size` as an index from `lo`. -/
def inRange (n lo size : Nat) : Option (Fin size) :=
  if h : lo ≤ n ∧ n - lo < size then some ⟨n - lo, h.2⟩ else none

/-- The registers of an envelope bank (R26, R27). -/
def egReg (e : Fin 3) (n : Nat) : Option Reg :=
  match inRange n 0x00 5 with
  | some i => some (.tgt e i)
  | none =>
    match inRange n 0x08 5 with
    | some i => some (.dur e i)
    | none =>
      match inRange n 0x10 5 with
      | some i => some (.shp e i)
      | none =>
        match n with
        | 0x18 => some (.egKey e)
        | 0x19 => some (.ctlA e)
        | 0x1A => some (.ctlD e)
        | 0x1B => some (.ctlR e)
        | 0x20 => some (.phase e)
        | 0x21 => some (.cnt e)
        | 0x22 => some (.len e)
        | 0x23 => some (.entry e)
        | 0x24 => some (.cur e)
        | 0x25 => some (.fin e)
        | _ => none

/-- The registers of bank 8 (R36..R39). -/
def peReg (n : Nat) : Option Reg :=
  match inRange n 0x20 12 with
  | some i => some (.rScale i)
  | none =>
    match n with
    | 0x00 => some .sampleRate
    | 0x01 => some .nativeRate
    | 0x02 => some .key
    | 0x03 => some .flags
    | 0x04 => some .ksCoarse
    | 0x05 => some .ksMaster
    | 0x06 => some .ksPart
    | 0x07 => some .playKey
    | 0x08 => some .kfMult
    | 0x09 => some .pCoarseCents
    | 0x0A => some .pFineCents
    | 0x10 => some .rFinetune
    | 0x11 => some .rTune
    | 0x12 => some .rBend
    | 0x30 => some .volPartial
    | 0x31 => some .volDrum
    | 0x32 => some .ampCtl
    | 0x33 => some .pan
    | _ => none

/-- The registers of bank 9, a table of `nBp` entries: "Register numbers `2*N_BP` and above hold no
register" (R42). -/
def bpReg (nBp n : Nat) : Option Reg :=
  if n < 2 * nBp then
    if n % 2 = 0 then some (.bpKey (n / 2)) else some (.bpSmp (n / 2))
  else none

/-- The registers of bank 10 (R43..R46). -/
def psReg (n : Nat) : Option Reg :=
  match n with
  | 0x00 => some .pos
  | 0x01 => some .dir
  | 0x02 => some .idx
  | 0x03 => some .smp
  | 0x04 => some .term
  | 0x05 => some .err
  | 0x06 => some .static
  | 0x07 => some .smpIndex
  | 0x08 => some .keyshift
  | 0x09 => some .keydiff
  | 0x0A => some .endIdx
  | 0x0B => some .lstart
  | 0x0C => some .lmode
  | 0x0D => some .base
  | 0x0E => some .svol
  | 0x10 => some .f1x1
  | 0x11 => some .f1x2
  | 0x12 => some .f1y1
  | 0x13 => some .f1y2
  | 0x14 => some .f2x1
  | 0x15 => some .f2x2
  | 0x16 => some .f2y1
  | 0x17 => some .f2y2
  | _ => none

/-- The register `(bank, reg)` names, if any, in a voice whose break-point table has `nBp` entries
(R21, R103). -/
def regAt (nBp : Nat) (bank : BitVec 4) (reg : BitVec 8) : Option Reg :=
  match bank.toNat with
  | 0 => egReg 0 reg.toNat
  | 1 => egReg 1 reg.toNat
  | 2 => egReg 2 reg.toNat
  | 8 => peReg reg.toNat
  | 9 => bpReg nBp reg.toNat
  | 10 => psReg reg.toNat
  | _ => none

/-- The access class: "RO registers: banks 0..2 numbers 0x20..0x25, and all of bank 10" (R103). -/
def Reg.access : Reg → Access
  | .tgt _ _ => .rw
  | .dur _ _ => .rw
  | .shp _ _ => .rw
  | .egKey _ => .rw
  | .ctlA _ => .rw
  | .ctlD _ => .rw
  | .ctlR _ => .rw
  | .phase _ => .ro
  | .cnt _ => .ro
  | .len _ => .ro
  | .entry _ => .ro
  | .cur _ => .ro
  | .fin _ => .ro
  | .sampleRate => .rw
  | .nativeRate => .rw
  | .key => .rw
  | .flags => .rw
  | .ksCoarse => .rw
  | .ksMaster => .rw
  | .ksPart => .rw
  | .playKey => .rw
  | .kfMult => .rw
  | .pCoarseCents => .rw
  | .pFineCents => .rw
  | .rFinetune => .rw
  | .rTune => .rw
  | .rBend => .rw
  | .rScale _ => .rw
  | .volPartial => .rw
  | .volDrum => .rw
  | .ampCtl => .rw
  | .pan => .rw
  | .bpKey _ => .rw
  | .bpSmp _ => .rw
  | .pos => .ro
  | .dir => .ro
  | .idx => .ro
  | .smp => .ro
  | .term => .ro
  | .err => .ro
  | .static => .ro
  | .smpIndex => .ro
  | .keyshift => .ro
  | .keydiff => .ro
  | .endIdx => .ro
  | .lstart => .ro
  | .lmode => .ro
  | .base => .ro
  | .svol => .ro
  | .f1x1 => .ro
  | .f1x2 => .ro
  | .f1y1 => .ro
  | .f1y2 => .ro
  | .f2x1 => .ro
  | .f2x2 => .ro
  | .f2y1 => .ro
  | .f2y2 => .ro

/-- `zext_64` of an unsigned register (R7, R22). -/
def zext64 {n : Nat} (x : BitVec n) : BitVec 64 := x.setWidth 64

/-- `sext_64` of a signed register (R7, R22). -/
def sext64 {n : Nat} (x : BitVec n) : BitVec 64 := x.signExtend 64

/-- `zext_64` of a one-bit register. -/
def flag64 (b : Bool) : BitVec 64 := if b then 1#64 else 0#64

/-- The low `n` bits of the write data, "the rest discarded" (R22, R101). -/
def lowBits (n : Nat) (w : BitVec 64) : BitVec n := w.setWidth n

/-- Entry i of the break-point table; only `i < N_BP` is ever named (R42). -/
def Voice.bpEntry (v : Voice) (i : Nat) : BpEntry := v.bp[i]?.getD BpEntry.reset

/-- `RD`'s value of a register: "`zext_64` of a `uN` register, `sext_64` of an `sN` register, and the raw 64
bits of an `f64` register" (R22). -/
def Reg.read (r : Reg) (v : Voice) : BitVec 64 :=
  match r with
  | .tgt e i => (v.getEg e).conf.tgt[i]
  | .dur e i => zext64 (v.getEg e).conf.dur[i]
  | .shp e i => zext64 (v.getEg e).conf.shp[i]
  | .egKey e => sext64 (v.getEg e).conf.key
  | .ctlA e => zext64 (v.getEg e).conf.ctlA
  | .ctlD e => zext64 (v.getEg e).conf.ctlD
  | .ctlR e => zext64 (v.getEg e).conf.ctlR
  | .phase e => zext64 (v.getEg e).run.phase.code
  | .cnt e => zext64 (v.getEg e).run.cnt
  | .len e => zext64 (v.getEg e).run.len
  | .entry e => (v.getEg e).run.entry
  | .cur e => (v.getEg e).run.cur
  | .fin e => flag64 (v.getEg e).run.fin
  | .sampleRate => v.pe.sampleRate
  | .nativeRate => v.pe.nativeRate
  | .key => zext64 v.pe.key
  | .flags => zext64 v.pe.flags
  | .ksCoarse => sext64 v.pe.ksCoarse
  | .ksMaster => sext64 v.pe.ksMaster
  | .ksPart => sext64 v.pe.ksPart
  | .playKey => zext64 v.pe.playKey
  | .kfMult => v.pe.kfMult
  | .pCoarseCents => v.pe.pCoarseCents
  | .pFineCents => v.pe.pFineCents
  | .rFinetune => v.pe.rFinetune
  | .rTune => v.pe.rTune
  | .rBend => v.pe.rBend
  | .rScale i => v.pe.rScale[i]
  | .volPartial => zext64 v.pe.volPartial
  | .volDrum => zext64 v.pe.volDrum
  | .ampCtl => zext64 v.pe.ampCtl
  | .pan => zext64 v.pe.pan
  | .bpKey i => zext64 (v.bpEntry i).key
  | .bpSmp i => zext64 (v.bpEntry i).smp
  | .pos => v.ps.pos
  | .dir => flag64 v.ps.dir
  | .idx => sext64 v.ps.idx
  | .smp => v.ps.smp
  | .term => flag64 v.ps.term
  | .err => flag64 v.ps.err
  | .static => v.ps.static
  | .smpIndex => zext64 v.ps.smpIndex
  | .keyshift => sext64 v.ps.keyshift
  | .keydiff => sext64 v.ps.keydiff
  | .endIdx => sext64 v.ps.endIdx
  | .lstart => sext64 v.ps.lstart
  | .lmode => zext64 v.ps.lmode.code
  | .base => zext64 v.ps.base
  | .svol => zext64 v.ps.svol
  | .f1x1 => v.ps.f1.x1
  | .f1x2 => v.ps.f1.x2
  | .f1y1 => v.ps.f1.y1
  | .f1y2 => v.ps.f1.y2
  | .f2x1 => v.ps.f2.x1
  | .f2x2 => v.ps.f2.x2
  | .f2y1 => v.ps.f2.y1
  | .f2y2 => v.ps.f2.y2

/-- The configuration of envelope e changed by `f`, its runtime registers untouched. -/
def Voice.mapEgConf (v : Voice) (e : Fin 3) (f : EgConfig → EgConfig) : Voice :=
  v.setEg e { v.getEg e with conf := f (v.getEg e).conf }

/-- Bank 8 changed by `f`. -/
def Voice.mapPe (v : Voice) (f : PeConfig → PeConfig) : Voice := { v with pe := f v.pe }

/-- Entry i of the break-point table changed by `f`. -/
def Voice.mapBp (v : Voice) (i : Nat) (f : BpEntry → BpEntry) : Voice := { v with bp := v.bp.modify i f }

/-- `WR`'s store: "A write stores the low N bits of the 64-bit write data and discards the rest" (R22). A
read-only register is never stored to (R103). -/
def Reg.write (r : Reg) (w : BitVec 64) (v : Voice) : Voice :=
  match r with
  | .tgt e i => v.mapEgConf e fun k => { k with tgt := k.tgt.set i w }
  | .dur e i => v.mapEgConf e fun k => { k with dur := k.dur.set i (lowBits 7 w) }
  | .shp e i => v.mapEgConf e fun k => { k with shp := k.shp.set i (lowBits 1 w) }
  | .egKey e => v.mapEgConf e fun k => { k with key := lowBits 8 w }
  | .ctlA e => v.mapEgConf e fun k => { k with ctlA := lowBits 7 w }
  | .ctlD e => v.mapEgConf e fun k => { k with ctlD := lowBits 7 w }
  | .ctlR e => v.mapEgConf e fun k => { k with ctlR := lowBits 7 w }
  | .sampleRate => v.mapPe fun k => { k with sampleRate := w }
  | .nativeRate => v.mapPe fun k => { k with nativeRate := w }
  | .key => v.mapPe fun k => { k with key := lowBits 7 w }
  | .flags => v.mapPe fun k => { k with flags := lowBits 3 w }
  | .ksCoarse => v.mapPe fun k => { k with ksCoarse := lowBits 8 w }
  | .ksMaster => v.mapPe fun k => { k with ksMaster := lowBits 8 w }
  | .ksPart => v.mapPe fun k => { k with ksPart := lowBits 8 w }
  | .playKey => v.mapPe fun k => { k with playKey := lowBits 7 w }
  | .kfMult => v.mapPe fun k => { k with kfMult := w }
  | .pCoarseCents => v.mapPe fun k => { k with pCoarseCents := w }
  | .pFineCents => v.mapPe fun k => { k with pFineCents := w }
  | .rFinetune => v.mapPe fun k => { k with rFinetune := w }
  | .rTune => v.mapPe fun k => { k with rTune := w }
  | .rBend => v.mapPe fun k => { k with rBend := w }
  | .rScale i => v.mapPe fun k => { k with rScale := k.rScale.set i w }
  | .volPartial => v.mapPe fun k => { k with volPartial := lowBits 7 w }
  | .volDrum => v.mapPe fun k => { k with volDrum := lowBits 7 w }
  | .ampCtl => v.mapPe fun k => { k with ampCtl := lowBits 7 w }
  | .pan => v.mapPe fun k => { k with pan := lowBits 7 w }
  | .bpKey i => v.mapBp i fun k => { k with key := lowBits 7 w }
  | .bpSmp i => v.mapBp i fun k => { k with smp := lowBits 16 w }
  | .phase _ => v
  | .cnt _ => v
  | .len _ => v
  | .entry _ => v
  | .cur _ => v
  | .fin _ => v
  | .pos => v
  | .dir => v
  | .idx => v
  | .smp => v
  | .term => v
  | .err => v
  | .static => v
  | .smpIndex => v
  | .keyshift => v
  | .keydiff => v
  | .endIdx => v
  | .lstart => v
  | .lmode => v
  | .base => v
  | .svol => v
  | .f1x1 => v
  | .f1x2 => v
  | .f1y1 => v
  | .f1y2 => v
  | .f2x1 => v
  | .f2x2 => v
  | .f2y1 => v
  | .f2y2 => v

/-- The width N of a register (R26, R27, R36..R46). -/
def Reg.width : Reg → Nat
  | .tgt _ _ => 64
  | .dur _ _ => 7
  | .shp _ _ => 1
  | .egKey _ => 8
  | .ctlA _ => 7
  | .ctlD _ => 7
  | .ctlR _ => 7
  | .phase _ => 3
  | .cnt _ => 32
  | .len _ => 32
  | .entry _ => 64
  | .cur _ => 64
  | .fin _ => 1
  | .sampleRate => 64
  | .nativeRate => 64
  | .key => 7
  | .flags => 3
  | .ksCoarse => 8
  | .ksMaster => 8
  | .ksPart => 8
  | .playKey => 7
  | .kfMult => 64
  | .pCoarseCents => 64
  | .pFineCents => 64
  | .rFinetune => 64
  | .rTune => 64
  | .rBend => 64
  | .rScale _ => 64
  | .volPartial => 7
  | .volDrum => 7
  | .ampCtl => 7
  | .pan => 7
  | .bpKey _ => 7
  | .bpSmp _ => 16
  | .pos => 64
  | .dir => 1
  | .idx => 32
  | .smp => 64
  | .term => 1
  | .err => 1
  | .static => 64
  | .smpIndex => 16
  | .keyshift => 16
  | .keydiff => 16
  | .endIdx => 32
  | .lstart => 32
  | .lmode => 2
  | .base => 32
  | .svol => 7
  | .f1x1 => 64
  | .f1x2 => 64
  | .f1y1 => 64
  | .f1y2 => 64
  | .f2x1 => 64
  | .f2x2 => 64
  | .f2y1 => 64
  | .f2y2 => 64

/-- Whether a register is an `sN` register, read by sign extension (R22). -/
def Reg.signed : Reg → Bool
  | .egKey _ => true
  | .ksCoarse => true
  | .ksMaster => true
  | .ksPart => true
  | .idx => true
  | .keyshift => true
  | .keydiff => true
  | .endIdx => true
  | .lstart => true
  | _ => false

end Sys2Proof.Machine
end

