-- ==== Sys2Proof/Machine/Flags.lean ====
section
/-! DEFINITION. The status values of R29 and the bits of `FLAGS` (R37): what sets `TERM`, `ERR`, `DIR` and
`FIN`, and what reads them. There are no arithmetic condition codes (R29). -/

namespace Sys2Proof.Machine

/-- `FLAGS.DRUM`, bit 0 (R37). -/
def PeConfig.drum (k : PeConfig) : Bool := k.flags.getLsbD 0

/-- `FLAGS.GEN_DRUM_KS`, bit 1 (R37). -/
def PeConfig.genDrumKs (k : PeConfig) : Bool := k.flags.getLsbD 1

/-- `FLAGS.DRUM_RX_NOTEOFF`, bit 2 (R37). -/
def PeConfig.drumRxNoteoff (k : PeConfig) : Bool := k.flags.getLsbD 2

/-- `TERM <- 1` (R161, R171). -/
def PeRun.setTerm (p : PeRun) : PeRun := { p with term := true }

/-- `ERR <- 1` (R144, R146). -/
def PeRun.setErr (p : PeRun) : PeRun := { p with err := true }

/-- `DIR <- d`, true for backward (R170, R173). -/
def PeRun.setDir (p : PeRun) (d : Bool) : PeRun := { p with dir := d }

/-- `FIN <- 1; CUR <- +0.0`; "`CNT`, `LEN`, `ENTRY`, `PHASE` are not written" (R123). -/
def EgRun.finish (r : EgRun) : EgRun := { r with fin := true, cur := F64.zero }

/-- Which `diag` a command with several reports: "the first non-zero `diag` among the three" (R162, R207). -/
def Diag.first (a b : Diag) : Diag := if a = .none then b else a

/-- The 4-bit code of R200. -/
def Diag.code : Diag → BitVec 4
  | .none => 0#4
  | .egOffCall => 1#4
  | .peSampleUnset => 2#4
  | .egBadStart => 3#4
  | .badReg => 4#4
  | .illegalCmd => 5#4
  | .peUnusable => 6#4
  | .peBadSample => 7#4

end Sys2Proof.Machine
end

