-- ==== Sys2Proof/Machine/EnvelopeGen.lean ====
section
/-! DEFINITION. The envelope generator and its four commands (41_envelope.md R110..R128). `rate` is the
voice's `PE.SAMPLE_RATE`, the only register outside its bank an envelope reads (R128). -/

namespace Sys2Proof.Machine

/-- The dynamic offset of a ramp: a controller minus 64 for Attack, Decay and Release; "Hold, Sustain: no
offset" (R119). -/
def dynamicOffset (k : EgConfig) (r : Ramp) : Int :=
  match r with
  | .attack => (k.ctlA.toNat : Int) - 64
  | .hold => 0
  | .decay => (k.ctlD.toNat : Int) - 64
  | .sustain => 0
  | .release => (k.ctlR.toNat : Int) - 64

/-- `d <- clamp(DUR[p-1] + off, 0, 127)` (R119). -/
def effectiveDuration (k : EgConfig) (r : Ramp) : Int :=
  clampInt ((k.dur[r.index].toNat : Int) + dynamicOffset k r) 0 127

/-- The seconds of a duration and an s8 key, for a library function `p2` (R119):
`pow2(d / 18.0) / 5.45 - 0.183`, times `1.0 - KEY / 128.0` when `KEY >= 0`. -/
def phaseSeconds (p2 : F64 → F64) (d key : Int) : F64 :=
  let t := F64.sub (F64.div (p2 (F64.div (F64.ofInt d) (F64.lit 18 1))) (F64.lit 545 100))
    (F64.lit 183 1000)
  if 0 ≤ key then F64.mul t (F64.sub F64.one (F64.div (F64.ofInt key) (F64.lit 128 1))) else t

/-- A sample count stored in the u32 `LEN`: `rha` where it is defined and fits (R119), else the free value
(U7, log 10). -/
def lengthOf (x : F64) : BitVec 32 :=
  if F64.isFinite x && decide (0 ≤ F64.rha x) && decide (F64.rha x < 2 ^ 32) then
    BitVec.ofInt 32 (F64.rha x)
  else Config.freeLength x

/-- `phaseLength(e, p)` (R119). -/
def phaseLength (c : Cfg) (rate : F64) (k : EgConfig) (r : Ramp) : BitVec 32 :=
  lengthOf (F64.mul (phaseSeconds (Num.pow2 c) (effectiveDuration k r) k.key.toInt) rate)

/-- `enterPhase(e, p)`: "`CUR` is not changed by entering a phase" (R116). -/
def enterPhase (c : Cfg) (rate : F64) (g : Envelope) (r : Ramp) : Envelope :=
  { g with
    run :=
      { g.run with
        entry := g.run.cur
        cnt := 0#32
        len := phaseLength c rate g.conf r
        phase := .ramp r } }

/-- `satinc(c)` (R124). -/
def satinc (n : BitVec 32) : BitVec 32 := if n = BitVec.allOnes 32 then n else n + 1#32

/-- The progress `toF64(CNT) / toF64(LEN)` (R121, R122). -/
def egProgress (r : EgRun) : F64 := F64.div (F64.ofInt r.cnt.toNat) (F64.ofInt r.len.toNat)

/-- The affine blend `ENTRY + (tg - ENTRY) * prog` (R121, R122). -/
def egBlend (r : EgRun) (tg prog : F64) : F64 := F64.add r.entry (F64.mul (F64.sub tg r.entry) prog)

/-- `linear(e, tg)` (R121). -/
def egLinear (r : EgRun) (tg : F64) : F64 := egBlend r tg (egProgress r)

/-- `prog' <- ln(10.0 * prog + 1.0) / ln(11.0)` (R122). -/
def logProgress (c : Cfg) (prog : F64) : F64 :=
  F64.div (Num.ln c (F64.add (F64.mul (F64.lit 10 1) prog) F64.one)) (Num.ln c (F64.lit 11 1))

/-- `logarithmic(e, tg)` (R122). -/
def egLogarithmic (c : Cfg) (r : EgRun) (tg : F64) : F64 := egBlend r tg (logProgress c (egProgress r))

/-- The value of ramp r at the present count: the target for a zero length (R120), else linear (R121) or
logarithmic (R122). -/
def egValue (c : Cfg) (g : Envelope) (r : Ramp) : F64 :=
  let tg := g.conf.tgt[r.index]
  if g.run.len = 0#32 then tg
  else if g.conf.shp[r.index] = 0#1 then egLinear g.run tg
  else egLogarithmic c g.run tg

/-- The computing end of a call: `CUR` takes the value, then "`CNT <- satinc(CNT)`" (R118). -/
def egCompute (c : Cfg) (g : Envelope) (r : Ramp) : EgResult :=
  let x := egValue c g r
  { eg := { g with run := { g.run with cur := x, cnt := satinc g.run.cnt } }, value := x, diag := .none }

/-- `holdSustain(e)`: "`CNT <- satinc(CNT)`; nothing else is written; `EG.STEP` returns `CUR` unchanged"
(R125). -/
def holdSustain (g : Envelope) : EgResult :=
  { eg := { g with run := { g.run with cnt := satinc g.run.cnt } }, value := g.run.cur, diag := .none }

/-- `finish(e)` (R123). -/
def egFinish (g : Envelope) : EgResult :=
  { eg := { g with run := g.run.finish }, value := F64.zero, diag := .none }

/-- A call that finds `CNT > LEN`: `advance(e)` (R117) and, where it moved, the first value of the phase
entered; "at most one transition is made per call" (R118). -/
def egAdvance (c : Cfg) (rate : F64) (g : Envelope) (r : Ramp) : EgResult :=
  match r with
  | .attack => egCompute c (enterPhase c rate g .hold) .hold
  | .hold => egCompute c (enterPhase c rate g .decay) .decay
  | .decay => egCompute c (enterPhase c rate g .sustain) .sustain
  | .sustain =>
    if F64.eq g.conf.tgt[Ramp.sustain.index] F64.zero then
      egCompute c (enterPhase c rate g .release) .release
    else holdSustain g
  | .release => egFinish g

/-- The pseudocode of `EG.STEP e` (R118). -/
def egStep (c : Cfg) (rate : F64) (g : Envelope) : EgResult :=
  match g.run.phase with
  | .off => { eg := g, value := F64.zero, diag := .egOffCall }
  | .ramp r =>
    if g.run.fin then { eg := g, value := F64.zero, diag := .none }
    else if g.run.len < g.run.cnt then egAdvance c rate g r
    else egCompute c g r

/-- The pseudocode of `EG.INIT e`: "The configuration registers ... are not touched" (R112). -/
def egInit (g : Envelope) : Envelope := { g with run := EgRun.reset }

/-- The pseudocode of `EG.START e` (R113). -/
def egStart (c : Cfg) (rate : F64) (g : Envelope) : Envelope × Diag :=
  match g.run.phase with
  | .off => (enterPhase c rate g .attack, .none)
  | .ramp _ => (g, .egBadStart)

/-- The pseudocode of `EG.RELEASE e` (R114): from every phase but Release (C2). -/
def egRelease (c : Cfg) (rate : F64) (g : Envelope) : Envelope :=
  if g.run.phase = .ramp .release then g else enterPhase c rate g .release

/-- `EG.INIT e` (R112). -/
def execEgInit (e : BitVec 4) (s : State) : Host.Outcome State Fault Refusal :=
  s.onEnvelope e fun v k => s.bus.done (v.setEg k (egInit (v.getEg k)))

/-- `EG.START e` (R113). -/
def execEgStart (e : BitVec 4) (s : State) : Host.Outcome State Fault Refusal :=
  s.onEnvelope e fun v k =>
    let r := egStart Config.cfg v.pe.sampleRate (v.getEg k)
    s.bus.report (v.setEg k r.1) r.2

/-- `EG.RELEASE e` (R114). -/
def execEgRelease (e : BitVec 4) (s : State) : Host.Outcome State Fault Refusal :=
  s.onEnvelope e fun v k =>
    s.bus.done (v.setEg k (egRelease Config.cfg v.pe.sampleRate (v.getEg k)))

/-- `EG.STEP e`: "`rdata` = the f64 bits of the output value" (R118). -/
def execEgStep (e : BitVec 4) (s : State) : Host.Outcome State Fault Refusal :=
  s.onEnvelope e fun v k =>
    let r := egStep Config.cfg v.pe.sampleRate (v.getEg k)
    s.bus.reply (v.setEg k r.eg) r.value r.diag

end Sys2Proof.Machine
end

