-- ==== Sys2Proof/Machine/PartialInit.lean ====
section
/-! DEFINITION. Partial construction, PE.INIT (42_partial_init.md R140..R152). -/

namespace Sys2Proof.Machine

/-- `resetRuntime()`: bank 10 to reset values, "each envelope e = 0, 1, 2 is put through the pseudocode of
`EG.INIT e`" (R141). -/
def resetRuntime (v : Voice) : Voice := { v with ps := PeRun.reset, eg := v.eg.map egInit }

/-- `keyShift()` (R142). -/
def keyShift (k : PeConfig) : Int :=
  if k.drum = false ∨ k.genDrumKs = true then k.ksCoarse.toInt + (k.ksMaster.toInt + k.ksPart.toInt)
  else k.ksCoarse.toInt

/-- `selectBreakpoint(ak)`: the first entry that accepts the adjusted key; none if "no entry accepts"
(R143). -/
def selectBreakpoint (c : Cfg) (ak : Int) (bp : List BpEntry) : Option BpEntry :=
  match bp with
  | [] => none
  | b :: rest =>
    if ak ≤ (b.key.toNat : Int) ∨ b.key = c.bpSentinel then some b else selectBreakpoint c ak rest

/-- The resolved sample index: none where no entry accepts or the entry is unset (R140, R144). -/
def resolveSample (c : Cfg) (ak : Int) (bp : List BpEntry) : Option (BitVec 16) :=
  match selectBreakpoint c ak bp with
  | none => none
  | some b => if b.smp = c.smpUnset then none else some b.smp

/-- `geometryOk(rec)` (R146), with the loop mode it makes sure of. -/
def geometry (r : SampleRecord) : Option LoopMode :=
  if 1 ≤ r.sampleLen.toNat ∧ r.sampleLen.toNat ≤ 2 ^ 31 - 1 ∧ r.loopLen.toNat ≤ r.sampleLen.toNat - 1 then
    loopModeOf r.loopMode
  else none

/-- `keyDiff(ks, rec)` (R147). -/
def keyDiff (c : Cfg) (k : PeConfig) (ks : Int) (r : SampleRecord) : Int :=
  let key : Int :=
    if k.drum then (k.playKey.toNat : Int)
    else if c.keydiffShift then (k.key.toNat : Int) + ks
    else (k.key.toNat : Int)
  key - (r.rootKey.toNat : Int)

/-- `staticRatio(rec)`, with `PE.KEYDIFF` the s16 register already written (R150). -/
def staticRatio (c : Cfg) (k : PeConfig) (keydiff : BitVec 16) (r : SampleRecord) : F64 :=
  let kc := F64.mul (F64.mul (F64.ofInt keydiff.toInt) (F64.lit 100 1)) k.kfMult
  let cents := F64.add (F64.add (F64.add k.pCoarseCents k.pFineCents) kc) r.fineCents
  let ratio := Num.exp c (F64.div (F64.mul cents F64.ln2) (F64.lit 1200 1))
  F64.mul ratio (F64.div k.nativeRate k.sampleRate)

/-- The registers construction latches from a record that passed `geometryOk` (R140): `END`, `LSTART`,
`LMODE`, `BASE`, `SVOL`, `KEYDIFF`, `STATIC`. -/
def latchRecord (c : Cfg) (k : PeConfig) (ks : Int) (r : SampleRecord) (m : LoopMode) (p : PeRun) : PeRun :=
  let kd := BitVec.ofInt 16 (keyDiff c k ks r)
  { p with
    endIdx := r.sampleLen - 1#32
    lstart := r.sampleLen - r.loopLen - 1#32
    lmode := m
    base := r.base
    svol := r.volume
    keydiff := kd
    static := staticRatio c k kd r }

/-- `startEnvelopes()`: "for e = 0, 1, 2 in that order, the pseudocode of `EG.START e`" (R152). -/
def startEnvelopes (c : Cfg) (v : Voice) : Voice :=
  { v with eg := v.eg.map fun g => (egStart c v.pe.sampleRate g).1 }

/-- The pseudocode of `PE.INIT` (R140). It has no result where the platform has no record of the selected
index (R63). -/
def peInit (c : Cfg) (srec : Memory SampleRecord) (b : Bus) (v : Voice) : Except Refusal Reply :=
  let v0 := resetRuntime v
  let ks := keyShift v.pe
  let p1 := { v0.ps with keyshift := BitVec.ofInt 16 ks }
  match resolveSample c ((v.pe.key.toNat : Int) + ks) v.bp with
  | none => .ok (b.report { v0 with ps := p1.setErr } .peSampleUnset)
  | some i =>
    match srecRead srec i with
    | .error f => .error f
    | .ok r =>
      let p2 := { p1 with smpIndex := i }
      match geometry r with
      | none => .ok (b.report { v0 with ps := p2.setErr } .peBadSample)
      | some m =>
        .ok (b.done (startEnvelopes c { v0 with ps := latchRecord c v.pe ks r m p2 }))

/-- `PE.INIT` (R140). -/
def execPeInit (s : State) : Host.Outcome State Fault Refusal :=
  match s.voices[s.bus.voice]? with
  | none => .refused .voiceOutOfRange
  | some v =>
    match peInit Config.cfg s.srec s.bus v with
    | .error f => .refused f
    | .ok r => .next (s.complete r)

end Sys2Proof.Machine
end

