-- ==== Sys2Proof/Machine/PartialStep.lean ====
section
/-! DEFINITION. The per-sample operation PE.STEP and note-off PE.STOP (43_partial_step.md R160..R186). -/

namespace Sys2Proof.Machine

/-! ### Envelopes and the rate multiplier -/

/-- The three output values of `stepEnvelopes()` (R162), with the voice after it and the `diag`. -/
def stepEnvelopes (c : Cfg) (v : Voice) : Voice × F64 × F64 × F64 × Diag :=
  let r0 := egStep c v.pe.sampleRate (v.getEg 0)
  let r1 := egStep c v.pe.sampleRate (v.getEg 1)
  let r2 := egStep c v.pe.sampleRate (v.getEg 2)
  (((v.setEg 0 r0.eg).setEg 1 r1.eg).setEg 2 r2.eg, r0.value, r1.value, r2.value,
    r0.diag.first (r1.diag.first r2.diag))

/-- `R_SCALE[KEY mod 12]` (R163). -/
def scaleRatio (k : PeConfig) : F64 := k.rScale[Fin.ofNat 12 k.key.toNat]

/-- `multiplier(ep)` (R163). -/
def multiplier (c : Cfg) (k : PeConfig) (static ep : F64) : F64 :=
  F64.mul (F64.mul (F64.mul (F64.mul (F64.mul k.rFinetune k.rTune) (scaleRatio k)) k.rBend) static)
    (c.pitchEnvRatio ep)

/-! ### The smoothing filter -/

/-- The output of one biquad section (R176). -/
def stageOut (c : Cfg) (f : FilterStage) (x : F64) : F64 :=
  F64.sub
    (F64.sub (F64.add (F64.add (F64.mul c.lpfB0 x) (F64.mul c.lpfB1 f.x1)) (F64.mul c.lpfB2 f.x2))
      (F64.mul c.lpfA1 f.y1))
    (F64.mul c.lpfA2 f.y2)

/-- The state of one biquad section after input x (R176). -/
def stageNext (c : Cfg) (f : FilterStage) (x : F64) : FilterStage where
  x1 := x
  x2 := f.x1
  y1 := stageOut c f x
  y2 := f.y1

/-- The two stages in sequence on one raw sample, and `SMP` (R168). -/
def smooth (c : Cfg) (p : PeRun) (x : F64) : PeRun :=
  let y1 := stageOut c p.f1 x
  { p with f1 := stageNext c p.f1 x, f2 := stageNext c p.f2 y1, smp := stageOut c p.f2 y1 }

/-- `feed()`: "consume the raw sample at `IDX`" (R168). -/
def feed (c : Cfg) (wave : Memory F64) (p : PeRun) : Except Fault PeRun :=
  match waveRead wave p.base p.idx with
  | .error f => .error f
  | .ok x => .ok (smooth c p x)

/-! ### The cursor and the loop state machine -/

/-- `IDX < POS_ROUND(POS) and IDX < E` (R167). -/
def trailsForward (p : PeRun) : Bool :=
  (match posRound p.pos with
    | none => false
    | some n => decide (p.idx.toInt < n)) && decide (p.idx.toInt < p.endIdx.toInt)

/-- `IDX > POS_ROUND(POS) and IDX > LS` (R172). -/
def trailsBackward (p : PeRun) : Bool :=
  (match posRound p.pos with
    | none => false
    | some n => decide (n < p.idx.toInt)) && decide (p.lstart.toInt < p.idx.toInt)

/-- The loop of `catchUpForward()` (R167), at most `fuel` rounds. -/
def forwardRounds (c : Cfg) (wave : Memory F64) (fuel : Nat) (p : PeRun) : Except Fault PeRun :=
  match fuel with
  | 0 => .ok p
  | n + 1 =>
    if trailsForward p then
      match feed c wave { p with idx := p.idx + 1#32 } with
      | .error f => .error f
      | .ok p' => forwardRounds c wave n p'
    else .ok p

/-- The loop of `catchUpBackward()` (R172), at most `fuel` rounds. -/
def backwardRounds (c : Cfg) (wave : Memory F64) (fuel : Nat) (p : PeRun) : Except Fault PeRun :=
  match fuel with
  | 0 => .ok p
  | n + 1 =>
    if trailsBackward p then
      match feed c wave { p with idx := p.idx - 1#32 } with
      | .error f => .error f
      | .ok p' => backwardRounds c wave n p'
    else .ok p

/-- `catchUpForward()` (R167). Each round raises `IDX` by one and the guard keeps it below `E`, so `E - IDX`
rounds are all there can be. -/
def catchUpForward (c : Cfg) (wave : Memory F64) (p : PeRun) : Except Fault PeRun :=
  forwardRounds c wave (p.endIdx.toInt - p.idx.toInt).toNat p

/-- `catchUpBackward()` (R172). Each round lowers `IDX` by one and the guard keeps it above `LS`. -/
def catchUpBackward (c : Cfg) (wave : Memory F64) (p : PeRun) : Except Fault PeRun :=
  backwardRounds c wave (p.idx.toInt - p.lstart.toInt).toNat p

/-- `toF64(E)`. -/
def endF (p : PeRun) : F64 := F64.ofInt p.endIdx.toInt

/-- `toF64(LS)`. -/
def lstartF (p : PeRun) : F64 := F64.ofInt p.lstart.toInt

/-- `wrapForwardLoop()`: "`POS <- LS + (POS - E)`", "`IDX <- LS`", then catch up (R169, C4). -/
def wrapForwardLoop (c : Cfg) (wave : Memory F64) (p : PeRun) : Except Fault PeRun :=
  catchUpForward c wave
    { p with pos := F64.add (lstartF p) (F64.sub p.pos (endF p)), idx := p.lstart }

/-- `reverseAtEnd()` (R170). -/
def reverseAtEnd (c : Cfg) (wave : Memory F64) (p : PeRun) : Except Fault PeRun :=
  catchUpBackward c wave
    (PeRun.setDir { p with pos := F64.sub (endF p) (F64.sub p.pos (endF p)) } true)

/-- `reverseAtLoopStart()` (R173). -/
def reverseAtLoopStart (c : Cfg) (wave : Memory F64) (p : PeRun) : Except Fault PeRun :=
  catchUpForward c wave
    (PeRun.setDir { p with pos := F64.add (lstartF p) (F64.sub (lstartF p) p.pos) } false)

/-- The branch on the loop mode when the position has crossed `E` (R166). -/
def crossEnd (c : Cfg) (wave : Memory F64) (p : PeRun) : Except Fault PeRun :=
  match p.lmode with
  | .forwardLoop => wrapForwardLoop c wave p
  | .forwardBackward => reverseAtEnd c wave p
  | .forwardStop => .ok p.setTerm

/-- `moveForward(m)`: "The crossing test is strict ... and is made once, after the catch-up" (R166). -/
def moveForward (c : Cfg) (wave : Memory F64) (m : F64) (p : PeRun) : Except Fault PeRun :=
  match catchUpForward c wave { p with pos := F64.add p.pos m } with
  | .error f => .error f
  | .ok p' => if F64.lt (endF p') p'.pos then crossEnd c wave p' else .ok p'

/-- `moveBackward(m)` (R172). -/
def moveBackward (c : Cfg) (wave : Memory F64) (m : F64) (p : PeRun) : Except Fault PeRun :=
  match catchUpBackward c wave { p with pos := F64.sub p.pos m } with
  | .error f => .error f
  | .ok p' => if F64.lt p'.pos (lstartF p') then reverseAtLoopStart c wave p' else .ok p'

/-- `moveCursor(m)` (R165). -/
def moveCursor (c : Cfg) (wave : Memory F64) (m : F64) (p : PeRun) : Except Fault PeRun :=
  if p.dir then moveBackward c wave m p else moveForward c wave m p

/-! ### Volume, pan, output -/

/-- `vol(v)`, "computed as `(0.1 * pow2(toF64(v) / 36.7111)) - 0.1`" (R177). -/
def vol (c : Cfg) (x : BitVec 7) : F64 :=
  F64.sub
    (F64.mul (F64.lit 1 10) (Num.pow2 c (F64.div (F64.ofInt x.toNat) (F64.lit 367111 10000))))
    (F64.lit 1 10)

/-- `gain(ea)` (R178). -/
def gain (c : Cfg) (k : PeConfig) (svol : BitVec 7) (ea : F64) : F64 :=
  let g := F64.mul (vol c svol) (vol c k.volPartial)
  let g := if k.drum then F64.mul g (vol c k.volDrum) else g
  let g := F64.mul g (F64.div (F64.ofInt k.ampCtl.toNat) (F64.lit 64 1))
  F64.mul g ea

/-- `panValue()` (R181). -/
def panValue (pan : BitVec 7) : F64 :=
  let p := F64.div (F64.sub (F64.ofInt pan.toNat) (F64.lit 64 1)) (F64.lit 63 1)
  let lowest := F64.neg F64.one
  if F64.lt p lowest then lowest else p

/-- The left channel value: `v * (1.0 - p)` if `p > 0.0`, else `v` (R160, R181). -/
def panLeft (p v : F64) : F64 := if F64.lt F64.zero p then F64.mul v (F64.sub F64.one p) else v

/-- The right channel value: `v * (1.0 + p)` if `p < 0.0`, else `v` (R160, R181). -/
def panRight (p v : F64) : F64 := if F64.lt p F64.zero then F64.mul v (F64.add F64.one p) else v

/-! ### The commands -/

/-- The frame of a partial that did not terminate: "Add (not overwrite) the two resulting channel values"
(R160, R182). -/
def mixFrame (c : Cfg) (b : Bus) (v : Voice) (ea : F64) (d : Diag) : Reply :=
  let x := F64.mul v.ps.smp (gain c v.pe v.ps.svol ea)
  let p := panValue v.pe.pan
  { voice := v
    rdata := 0#64
    diag := d
    mixL := F64.add b.mixL (panLeft p x)
    mixR := F64.add b.mixR (panRight p x) }

/-- A `PE.STEP` of a partial that sounds: envelopes, multiplier, cursor, then output unless the cursor
terminated it (R160). -/
def peFrame (c : Cfg) (wave : Memory F64) (b : Bus) (v : Voice) : Except Fault Reply :=
  match stepEnvelopes c v with
  | (v1, ep, _, ea, d) =>
    match moveCursor c wave (multiplier c v.pe v.ps.static ep) v.ps with
    | .error f => .error f
    | .ok p =>
      let v2 := { v1 with ps := p }
      if p.term then .ok (b.report v2 d) else .ok (mixFrame c b v2 ea d)

/-- The pseudocode of `PE.STEP` (R160, R161). -/
def peStep (c : Cfg) (wave : Memory F64) (b : Bus) (v : Voice) : Except Fault Reply :=
  if v.ps.err then .ok (b.report v .peUnusable)
  else if v.ps.term then .ok (b.done v)
  else if (v.getEg 2).run.fin then .ok (b.done { v with ps := v.ps.setTerm })
  else peFrame c wave b v

/-- The pseudocode of `PE.STOP` (R185): "`FLAGS` is read at this command, not latched". -/
def peStop (c : Cfg) (b : Bus) (v : Voice) : Reply :=
  if v.ps.err then b.report v .peUnusable
  else if v.pe.drum ∧ v.pe.drumRxNoteoff = false then b.done v
  else b.done { v with eg := v.eg.map (egRelease c v.pe.sampleRate) }

/-- `PE.STEP` (R160). -/
def execPeStep (s : State) : Host.Outcome State Fault Refusal :=
  match s.voices[s.bus.voice]? with
  | none => .refused .voiceOutOfRange
  | some v =>
    match peStep Config.cfg s.wave s.bus v with
    | .error f => .fault f
    | .ok r => .next (s.complete r)

/-- `PE.STOP` (R185). -/
def execPeStop (s : State) : Host.Outcome State Fault Refusal :=
  s.onVoice (peStop Config.cfg s.bus)

end Sys2Proof.Machine
end

