-- ==== Sys2Proof/Machine/RegisterAccess.lean ====
section
/-! DEFINITION. NOP, WR, RD (40_register_access.md R100..R103). -/

namespace Sys2Proof.Machine

/-- `WR`: an RW register stores its low bits of `wdata`; anything else is a bad register access
(R101, R103). -/
def writeReg (b : Bus) (bank : BitVec 4) (reg : BitVec 8) (v : Voice) : Reply :=
  match regAt v.bp.length bank reg with
  | none => b.report v .badReg
  | some r =>
    match r.access with
    | .rw => b.done (r.write b.wdata v)
    | .ro => b.report v .badReg

/-- `RD`: the value of the register on `rdata`, no state change (R102), or a bad register access (R103). -/
def readReg (b : Bus) (bank : BitVec 4) (reg : BitVec 8) (v : Voice) : Reply :=
  match regAt v.bp.length bank reg with
  | none => b.report v .badReg
  | some r => b.reply v (r.read v) .none

/-- `NOP`: "Pseudocode: nothing" (R100). -/
def execNop (s : State) : Host.Outcome State Fault Refusal := s.onVoice fun v => s.bus.done v

/-- `WR bank:reg` (R101). -/
def execWr (bank : BitVec 4) (reg : BitVec 8) (s : State) : Host.Outcome State Fault Refusal :=
  s.onVoice (writeReg s.bus bank reg)

/-- `RD bank:reg` (R102). -/
def execRd (bank : BitVec 4) (reg : BitVec 8) (s : State) : Host.Outcome State Fault Refusal :=
  s.onVoice (readReg s.bus bank reg)

end Sys2Proof.Machine
end

