-- ==== Sys2Proof/Machine/Dispatch.lean ====
section
/-! DEFINITION. Which meaning each command has. -/

namespace Sys2Proof.Machine

def exec (i : Instr) (s : State) : Host.Outcome State Fault Refusal :=
  match i with
  | .nop => Sys2Proof.Machine.execNop s
  | .wr bank reg => Sys2Proof.Machine.execWr bank reg s
  | .rd bank reg => Sys2Proof.Machine.execRd bank reg s
  | .egInit e => Sys2Proof.Machine.execEgInit e s
  | .egStart e => Sys2Proof.Machine.execEgStart e s
  | .egRelease e => Sys2Proof.Machine.execEgRelease e s
  | .egStep e => Sys2Proof.Machine.execEgStep e s
  | .peInit => Sys2Proof.Machine.execPeInit s
  | .peStep => Sys2Proof.Machine.execPeStep s
  | .peStop => Sys2Proof.Machine.execPeStop s

end Sys2Proof.Machine
end

