-- ==== Sys2Proof/Machine/Step.lean ====
section
/-! DEFINITION. One step: the oldest pending command transfer is taken, its operand ports are driven, its word
is decoded and the command runs to completion (R15, R81). -/

namespace Sys2Proof.Machine

/-- The command interface takes a transfer off the queue and presents its operand ports (R80). -/
def State.accept (s : State) (t : Transfer) (rest : List Transfer) : State :=
  { s with pending := rest, bus := t.bus }

/-- One step. With no command pending the core "holds its state and does nothing" (R216, log 2). An illegal
word is answered by `ILLEGAL_CMD` (R86). -/
def step (s : State) : Host.Outcome State Fault Refusal :=
  match s.pending with
  | [] => .next s
  | t :: rest =>
    match decode t.cmd with
    | .ok i => exec i (s.accept t rest)
    | .error _ => (s.accept t rest).illegal

/-- The instruction whose bits are `w` placed where `step` takes its next command from: at the head of the
queue, with the operand ports as the state has them. -/
def State.withFetchWord (s : State) (nbits w : Nat) : State :=
  { s with pending := { cmd := BitVec.ofNat 32 (w % 2 ^ nbits), bus := s.bus } :: s.pending }

end Sys2Proof.Machine
end

