-- ==== Sys2Proof/Machine/Assembler.lean ====
section
/-! DEFINITION. The host's side of the command interface: the number of every register (the other direction
of the register map), the assembler lines of R87 and the pseudo-instructions of R88 as the command transfers
they stand for. No step of the machine uses this file. -/

namespace Sys2Proof.Machine

/-- The bank of envelope e: "0 = EG[0], 1 = EG[1], 2 = EG[2]" (R21). -/
def egBank (e : Fin 3) : BitVec 4 := BitVec.ofNat 4 e.val

/-- The bank and number of a register (R21, R26, R27, R36..R46). -/
def Reg.address : Reg → BitVec 4 × BitVec 8
  | .tgt e i => (egBank e, BitVec.ofNat 8 (0x00 + i.val))
  | .dur e i => (egBank e, BitVec.ofNat 8 (0x08 + i.val))
  | .shp e i => (egBank e, BitVec.ofNat 8 (0x10 + i.val))
  | .egKey e => (egBank e, 0x18#8)
  | .ctlA e => (egBank e, 0x19#8)
  | .ctlD e => (egBank e, 0x1A#8)
  | .ctlR e => (egBank e, 0x1B#8)
  | .phase e => (egBank e, 0x20#8)
  | .cnt e => (egBank e, 0x21#8)
  | .len e => (egBank e, 0x22#8)
  | .entry e => (egBank e, 0x23#8)
  | .cur e => (egBank e, 0x24#8)
  | .fin e => (egBank e, 0x25#8)
  | .sampleRate => (8#4, 0x00#8)
  | .nativeRate => (8#4, 0x01#8)
  | .key => (8#4, 0x02#8)
  | .flags => (8#4, 0x03#8)
  | .ksCoarse => (8#4, 0x04#8)
  | .ksMaster => (8#4, 0x05#8)
  | .ksPart => (8#4, 0x06#8)
  | .playKey => (8#4, 0x07#8)
  | .kfMult => (8#4, 0x08#8)
  | .pCoarseCents => (8#4, 0x09#8)
  | .pFineCents => (8#4, 0x0A#8)
  | .rFinetune => (8#4, 0x10#8)
  | .rTune => (8#4, 0x11#8)
  | .rBend => (8#4, 0x12#8)
  | .rScale i => (8#4, BitVec.ofNat 8 (0x20 + i.val))
  | .volPartial => (8#4, 0x30#8)
  | .volDrum => (8#4, 0x31#8)
  | .ampCtl => (8#4, 0x32#8)
  | .pan => (8#4, 0x33#8)
  | .bpKey i => (9#4, BitVec.ofNat 8 (2 * i))
  | .bpSmp i => (9#4, BitVec.ofNat 8 (2 * i + 1))
  | .pos => (10#4, 0x00#8)
  | .dir => (10#4, 0x01#8)
  | .idx => (10#4, 0x02#8)
  | .smp => (10#4, 0x03#8)
  | .term => (10#4, 0x04#8)
  | .err => (10#4, 0x05#8)
  | .static => (10#4, 0x06#8)
  | .smpIndex => (10#4, 0x07#8)
  | .keyshift => (10#4, 0x08#8)
  | .keydiff => (10#4, 0x09#8)
  | .endIdx => (10#4, 0x0A#8)
  | .lstart => (10#4, 0x0B#8)
  | .lmode => (10#4, 0x0C#8)
  | .base => (10#4, 0x0D#8)
  | .svol => (10#4, 0x0E#8)
  | .f1x1 => (10#4, 0x10#8)
  | .f1x2 => (10#4, 0x11#8)
  | .f1y1 => (10#4, 0x12#8)
  | .f1y2 => (10#4, 0x13#8)
  | .f2x1 => (10#4, 0x14#8)
  | .f2x2 => (10#4, 0x15#8)
  | .f2y1 => (10#4, 0x16#8)
  | .f2y2 => (10#4, 0x17#8)

/-- A `<regname>` of R87: a register by name, or "the raw form `<bank>:<reg>` in numbers". -/
inductive RegName where
  | named (r : Reg)
  | raw (bank : BitVec 4) (reg : BitVec 8)
  deriving DecidableEq, Repr

/-- The bank and number a `<regname>` stands for (R87). -/
def RegName.address : RegName → BitVec 4 × BitVec 8
  | .named r => r.address
  | .raw bank reg => (bank, reg)

/-- One line of the assembler, "one command per line" (R87), or a pseudo-instruction (R88). A value is given
by its 64 bits. -/
inductive AsmLine where
  | nop
  | wr (r : RegName) (value : BitVec 64)
  | rd (r : RegName)
  | egInit (e : Fin 3)
  | egStart (e : Fin 3)
  | egRelease (e : Fin 3)
  | egStep (e : Fin 3)
  | peInit
  /-- `PE.STEP [<l>, <r>]`: "optional accumulator-in pair". -/
  | peStep (pair : Option (F64 × F64))
  | peStop
  /-- `EG.CONFIG e, [t...], [d...], [s...], k`. -/
  | egConfig (e : Fin 3) (t : Vector F64 5) (d : Vector (BitVec 7) 5) (sh : Vector (BitVec 1) 5)
      (k : BitVec 8)
  /-- `EG.CTL e, a, d, r`. -/
  | egCtl (e : Fin 3) (a d r : BitVec 7)
  /-- `NOTE.OFF`. -/
  | noteOff
  deriving DecidableEq, Repr

/-- The transfer of a command with its operands to a voice (R80). -/
def transferOf (voice : Nat) (i : Instr) (wdata : BitVec 64) (l r : F64) : Transfer where
  cmd := encode i
  bus := { voice := voice, wdata := wdata, mixL := l, mixR := r }

/-- The transfer of a command without operands outside its word. It presents the pair 0.0, 0.0, which R87 gives
for `PE.STEP` only: for every other line the pair, and the `wdata` no command but `WR` reads, are the model's
DESIGN CHOICE (log 25). -/
def plainTransfer (voice : Nat) (i : Instr) : Transfer := transferOf voice i 0#64 F64.zero F64.zero

/-- The transfer of `WR r, value`. The pair it presents, 0.0, 0.0, is the model's DESIGN CHOICE (log 25). -/
def wrTransfer (voice : Nat) (a : BitVec 4 × BitVec 8) (value : BitVec 64) : Transfer :=
  transferOf voice (.wr a.1 a.2) value F64.zero F64.zero

/-- The three writes of one ramp in `EG.CONFIG` (R88). -/
def rampTransfers (voice : Nat) (e : Fin 3) (t : Vector F64 5) (d : Vector (BitVec 7) 5)
    (sh : Vector (BitVec 1) 5) (i : Fin 5) : List Transfer :=
  [wrTransfer voice (Reg.tgt e i).address t[i],
    wrTransfer voice (Reg.dur e i).address (zext64 d[i]),
    wrTransfer voice (Reg.shp e i).address (zext64 sh[i])]

/-- The transfers a line stands for: one, or the expansion of R88. A `PE.STEP` without operands presents the
"default 0.0, 0.0" (R87). -/
def assemble (voice : Nat) : AsmLine → List Transfer
  | .nop => [plainTransfer voice .nop]
  | .wr r value => [wrTransfer voice r.address value]
  | .rd r => [plainTransfer voice (.rd r.address.1 r.address.2)]
  | .egInit e => [plainTransfer voice (.egInit (egBank e))]
  | .egStart e => [plainTransfer voice (.egStart (egBank e))]
  | .egRelease e => [plainTransfer voice (.egRelease (egBank e))]
  | .egStep e => [plainTransfer voice (.egStep (egBank e))]
  | .peInit => [plainTransfer voice .peInit]
  | .peStep none => [plainTransfer voice .peStep]
  | .peStep (some pair) => [transferOf voice .peStep 0#64 pair.1 pair.2]
  | .peStop => [plainTransfer voice .peStop]
  | .egConfig e t d sh k =>
    rampTransfers voice e t d sh 0 ++ rampTransfers voice e t d sh 1 ++ rampTransfers voice e t d sh 2 ++
      rampTransfers voice e t d sh 3 ++ rampTransfers voice e t d sh 4 ++
      [wrTransfer voice (Reg.egKey e).address (zext64 k)]
  | .egCtl e a d r =>
    [wrTransfer voice (Reg.ctlA e).address (zext64 a),
      wrTransfer voice (Reg.ctlD e).address (zext64 d),
      wrTransfer voice (Reg.ctlR e).address (zext64 r)]
  | .noteOff => [plainTransfer voice .peStop]

/-- "`REPEAT n`: the enclosed lines n times" (R88). -/
def repeatLines (n : Nat) (ts : List Transfer) : List Transfer := (List.replicate n ts).flatten

/-- The host issues commands: they stand behind those already issued (R70, R80). -/
def State.issue (s : State) (ts : List Transfer) : State := { s with pending := s.pending ++ ts }

/-- The same command with the accumulator-in pair the last answer gave as its out pair. -/
def Transfer.chainedTo (a : Answer) (t : Transfer) : Transfer :=
  { t with bus := { t.bus with mixL := a.mixL, mixR := a.mixR } }

/-- A line inside a "chained" `REPEAT`, issued when the commands before it have been answered: a `PE.STEP`
without operands has as in pair "the previous step's out pair" (R88). The lines between two such steps present
the last answer's pair too and pass it on bit for bit (R80), so that it reaches the next step: the model's
DESIGN CHOICE (log 25). A `PE.STEP` with operands keeps them. -/
def State.issueChained (s : State) (voice : Nat) (l : AsmLine) : State :=
  match l with
  | .peStep (some _) => s.issue (assemble voice l)
  | _ => s.issue ((assemble voice l).map (Transfer.chainedTo s.answer))

end Sys2Proof.Machine
end

