-- ==== Sys2Proof/Safety.lean ====
section
/-! DEFINITION. What counts as a safe run, and the invariants of the spec (R28, R47, R175) in the terms the
statements use. -/

namespace Sys2Proof.Machine

/-- The envelope invariant I2: "`FIN = 1` implies `PHASE = 5` and `CUR = +0.0`" (R28). I1 holds by the type
of `PHASE`. -/
def Envelope.Inv (g : Envelope) : Prop :=
  g.run.fin = true → g.run.phase = .ramp .release ∧ g.run.cur = F64.zero

/-- The cursor invariant: J1 "`0 <= LSTART <= END`", J2 "`-1 <= IDX <= END`, and `IDX >= LSTART` whenever
`DIR = 1`", J5 "`DIR = 1` only if `LMODE = 1`" (R47, R175). -/
def PeRun.Inv (p : PeRun) : Prop :=
  (0 ≤ p.lstart.toInt ∧ p.lstart.toInt ≤ p.endIdx.toInt) ∧
  (-1 ≤ p.idx.toInt ∧ p.idx.toInt ≤ p.endIdx.toInt) ∧
  (p.dir = true → p.lmode = .forwardBackward) ∧
  (p.dir = true → p.lstart.toInt ≤ p.idx.toInt)

/-- The invariant of one voice of a core whose break-point table has `n` entries. -/
def Voice.Inv (n : Nat) (v : Voice) : Prop :=
  v.bp.length = n ∧ (∀ e : Fin 3, (v.getEg e).Inv) ∧ v.ps.Inv

/-- The invariant of the machine: `CFG.N_VOICES` voices with `CFG.N_BP` break-points each, every voice's
invariant, and both memories in canonical form. -/
def State.Inv (s : State) : Prop :=
  s.voices.length = Config.cfg.nVoices ∧
  (∀ v ∈ s.voices, v.Inv Config.cfg.nBp) ∧
  Memory.wf waveSize s.wave = true ∧ Memory.wf srecSize s.srec = true

/-- The platform backs every raw sample of the sample a partial plays: the addresses `BASE + i`,
`0 <= i <= END` (R61, R62, R76). -/
def PeRun.Backed (wave : Memory F64) (p : PeRun) : Prop :=
  ∀ i : Int, 0 ≤ i → i ≤ p.endIdx.toInt →
    (p.base.toNat : Int) + i < 2 ^ 32 ∧
    (Memory.read wave ((p.base.toNat : Int) + i).toNat).isSome = true

/-- The raw samples at the indices `l` fed one after the other, `IDX` set to each in turn (R167, R168). -/
def feedAll (c : Cfg) (wave : Memory F64) (p : PeRun) : List Int → Except Fault PeRun
  | [] => .ok p
  | i :: rest =>
    match feed c wave { p with idx := BitVec.ofInt 32 i } with
    | .error f => .error f
    | .ok p' => feedAll c wave p' rest

/-- The `n` integers after `i`, rising. -/
def indicesUp (i : Int) (n : Nat) : List Int := (List.range n).map fun k : Nat => i + 1 + (k : Int)

/-- The `n` integers before `i`, falling. -/
def indicesDown (i : Int) (n : Nat) : List Int := (List.range n).map fun k : Nat => i - 1 - (k : Int)

/-- A run is safe at `s` if the next step does not stop with a fault. -/
def State.Safe (s : State) : Prop := ∀ f, step s ≠ .fault f

/-- The voice the `voice` port names (R80). -/
def State.addressed (s : State) : Option Voice := s.voices[s.bus.voice]?

/-- The state in which only the addressed voice and the answer differ from `s`: the voice is `v`, the answer
has `rdata`, `diag` and the accumulator given, and `term = PE.TERM | PE.ERR` of `v` (R80). -/
def State.answered (s : State) (v : Voice) (rdata : BitVec 64) (d : Diag) (l r : F64) : State :=
  { s with
    voices := s.voices.set s.bus.voice v
    answer := { rdata := rdata, mixL := l, mixR := r, term := v.ps.term || v.ps.err, diag := d } }

/-- `State.answered` with `mix_*_out` equal to `mix_*_in` (R80). -/
def State.answeredThrough (s : State) (v : Voice) (rdata : BitVec 64) (d : Diag) : State :=
  s.answered v rdata d s.bus.mixL s.bus.mixR

end Sys2Proof.Machine
end

