-- ==== Sys2Proof/Certificates/Slice0/Obligations.lean ====
section
/-! DEFINITION. The statements about the model, for the provers. -/

open Sys2Proof Sys2Proof.Machine

/-! ### Command words (R82..R86) -/

/-- Words written out from the table of R85 decode to the commands they stand for. A sanity statement. -/
def Obligations.TableWordsDecode : Prop :=
  decode 0x00000000#32 = .ok .nop ∧
  decode 0x12080000#32 = .ok (.wr 2#4 0x08#8) ∧
  decode 0x2A020000#32 = .ok (.rd 10#4 0x02#8) ∧
  decode 0x41000000#32 = .ok (.egInit 1#4) ∧
  decode 0x52000000#32 = .ok (.egStart 2#4) ∧
  decode 0x60000000#32 = .ok (.egRelease 0#4) ∧
  decode 0x72000000#32 = .ok (.egStep 2#4) ∧
  decode 0x80000000#32 = .ok .peInit ∧
  decode 0x90000000#32 = .ok .peStep ∧
  decode 0xA0000000#32 = .ok .peStop

/-- Decoding the encoding of a well-formed command gives the command back. -/
def Obligations.DecodeInvertsEncode : Prop :=
  ∀ i : Instr, i.wf = true → decode (encode i) = .ok i

/-- A word that decodes is the encoding of the well-formed command it decodes to: no two words are one
command and no bit of a legal word is ignored. -/
def Obligations.EncodeInvertsDecode : Prop :=
  ∀ (w : CmdWord) (i : Instr), decode w = .ok i → encode i = w ∧ i.wf = true

/-- R86: which words are illegal, and what the machine answers to one: no state change of the voices or
memories, `rdata = 0`, the accumulator passed through, `term` as R80, `diag = 5`. -/
def Obligations.IllegalWordsAnswered : Prop :=
  (∀ w : CmdWord,
    (∃ e, decode w = .error e) ↔
      ((w.extractLsb' 28 4 = 0x3#4 ∨ 0xB#4 ≤ w.extractLsb' 28 4) ∨
       w.extractLsb' 0 16 ≠ 0#16 ∨
       ((w.extractLsb' 28 4 = 0x0#4 ∨ w.extractLsb' 28 4 = 0x8#4 ∨ w.extractLsb' 28 4 = 0x9#4 ∨
          w.extractLsb' 28 4 = 0xA#4) ∧
        (w.extractLsb' 24 4 ≠ 0#4 ∨ w.extractLsb' 16 8 ≠ 0#8)) ∨
       ((0x4#4 ≤ w.extractLsb' 28 4 ∧ w.extractLsb' 28 4 ≤ 0x7#4) ∧
        (2#4 < w.extractLsb' 24 4 ∨ w.extractLsb' 16 8 ≠ 0#8)))) ∧
  (∀ (s : State) (t : Transfer) (rest : List Transfer) (v : Voice) (e : IllegalWord),
    s.pending = t :: rest → decode t.cmd = .error e → s.voices[t.bus.voice]? = some v →
    ∃ s', step s = .next s' ∧
      s'.voices = s.voices ∧ s'.wave = s.wave ∧ s'.srec = s.srec ∧ s'.pending = rest ∧ s'.bus = t.bus ∧
      s'.answer = { rdata := 0#64, mixL := t.bus.mixL, mixR := t.bus.mixR,
                    term := v.ps.term || v.ps.err, diag := .illegalCmd } ∧
      s'.answer.diag.code = 5#4)

/-- A step takes the oldest pending transfer, presents its operand ports and runs the command its word
decodes to; with nothing pending the machine holds its state. -/
def Obligations.StepRunsDecodedCommand : Prop :=
  (∀ (s : State) (t : Transfer) (rest : List Transfer) (i : Instr),
    s.pending = t :: rest → decode t.cmd = .ok i →
    step s = exec i { s with pending := rest, bus := t.bus }) ∧
  (∀ s : State, s.pending = [] → step s = .next s)

/-- A well-formed command placed by `withFetchWord` is what the very next step runs, on the state it was
placed in. The queue and the way a command comes to it are the model's choice (log 1, log 3). -/
def Obligations.PlacedCommandRunsNext : Prop :=
  ∀ (s : State) (i : Instr), i.wf = true →
    step (s.withFetchWord 32 (encode i).toNat) = exec i s

/-! ### Register access (R21, R22, R100..R103) -/

/-- R100: the word 0 is `NOP`, and `NOP` changes no state and answers `rdata = 0`, the accumulator passed
through, `term = PE.TERM | PE.ERR`, `diag = 0`. -/
def Obligations.NopOnlyAnswers : Prop :=
  decode 0#32 = .ok .nop ∧
  ∀ (s : State) (v : Voice), s.addressed = some v →
    exec .nop s = .next { s with
      answer := { rdata := 0#64, mixL := s.bus.mixL, mixR := s.bus.mixR,
                  term := v.ps.term || v.ps.err, diag := .none } }

/-- `WR` of an RW register completes; the register then reads as the low N bits of `wdata`, extended as its
kind says, and every other register reads as before (R22, R101). Other voices and both memories are
untouched. -/
def Obligations.WriteStoresLowBits : Prop :=
  ∀ (s : State) (v : Voice) (bank : BitVec 4) (reg : BitVec 8) (r : Reg),
    s.addressed = some v → regAt v.bp.length bank reg = some r → r.access = .rw →
    ∃ v' : Voice,
      exec (.wr bank reg) s = .next (s.answeredThrough v' 0#64 .none) ∧
      r.read v' = (if r.signed then sext64 (lowBits r.width s.bus.wdata)
                   else zext64 (lowBits r.width s.bus.wdata)) ∧
      (∀ r' : Reg, r' ≠ r → r'.read v' = r'.read v) ∧
      v'.bp.length = v.bp.length

/-- `RD` of a register of either access class completes, changes no state, and answers the register's value:
`zext_64` of an unsigned register, `sext_64` of a signed one (R22, R102). -/
def Obligations.ReadAnswersRegister : Prop :=
  (∀ (s : State) (v : Voice) (bank : BitVec 4) (reg : BitVec 8) (r : Reg),
    s.addressed = some v → regAt v.bp.length bank reg = some r →
    exec (.rd bank reg) s = .next { s with
      answer := { rdata := r.read v, mixL := s.bus.mixL, mixR := s.bus.mixR,
                  term := v.ps.term || v.ps.err, diag := .none } }) ∧
  (∀ (r : Reg) (v : Voice),
    r.read v = (if r.signed then sext64 (lowBits r.width (r.read v))
                else zext64 (lowBits r.width (r.read v))))

/-- R103: which `(bank, reg)` hold no register, which registers are RO, and that a `WR` to either, or an
`RD` of none, changes no state and answers `rdata = 0`, `diag = 4`. The table of bank 9 has `CFG.N_BP` entries
in every state of the invariant. -/
def Obligations.BadRegisterAccess : Prop :=
  (∀ (n : Nat) (bank : BitVec 4) (reg : BitVec 8),
    regAt n bank reg = none ↔
      ((3 ≤ bank.toNat ∧ bank.toNat ≤ 7) ∨ 11 ≤ bank.toNat ∨
       (bank.toNat ≤ 2 ∧
        ¬ (reg.toNat ≤ 0x04 ∨ (0x08 ≤ reg.toNat ∧ reg.toNat ≤ 0x0C) ∨
           (0x10 ≤ reg.toNat ∧ reg.toNat ≤ 0x14) ∨ (0x18 ≤ reg.toNat ∧ reg.toNat ≤ 0x1B) ∨
           (0x20 ≤ reg.toNat ∧ reg.toNat ≤ 0x25))) ∨
       (bank.toNat = 8 ∧
        ¬ (reg.toNat ≤ 0x0A ∨ (0x10 ≤ reg.toNat ∧ reg.toNat ≤ 0x12) ∨
           (0x20 ≤ reg.toNat ∧ reg.toNat ≤ 0x2B) ∨ (0x30 ≤ reg.toNat ∧ reg.toNat ≤ 0x33))) ∨
       (bank.toNat = 9 ∧ 2 * n ≤ reg.toNat) ∨
       (bank.toNat = 10 ∧ ¬ (reg.toNat ≤ 0x0E ∨ (0x10 ≤ reg.toNat ∧ reg.toNat ≤ 0x17))))) ∧
  (∀ (n : Nat) (bank : BitVec 4) (reg : BitVec 8) (r : Reg), regAt n bank reg = some r →
    (r.access = .ro ↔
      ((bank.toNat ≤ 2 ∧ 0x20 ≤ reg.toNat ∧ reg.toNat ≤ 0x25) ∨ bank.toNat = 10))) ∧
  (∀ (s : State) (v : Voice) (bank : BitVec 4) (reg : BitVec 8),
    s.addressed = some v →
    (∀ r, regAt v.bp.length bank reg = some r → r.access = .ro) →
    exec (.wr bank reg) s = .next { s with
      answer := { rdata := 0#64, mixL := s.bus.mixL, mixR := s.bus.mixR,
                  term := v.ps.term || v.ps.err, diag := .badReg } }) ∧
  (∀ (s : State) (v : Voice) (bank : BitVec 4) (reg : BitVec 8),
    s.addressed = some v → regAt v.bp.length bank reg = none →
    exec (.rd bank reg) s = .next { s with
      answer := { rdata := 0#64, mixL := s.bus.mixL, mixR := s.bus.mixR,
                  term := v.ps.term || v.ps.err, diag := .badReg } }) ∧
  (∀ (s : State) (v : Voice), s.Inv → s.addressed = some v → v.bp.length = Config.cfg.nBp) ∧
  Diag.badReg.code = 4#4

/-- The register map and the registers' own numbers agree in both directions: no register has two numbers
and no number names two registers, the break-point table of at most 128 entries included (R21, R42). -/
def Obligations.RegisterMapIsOneToOne : Prop :=
  (∀ (n : Nat) (bank : BitVec 4) (reg : BitVec 8) (r : Reg),
    regAt n bank reg = some r → r.address = (bank, reg)) ∧
  (∀ (n : Nat) (r : Reg), n ≤ 128 →
    (∀ i, (r = .bpKey i ∨ r = .bpSmp i) → i < n) →
    regAt n r.address.1 r.address.2 = some r)

/-! ### Envelope commands (R112..R125) -/

/-- R112: the word `0x4e000000` is `EG.INIT e`, and it puts the runtime registers of envelope e at their reset
values and changes nothing else. -/
def Obligations.EgInitResetsRuntime : Prop :=
  (∀ k : Fin 3, decode (BitVec.ofNat 32 (0x40000000 + k.val * 0x1000000)) = .ok (.egInit (egBank k))) ∧
  (∀ (s : State) (v : Voice) (k : Fin 3), s.addressed = some v →
    exec (.egInit (egBank k)) s = .next (s.answeredThrough
      (v.setEg k
        { conf := (v.getEg k).conf
          run := { phase := .off, cnt := 0#32, len := 0#32, entry := F64.zero, cur := F64.zero, fin := false } })
      0#64 .none))

/-- R113: the word `0x5e000000` is `EG.START e`: from Off the envelope enters Attack with `ENTRY = CUR`,
`CNT = 0` and the length of Attack; from any other phase nothing changes and `diag = 3` (R116 for Attack). -/
def Obligations.EgStartEntersAttack : Prop :=
  (∀ k : Fin 3, decode (BitVec.ofNat 32 (0x50000000 + k.val * 0x1000000)) = .ok (.egStart (egBank k))) ∧
  (∀ (s : State) (v : Voice) (k : Fin 3), s.addressed = some v → (v.getEg k).run.phase = .off →
    exec (.egStart (egBank k)) s = .next (s.answeredThrough
      (v.setEg k
        { conf := (v.getEg k).conf
          run := { phase := .ramp .attack, cnt := 0#32,
                   len := phaseLength Config.cfg v.pe.sampleRate (v.getEg k).conf .attack,
                   entry := (v.getEg k).run.cur, cur := (v.getEg k).run.cur, fin := (v.getEg k).run.fin } })
      0#64 .none)) ∧
  (∀ (s : State) (v : Voice) (k : Fin 3), s.addressed = some v → (v.getEg k).run.phase ≠ .off →
    exec (.egStart (egBank k)) s = .next { s with
      answer := { rdata := 0#64, mixL := s.bus.mixL, mixR := s.bus.mixR,
                  term := v.ps.term || v.ps.err, diag := .egBadStart } }) ∧
  Diag.egBadStart.code = 3#4

/-- R114: the word `0x6e000000` is `EG.RELEASE e`: from every phase but Release the envelope enters Release
with `ENTRY = CUR`, `CNT = 0` and the length of Release; in Release nothing is written, whether or not `FIN` is
set (R116 for Release). -/
def Obligations.EgReleaseEntersRelease : Prop :=
  (∀ k : Fin 3, decode (BitVec.ofNat 32 (0x60000000 + k.val * 0x1000000)) = .ok (.egRelease (egBank k))) ∧
  (∀ (s : State) (v : Voice) (k : Fin 3), s.addressed = some v →
    (v.getEg k).run.phase ≠ .ramp .release →
    exec (.egRelease (egBank k)) s = .next (s.answeredThrough
      (v.setEg k
        { conf := (v.getEg k).conf
          run := { phase := .ramp .release, cnt := 0#32,
                   len := phaseLength Config.cfg v.pe.sampleRate (v.getEg k).conf .release,
                   entry := (v.getEg k).run.cur, cur := (v.getEg k).run.cur, fin := (v.getEg k).run.fin } })
      0#64 .none)) ∧
  (∀ (s : State) (v : Voice) (k : Fin 3), s.addressed = some v →
    (v.getEg k).run.phase = .ramp .release →
    exec (.egRelease (egBank k)) s = .next { s with
      answer := { rdata := 0#64, mixL := s.bus.mixL, mixR := s.bus.mixR,
                  term := v.ps.term || v.ps.err, diag := .none } })

/-- `EG.STEP e` in Off reports EG_OFF_CALL, returns +0.0 and changes no state; with `FIN = 1` it returns +0.0
and changes no state (R118). -/
def Obligations.EgStepOffOrFinished : Prop :=
  (∀ (s : State) (v : Voice) (k : Fin 3), s.addressed = some v → (v.getEg k).run.phase = .off →
    exec (.egStep (egBank k)) s = .next { s with
      answer := { rdata := 0#64, mixL := s.bus.mixL, mixR := s.bus.mixR,
                  term := v.ps.term || v.ps.err, diag := .egOffCall } }) ∧
  (∀ (s : State) (v : Voice) (k : Fin 3), s.addressed = some v → (v.getEg k).run.phase ≠ .off →
    (v.getEg k).run.fin = true →
    exec (.egStep (egBank k)) s = .next { s with
      answer := { rdata := 0#64, mixL := s.bus.mixL, mixR := s.bus.mixR,
                  term := v.ps.term || v.ps.err, diag := .none } }) ∧
  Diag.egOffCall.code = 1#4

/-- `EG.STEP e` inside a ramp (`CNT <= LEN`): the target for a zero length, else the linear or logarithmic
blend of `ENTRY` and the target by the progress `CNT / LEN`; the value goes to `CUR` and `rdata`, `CNT` rises
by one up to 2^32 - 1, and nothing else changes (R120, R121, R122, R124). -/
def Obligations.EgStepInsideRamp : Prop :=
  ∀ (s : State) (v : Voice) (k : Fin 3) (r : Ramp), s.addressed = some v →
    (v.getEg k).run.phase = .ramp r → (v.getEg k).run.fin = false →
    (v.getEg k).run.cnt.toNat ≤ (v.getEg k).run.len.toNat →
    let g := v.getEg k
    let tg := g.conf.tgt[r.index]
    let prog := F64.div (F64.ofInt g.run.cnt.toNat) (F64.ofInt g.run.len.toNat)
    let prog' := F64.div
      (Num.ln Config.cfg (F64.add (F64.mul (F64.lit 10 1) prog) (F64.lit 1 1)))
      (Num.ln Config.cfg (F64.lit 11 1))
    let x :=
      if g.run.len = 0#32 then tg
      else if g.conf.shp[r.index] = 0#1 then F64.add g.run.entry (F64.mul (F64.sub tg g.run.entry) prog)
      else F64.add g.run.entry (F64.mul (F64.sub tg g.run.entry) prog')
    exec (.egStep (egBank k)) s = .next (s.answeredThrough
      (v.setEg k
        { conf := g.conf
          run := { phase := .ramp r, cnt := BitVec.ofNat 32 (min (g.run.cnt.toNat + 1) (2 ^ 32 - 1)),
                   len := g.run.len, entry := g.run.entry, cur := x, fin := false } })
      x .none)

/-- `EG.STEP e` that finds `CNT > LEN` in Attack, Hold, Decay, or in Sustain with a target equal to 0: the next
ramp is entered (`ENTRY` is the last value, `LEN` the new ramp's length) and the call already returns that
ramp's first value, with `CNT` 1 (R116, R117, R118). -/
def Obligations.EgStepEntersNextRamp : Prop :=
  ∀ (s : State) (v : Voice) (k : Fin 3) (r r' : Ramp), s.addressed = some v →
    (v.getEg k).run.phase = .ramp r → (v.getEg k).run.fin = false →
    (v.getEg k).run.len.toNat < (v.getEg k).run.cnt.toNat →
    ((r = .attack ∧ r' = .hold) ∨ (r = .hold ∧ r' = .decay) ∨ (r = .decay ∧ r' = .sustain) ∨
     (r = .sustain ∧ r' = .release ∧ F64.eq (v.getEg k).conf.tgt[3] F64.zero = true)) →
    let g := v.getEg k
    let entered : EgRun :=
      { phase := .ramp r', cnt := 0#32, len := phaseLength Config.cfg v.pe.sampleRate g.conf r',
        entry := g.run.cur, cur := g.run.cur, fin := false }
    let x := egValue Config.cfg { conf := g.conf, run := entered } r'
    exec (.egStep (egBank k)) s = .next (s.answeredThrough
      (v.setEg k { conf := g.conf, run := { entered with cnt := 1#32, cur := x } }) x .none)

/-- R125: Sustain with a target not equal to 0 whose timer has elapsed: `CNT` rises (up to 2^32 - 1), nothing
else is written, and `EG.STEP` returns `CUR` unchanged. -/
def Obligations.EgStepHoldsSustain : Prop :=
  ∀ (s : State) (v : Voice) (k : Fin 3), s.addressed = some v →
    (v.getEg k).run.phase = .ramp .sustain → (v.getEg k).run.fin = false →
    (v.getEg k).run.len.toNat < (v.getEg k).run.cnt.toNat →
    F64.eq (v.getEg k).conf.tgt[3] F64.zero = false →
    exec (.egStep (egBank k)) s = .next (s.answeredThrough
      (v.setEg k
        { v.getEg k with
          run := { (v.getEg k).run with
                   cnt := BitVec.ofNat 32 (min ((v.getEg k).run.cnt.toNat + 1) (2 ^ 32 - 1)) } })
      (v.getEg k).run.cur .none)

/-- R123: the `EG.STEP` that finds Release past its length sets `FIN`, clears `CUR` and returns +0.0, writing
nothing else; on a finished envelope `EG.STEP` returns +0.0 and writes nothing, `EG.RELEASE` is a no-op and
`EG.START` is a no-op with EG_BAD_START. -/
def Obligations.EgStepFinishesRelease : Prop :=
  (∀ (s : State) (v : Voice) (k : Fin 3), s.addressed = some v →
    (v.getEg k).run.phase = .ramp .release → (v.getEg k).run.fin = false →
    (v.getEg k).run.len.toNat < (v.getEg k).run.cnt.toNat →
    exec (.egStep (egBank k)) s = .next (s.answeredThrough
      (v.setEg k { v.getEg k with run := { (v.getEg k).run with fin := true, cur := F64.zero } })
      0#64 .none)) ∧
  (∀ (s : State) (v : Voice) (k : Fin 3), s.addressed = some v →
    (v.getEg k).run.phase = .ramp .release → (v.getEg k).run.fin = true →
    exec (.egStep (egBank k)) s = .next (s.answeredThrough v 0#64 .none) ∧
    exec (.egRelease (egBank k)) s = .next (s.answeredThrough v 0#64 .none) ∧
    exec (.egStart (egBank k)) s = .next (s.answeredThrough v 0#64 .egBadStart))

/-- The phase length formula of R119 in f64, in the order given, stored where its rounding fits the u32
`LEN`. (Where it does not, or the product is not finite, the length is a free value: log 10.) -/
def Obligations.PhaseLengthFormula : Prop :=
  ∀ (rate : F64) (k : EgConfig) (r : Ramp),
    let off : Int :=
      match r with
      | .attack => (k.ctlA.toNat : Int) - 64
      | .hold => 0
      | .decay => (k.ctlD.toNat : Int) - 64
      | .sustain => 0
      | .release => (k.ctlR.toNat : Int) - 64
    let d : Int := max 0 (min 127 ((k.dur[r.index].toNat : Int) + off))
    let t := F64.sub
      (F64.div (Num.pow2 Config.cfg (F64.div (F64.ofInt d) (F64.lit 18 1))) (F64.lit 545 100))
      (F64.lit 183 1000)
    let t' := if 0 ≤ k.key.toInt then
        F64.mul t (F64.sub (F64.lit 1 1) (F64.div (F64.ofInt k.key.toInt) (F64.lit 128 1)))
      else t
    F64.isFinite (F64.mul t' rate) = true →
    0 ≤ F64.rha (F64.mul t' rate) → F64.rha (F64.mul t' rate) < 2 ^ 32 →
    ((phaseLength Config.cfg rate k r).toNat : Int) = F64.rha (F64.mul t' rate)

/-- R111: all phase transitions, and nothing else changes `PHASE`: Off by `EG.INIT` or `PE.INIT`; Off to Attack
by `EG.START` or `PE.INIT`; a natural transition, only by `EG.STEP` or `PE.STEP` that finds `CNT > LEN`;
Release by `EG.RELEASE` or `PE.STOP`. -/
def Obligations.PhaseTransitionsAreTheTable : Prop :=
  ∀ (i : Instr) (s t : State) (n : Nat) (v v' : Voice) (k : Fin 3),
    exec i s = .next t → s.voices[n]? = some v → t.voices[n]? = some v' →
    let g := v.getEg k
    let g' := v'.getEg k
    g'.run.phase = g.run.phase ∨
    (g'.run.phase = .off ∧ (i = .egInit (egBank k) ∨ i = .peInit)) ∨
    (g.run.phase = .off ∧ g'.run.phase = .ramp .attack ∧ i = .egStart (egBank k)) ∨
    (g'.run.phase = .ramp .attack ∧ i = .peInit) ∨
    ((i = .egStep (egBank k) ∨ i = .peStep) ∧ g.run.len.toNat < g.run.cnt.toNat ∧
      ((g.run.phase = .ramp .attack ∧ g'.run.phase = .ramp .hold) ∨
       (g.run.phase = .ramp .hold ∧ g'.run.phase = .ramp .decay) ∨
       (g.run.phase = .ramp .decay ∧ g'.run.phase = .ramp .sustain) ∨
       (g.run.phase = .ramp .sustain ∧ g'.run.phase = .ramp .release ∧
        F64.eq g.conf.tgt[3] F64.zero = true))) ∨
    (g.run.phase ≠ .ramp .release ∧ g'.run.phase = .ramp .release ∧
      (i = .egRelease (egBank k) ∨ i = .peStop))

/-- I3: `FIN` never goes back from 1 to 0 except by `EG.INIT` of that envelope or `PE.INIT`. -/
def Obligations.FinishedNeverReverts : Prop :=
  ∀ (i : Instr) (s t : State) (n : Nat) (v v' : Voice) (k : Fin 3),
    exec i s = .next t → s.voices[n]? = some v → t.voices[n]? = some v' →
    i ≠ .egInit (egBank k) → i ≠ .peInit →
    (v.getEg k).run.fin = true → (v'.getEg k).run.fin = true

/-- R128: an envelope command depends on that envelope and `PE.SAMPLE_RATE` alone, and changes that envelope
alone: two voices that agree on them answer alike and leave the envelope alike, and every other envelope and
bank stays as it was. -/
def Obligations.EnvelopeCommandsAreLocal : Prop :=
  ∀ (k : Fin 3) (i : Instr) (s1 s2 t1 t2 : State) (v1 v2 v1' v2' : Voice),
    (i = .egInit (egBank k) ∨ i = .egStart (egBank k) ∨ i = .egRelease (egBank k) ∨
      i = .egStep (egBank k)) →
    s1.addressed = some v1 → s2.addressed = some v2 →
    v1.getEg k = v2.getEg k → v1.pe.sampleRate = v2.pe.sampleRate →
    exec i s1 = .next t1 → exec i s2 = .next t2 →
    t1.addressed = some v1' → t2.addressed = some v2' →
    v1'.getEg k = v2'.getEg k ∧ t1.answer.rdata = t2.answer.rdata ∧ t1.answer.diag = t2.answer.diag ∧
    (∀ k', k' ≠ k → v1'.getEg k' = v1.getEg k') ∧
    v1'.pe = v1.pe ∧ v1'.bp = v1.bp ∧ v1'.ps = v1.ps

/-- S1, R127(a): for a fixed key, and any monotone `pow2` (P4 of R12), the seconds of a phase do not fall as
the duration input rises through 0..127. -/
def Obligations.SecondsNeverFallWithDuration : Prop :=
  ∀ p2 : F64 → F64, (∀ x y, F64.le x y = true → F64.le (p2 x) (p2 y) = true) →
    ∀ d1 d2 key : Int, 0 ≤ d1 → d1 ≤ d2 → d2 ≤ 127 → -128 ≤ key → key ≤ 127 →
      F64.le (phaseSeconds p2 d1 key) (phaseSeconds p2 d2 key) = true

/-- S2, R127(b): for a fixed duration input and keys from 0, and any monotone `pow2` with `pow2(0.0) = 1.0` (P1
and P4 of R12), the seconds of a phase do not rise as the key rises. -/
def Obligations.SecondsNeverRiseWithKey : Prop :=
  ∀ p2 : F64 → F64, (∀ x y, F64.le x y = true → F64.le (p2 x) (p2 y) = true) →
    p2 F64.zero = F64.lit 1 1 →
    ∀ d k1 k2 : Int, 0 ≤ d → d ≤ 127 → 0 ≤ k1 → k1 ≤ k2 → k2 ≤ 127 →
      F64.le (phaseSeconds p2 d k2) (phaseSeconds p2 d k1) = true

/-- R127(d), first half: "At the first sample of any ramping phase, output equals the phase's entry value",
for a phase of non-zero length whose entry value and span are finite, in either shape. -/
def Obligations.FirstValueIsEntry : Prop :=
  ∀ (c : Cfg) (g : Envelope) (r : Ramp),
    g.run.cnt = 0#32 → g.run.len ≠ 0#32 →
    F64.isFinite g.run.entry = true → F64.isFinite (F64.sub g.conf.tgt[r.index] g.run.entry) = true →
    F64.eq (egValue c g r) g.run.entry = true

/-- At `CNT = LEN` the progress is exactly 1, so the value is `ENTRY + (tg - ENTRY)` in either shape, "equal to
`tg` up to one rounding" (R121), for a phase of non-zero length whose span is finite (R127(d), second half). -/
def Obligations.ValueAtFullProgress : Prop :=
  ∀ (c : Cfg) (g : Envelope) (r : Ramp),
    g.run.cnt = g.run.len → g.run.len ≠ 0#32 →
    F64.isFinite (F64.sub g.conf.tgt[r.index] g.run.entry) = true →
    egValue c g r = F64.add g.run.entry (F64.sub g.conf.tgt[r.index] g.run.entry)

/-! ### Partial construction (R140..R152) -/

/-- R142: the key shift is the coarse shift, plus the master and part shifts unless the voice is a drum of a
generation without drum key shift; it is in -384..381, so the s16 `KEYSHIFT` holds it exactly. -/
def Obligations.KeyShiftRule : Prop :=
  ∀ k : PeConfig,
    keyShift k =
      (if k.flags.getLsbD 0 = false ∨ k.flags.getLsbD 1 = true then
        k.ksCoarse.toInt + k.ksMaster.toInt + k.ksPart.toInt
       else k.ksCoarse.toInt) ∧
    -384 ≤ keyShift k ∧ keyShift k ≤ 381 ∧ (BitVec.ofInt 16 (keyShift k)).toInt = keyShift k

/-- R143: the entry selected is the first whose key is at least the adjusted key or is the sentinel; none
exactly when no entry accepts. -/
def Obligations.BreakpointIsFirstMatch : Prop :=
  ∀ (c : Cfg) (ak : Int) (bp : List BpEntry),
    (∀ b, selectBreakpoint c ak bp = some b ↔
      ∃ i : Nat, bp[i]? = some b ∧ (ak ≤ (b.key.toNat : Int) ∨ b.key = c.bpSentinel) ∧
        ∀ j b', j < i → bp[j]? = some b' → ¬ (ak ≤ (b'.key.toNat : Int) ∨ b'.key = c.bpSentinel)) ∧
    (selectBreakpoint c ak bp = none ↔
      ∀ b ∈ bp, ¬ (ak ≤ (b.key.toNat : Int) ∨ b.key = c.bpSentinel))

/-- `PE.INIT` on a key whose break-point resolves to a backed record of sound geometry: bank 10 at reset values
but for what construction latches, the three envelopes restarted in Attack from +0.0, `diag = 0`; no
configuration register, memory or other voice changes (R140, R141, R147, R150, R152). -/
def Obligations.PeInitConstructs : Prop :=
  ∀ (s : State) (v : Voice) (b : BpEntry) (r : SampleRecord) (m : LoopMode),
    s.addressed = some v →
    selectBreakpoint Config.cfg ((v.pe.key.toNat : Int) + keyShift v.pe) v.bp = some b →
    b.smp ≠ Config.cfg.smpUnset →
    Memory.read s.srec b.smp.toNat = some r →
    1 ≤ r.sampleLen.toNat → r.sampleLen.toNat ≤ 2 ^ 31 - 1 → r.loopLen.toNat ≤ r.sampleLen.toNat - 1 →
    m.code = r.loopMode →
    let kd : Int :=
      (if v.pe.flags.getLsbD 0 then (v.pe.playKey.toNat : Int)
       else if Config.cfg.keydiffShift then (v.pe.key.toNat : Int) + keyShift v.pe
       else (v.pe.key.toNat : Int)) - (r.rootKey.toNat : Int)
    let kc := F64.mul (F64.mul (F64.ofInt kd) (F64.lit 100 1)) v.pe.kfMult
    let cents := F64.add (F64.add (F64.add v.pe.pCoarseCents v.pe.pFineCents) kc) r.fineCents
    let ratio := F64.mul
      (Num.exp Config.cfg (F64.div (F64.mul cents 0x3FE62E42FEFA39EF#64) (F64.lit 1200 1)))
      (F64.div v.pe.nativeRate v.pe.sampleRate)
    let ps : PeRun :=
      { pos := F64.zero, dir := false, idx := BitVec.ofInt 32 (-1), smp := F64.zero, term := false,
        err := false, static := ratio, smpIndex := b.smp, keyshift := BitVec.ofInt 16 (keyShift v.pe),
        keydiff := BitVec.ofInt 16 kd, endIdx := BitVec.ofNat 32 (r.sampleLen.toNat - 1),
        lstart := BitVec.ofNat 32 (r.sampleLen.toNat - r.loopLen.toNat - 1), lmode := m, base := r.base,
        svol := r.volume,
        f1 := { x1 := F64.zero, x2 := F64.zero, y1 := F64.zero, y2 := F64.zero },
        f2 := { x1 := F64.zero, x2 := F64.zero, y1 := F64.zero, y2 := F64.zero } }
    let started := fun g : Envelope =>
      { conf := g.conf
        run := { phase := .ramp .attack, cnt := 0#32,
                 len := phaseLength Config.cfg v.pe.sampleRate g.conf .attack,
                 entry := F64.zero, cur := F64.zero, fin := false } : Envelope }
    exec .peInit s = .next (s.answeredThrough { v with eg := v.eg.map started, ps := ps } 0#64 .none)

/-- A failed `PE.INIT`: no break-point accepts or the entry is unset (`diag = 2`), or the record's geometry is
impossible (`diag = 7`). `ERR` is set, `KEYSHIFT` (and with 7 `SMP_INDEX`) is written, everything else of
bank 10 is at its reset value and the envelopes are Off; the answer has `term = 1` (R140, R144, R146). -/
def Obligations.PeInitFailures : Prop :=
  (∀ (s : State) (v : Voice), s.addressed = some v →
    (∀ b, selectBreakpoint Config.cfg ((v.pe.key.toNat : Int) + keyShift v.pe) v.bp = some b →
      b.smp = Config.cfg.smpUnset) →
    exec .peInit s = .next (s.answeredThrough
      { v with
        eg := v.eg.map fun g => { conf := g.conf, run := EgRun.reset }
        ps := { PeRun.reset with keyshift := BitVec.ofInt 16 (keyShift v.pe), err := true } }
      0#64 .peSampleUnset)) ∧
  (∀ (s : State) (v : Voice) (b : BpEntry) (r : SampleRecord), s.addressed = some v →
    selectBreakpoint Config.cfg ((v.pe.key.toNat : Int) + keyShift v.pe) v.bp = some b →
    b.smp ≠ Config.cfg.smpUnset → Memory.read s.srec b.smp.toNat = some r →
    (r.sampleLen.toNat = 0 ∨ 2 ^ 31 - 1 < r.sampleLen.toNat ∨ r.sampleLen.toNat ≤ r.loopLen.toNat ∨
      r.loopMode = 3#2) →
    exec .peInit s = .next (s.answeredThrough
      { v with
        eg := v.eg.map fun g => { conf := g.conf, run := EgRun.reset }
        ps := { PeRun.reset with
                keyshift := BitVec.ofInt 16 (keyShift v.pe), smpIndex := b.smp, err := true } }
      0#64 .peBadSample)) ∧
  Diag.peSampleUnset.code = 2#4 ∧ Diag.peBadSample.code = 7#4

/-- `PE.INIT` of an index the platform has no record for stops: "has no defined result (model: refuse)"
(R63). -/
def Obligations.PeInitStopsOnUnbackedRecord : Prop :=
  ∀ (s : State) (v : Voice) (b : BpEntry), s.addressed = some v →
    selectBreakpoint Config.cfg ((v.pe.key.toNat : Int) + keyShift v.pe) v.bp = some b →
    b.smp ≠ Config.cfg.smpUnset → Memory.read s.srec b.smp.toNat = none →
    exec .peInit s = .refused .srecUnbacked

/-! ### The per-sample operation (R160..R184) -/

/-- `PE.STEP` that sounds nothing: with `ERR = 1` it reports PE_UNUSABLE and changes no state; with `TERM = 1`
it is inert; with `EG[2].FIN = 1` it sets `TERM` and nothing else. The accumulator passes through, `term = 1`
(R160, R161). -/
def Obligations.PeStepGuards : Prop :=
  (∀ (s : State) (v : Voice), s.addressed = some v → v.ps.err = true →
    exec .peStep s = .next { s with
      answer := { rdata := 0#64, mixL := s.bus.mixL, mixR := s.bus.mixR, term := true,
                  diag := .peUnusable } }) ∧
  (∀ (s : State) (v : Voice), s.addressed = some v → v.ps.err = false → v.ps.term = true →
    exec .peStep s = .next { s with
      answer := { rdata := 0#64, mixL := s.bus.mixL, mixR := s.bus.mixR, term := true,
                  diag := .none } }) ∧
  (∀ (s : State) (v : Voice), s.addressed = some v → v.ps.err = false → v.ps.term = false →
    (v.getEg 2).run.fin = true →
    exec .peStep s = .next (s.answeredThrough { v with ps := { v.ps with term := true } } 0#64 .none)) ∧
  Diag.peUnusable.code = 6#4

/-- The output of one frame: the three envelopes are stepped, the multiplier is the product of R163 in its
order, the cursor moves, and where it did not terminate the partial the sample times the gain of R178, panned
by R181, is added to the accumulator (R160, R162, R163, R178, R181, R182). -/
def Obligations.PeStepAddsFrame : Prop :=
  ∀ (s : State) (v : Voice) (p : PeRun), s.addressed = some v →
    v.ps.err = false → v.ps.term = false → (v.getEg 2).run.fin = false →
    let r0 := egStep Config.cfg v.pe.sampleRate (v.getEg 0)
    let r1 := egStep Config.cfg v.pe.sampleRate (v.getEg 1)
    let r2 := egStep Config.cfg v.pe.sampleRate (v.getEg 2)
    let m := F64.mul (F64.mul (F64.mul (F64.mul (F64.mul v.pe.rFinetune v.pe.rTune)
        (v.pe.rScale[v.pe.key.toNat % 12]'(Nat.mod_lt _ (by decide)))) v.pe.rBend) v.ps.static)
      (Config.cfg.pitchEnvRatio r0.value)
    let volOf := fun x : BitVec 7 => F64.sub (F64.mul (F64.lit 1 10)
      (Num.pow2 Config.cfg (F64.div (F64.ofInt x.toNat) (F64.lit 367111 10000)))) (F64.lit 1 10)
    let g0 := F64.mul (volOf p.svol) (volOf v.pe.volPartial)
    let g1 := if v.pe.flags.getLsbD 0 then F64.mul g0 (volOf v.pe.volDrum) else g0
    let g := F64.mul (F64.mul g1 (F64.div (F64.ofInt v.pe.ampCtl.toNat) (F64.lit 64 1))) r2.value
    let x := F64.mul p.smp g
    let pan0 := F64.div (F64.sub (F64.ofInt v.pe.pan.toNat) (F64.lit 64 1)) (F64.lit 63 1)
    let pan := if F64.lt pan0 0xBFF0000000000000#64 then 0xBFF0000000000000#64 else pan0
    let l := if F64.lt F64.zero pan then F64.mul x (F64.sub (F64.lit 1 1) pan) else x
    let r := if F64.lt pan F64.zero then F64.mul x (F64.add (F64.lit 1 1) pan) else x
    let d := if r0.diag ≠ .none then r0.diag else if r1.diag ≠ .none then r1.diag else r2.diag
    moveCursor Config.cfg s.wave m v.ps = .ok p → p.term = false →
    exec .peStep s = .next (s.answered
      { v with eg := ((v.eg.set 0 r0.eg).set 1 r1.eg).set 2 r2.eg, ps := p } 0#64 d
      (F64.add s.bus.mixL l) (F64.add s.bus.mixR r))

/-- R171: a forward-stop partial that crosses the end of its sample terminates in that very `PE.STEP` and adds
nothing; the envelopes were already stepped and the samples up to the boundary already fed. Stated for every
configuration; `exec` runs the pseudocode with the machine's own. -/
def Obligations.ForwardStopTerminatesAtEnd : Prop :=
  (∀ (c : Cfg) (wave : Memory F64) (b : Bus) (v : Voice) (p : PeRun),
    v.ps.err = false → v.ps.term = false → (v.getEg 2).run.fin = false →
    v.ps.dir = false → v.ps.lmode = .forwardStop →
    let r0 := egStep c v.pe.sampleRate (v.getEg 0)
    let r1 := egStep c v.pe.sampleRate (v.getEg 1)
    let r2 := egStep c v.pe.sampleRate (v.getEg 2)
    let m := multiplier c v.pe v.ps.static r0.value
    catchUpForward c wave { v.ps with pos := F64.add v.ps.pos m } = .ok p →
    F64.lt (F64.ofInt p.endIdx.toInt) p.pos = true →
    peStep c wave b v = .ok
      { voice :=
          { v with
            eg := ((v.eg.set 0 r0.eg).set 1 r1.eg).set 2 r2.eg
            ps := { p with term := true } }
        rdata := 0#64
        diag := if r0.diag ≠ .none then r0.diag else if r1.diag ≠ .none then r1.diag else r2.diag
        mixL := b.mixL
        mixR := b.mixR }) ∧
  (∀ (s : State) (v : Voice) (r : Reply), s.addressed = some v →
    peStep Config.cfg s.wave s.bus v = .ok r →
    exec .peStep s = .next (s.answered r.voice r.rdata r.diag r.mixL r.mixR))

/-- The loop boundary rules: past `E` a forward loop moves the position to `LS + (POS - E)` and `IDX` to `LS`
(R169); a forward-backward loop mirrors it to `E - (POS - E)` and turns backward (R170); forward-stop sets
`TERM`; past `LS` on the way back it is mirrored to `LS + (LS - POS)` and turns forward (R173). After a wrap or
a turn the catch-up runs once more, and a position that has not strictly crossed is left alone (R166, R172). -/
def Obligations.LoopBoundaryRules : Prop :=
  ∀ (c : Cfg) (wave : Memory F64) (m : F64) (p q : PeRun),
    (p.dir = false → catchUpForward c wave { p with pos := F64.add p.pos m } = .ok q →
      (F64.lt (F64.ofInt q.endIdx.toInt) q.pos = false → moveCursor c wave m p = .ok q) ∧
      (F64.lt (F64.ofInt q.endIdx.toInt) q.pos = true → q.lmode = .forwardLoop →
        moveCursor c wave m p = catchUpForward c wave
          { q with
            pos := F64.add (F64.ofInt q.lstart.toInt) (F64.sub q.pos (F64.ofInt q.endIdx.toInt))
            idx := q.lstart }) ∧
      (F64.lt (F64.ofInt q.endIdx.toInt) q.pos = true → q.lmode = .forwardBackward →
        moveCursor c wave m p = catchUpBackward c wave
          { q with
            pos := F64.sub (F64.ofInt q.endIdx.toInt) (F64.sub q.pos (F64.ofInt q.endIdx.toInt))
            dir := true }) ∧
      (F64.lt (F64.ofInt q.endIdx.toInt) q.pos = true → q.lmode = .forwardStop →
        moveCursor c wave m p = .ok { q with term := true })) ∧
    (p.dir = true → catchUpBackward c wave { p with pos := F64.sub p.pos m } = .ok q →
      (F64.lt q.pos (F64.ofInt q.lstart.toInt) = false → moveCursor c wave m p = .ok q) ∧
      (F64.lt q.pos (F64.ofInt q.lstart.toInt) = true →
        moveCursor c wave m p = catchUpForward c wave
          { q with
            pos := F64.add (F64.ofInt q.lstart.toInt) (F64.sub (F64.ofInt q.lstart.toInt) q.pos)
            dir := false }))

/-- The forward catch-up feeds the indices after `IDX` in increasing order, none skipped, none past `END`,
whatever the position (R167): for a finite one up to its `rha`; for `+infinity` up to `END`, and for a NaN none
at all. The last two are the model's where `rha` is "not defined" (R10, U7): the NaN clause follows R164 and U6,
the infinity clause R170 (log 9). -/
def Obligations.ForwardCatchUpFeedsInOrder : Prop :=
  ∀ (c : Cfg) (wave : Memory F64) (p : PeRun),
    p.idx.toInt ≤ p.endIdx.toInt →
    (∃ n : Nat, p.idx.toInt + n ≤ p.endIdx.toInt ∧
      catchUpForward c wave p = feedAll c wave p (indicesUp p.idx.toInt n)) ∧
    (F64.isFinite p.pos = true →
      catchUpForward c wave p =
        feedAll c wave p
          (indicesUp p.idx.toInt (min (F64.rha p.pos) p.endIdx.toInt - p.idx.toInt).toNat)) ∧
    (p.pos = 0x7FF0000000000000#64 →
      catchUpForward c wave p =
        feedAll c wave p (indicesUp p.idx.toInt (p.endIdx.toInt - p.idx.toInt).toNat)) ∧
    (F64.isNaN p.pos = true → catchUpForward c wave p = .ok p)

/-- The backward catch-up feeds the indices before `IDX` in decreasing order, none skipped, none below
`LSTART`, whatever the position (R172): for a finite one down to its `rha`, and for a NaN none at all, which is
the model's where `rha` is "not defined" (R10, U7), after R164 and U6 (log 9). How far it goes for an infinite
position is open (log 9). -/
def Obligations.BackwardCatchUpFeedsInOrder : Prop :=
  ∀ (c : Cfg) (wave : Memory F64) (p : PeRun),
    p.lstart.toInt ≤ p.idx.toInt →
    (∃ n : Nat, p.lstart.toInt ≤ p.idx.toInt - n ∧
      catchUpBackward c wave p = feedAll c wave p (indicesDown p.idx.toInt n)) ∧
    (F64.isFinite p.pos = true →
      catchUpBackward c wave p =
        feedAll c wave p
          (indicesDown p.idx.toInt (p.idx.toInt - max (F64.rha p.pos) p.lstart.toInt).toNat)) ∧
    (F64.isNaN p.pos = true → catchUpBackward c wave p = .ok p)

/-- `feed()` (R168) with the biquad of R176: the raw sample at `BASE + IDX` goes through stage 1, its output
through stage 2, whose output is `SMP`; each stage keeps its last two inputs and outputs, and nothing else
changes. An address outside the space or unbacked has no defined result (R62): that the model stops there, and
the names of the stops, are its choice (log 12). -/
def Obligations.FeedFiltersOneSample : Prop :=
  ∀ (c : Cfg) (wave : Memory F64) (p : PeRun),
    let a : Int := (p.base.toNat : Int) + p.idx.toInt
    let stage := fun (f : FilterStage) (x : F64) =>
      F64.sub (F64.sub (F64.add (F64.add (F64.mul c.lpfB0 x) (F64.mul c.lpfB1 f.x1))
        (F64.mul c.lpfB2 f.x2)) (F64.mul c.lpfA1 f.y1)) (F64.mul c.lpfA2 f.y2)
    (∀ x, 0 ≤ a → a < 2 ^ 32 → Memory.read wave a.toNat = some x →
      feed c wave p = .ok
        { p with
          f1 := { x1 := x, x2 := p.f1.x1, y1 := stage p.f1 x, y2 := p.f1.y1 }
          f2 := { x1 := stage p.f1 x, x2 := p.f2.x1, y1 := stage p.f2 (stage p.f1 x), y2 := p.f2.y1 }
          smp := stage p.f2 (stage p.f1 x) }) ∧
    (a < 0 ∨ 2 ^ 32 ≤ a → feed c wave p = .error .waveOutOfSpace) ∧
    (0 ≤ a → a < 2 ^ 32 → Memory.read wave a.toNat = none → feed c wave p = .error .waveUnbacked)

/-- V-F3: with `LPF_B0 = 1.0` and the other coefficients +0.0 a stage is the identity on finite samples and
finite state (R176). -/
def Obligations.IdentityFilter : Prop :=
  ∀ (c : Cfg) (f : FilterStage) (x : F64),
    c.lpfB0 = F64.lit 1 1 → c.lpfB1 = F64.zero → c.lpfB2 = F64.zero → c.lpfA1 = F64.zero →
    c.lpfA2 = F64.zero →
    F64.isFinite x = true → F64.isFinite f.x1 = true → F64.isFinite f.x2 = true →
    F64.isFinite f.y1 = true → F64.isFinite f.y2 = true →
    F64.eq (stageOut c f x) x = true

/-- The pan law (R181, S7): `PAN` 64 is p = 0 and leaves both channels the sample; 127 is p = +1 and multiplies
the left channel by 0.0; 0 and 1 are p = -1 and multiply the right channel by 0.0; every `PAN` gives p in
[-1, 1]. -/
def Obligations.PanLaw : Prop :=
  (∀ x : F64, panLeft (panValue 64#7) x = x ∧ panRight (panValue 64#7) x = x) ∧
  (∀ x : F64, panLeft (panValue 127#7) x = F64.mul x F64.zero ∧ panRight (panValue 127#7) x = x) ∧
  (∀ (pan : BitVec 7) (x : F64), pan = 0#7 ∨ pan = 1#7 →
    panLeft (panValue pan) x = x ∧ panRight (panValue pan) x = F64.mul x F64.zero) ∧
  (∀ pan : BitVec 7,
    F64.le (0xBFF0000000000000#64) (panValue pan) = true ∧ F64.le (panValue pan) (F64.lit 1 1) = true)

/-- `vol(0) = 0.0` exactly, for every open `pow2` (R177, given P1 of R12). -/
def Obligations.VolumeCurveAtZero : Prop := ∀ c : Cfg, vol c 0#7 = F64.zero

/-- `PE.STEP` completes from every state of the cursor invariant whose sample the platform backs; no value of
any register makes it stop. Where the guards of R161 let it run, it has its own effect: the three envelopes
are stepped and the cursor is moved by the multiplier of R163 (R160, R162). -/
def Obligations.PeStepCompletesWhenBacked : Prop :=
  ∀ (s : State) (v : Voice), s.addressed = some v → v.ps.Inv → v.ps.Backed s.wave →
    (∃ t, exec .peStep s = .next t) ∧
    (v.ps.err = false → v.ps.term = false → (v.getEg 2).run.fin = false →
      let r0 := egStep Config.cfg v.pe.sampleRate (v.getEg 0)
      let r1 := egStep Config.cfg v.pe.sampleRate (v.getEg 1)
      let r2 := egStep Config.cfg v.pe.sampleRate (v.getEg 2)
      ∃ (p : PeRun) (t : State),
        moveCursor Config.cfg s.wave (multiplier Config.cfg v.pe v.ps.static r0.value) v.ps = .ok p ∧
        exec .peStep s = .next t ∧
        t.addressed = some { v with eg := ((v.eg.set 0 r0.eg).set 1 r1.eg).set 2 r2.eg, ps := p } ∧
        t.answer.term = (p.term || p.err))

/-- S5, R175: what `PE.STEP` does depends on no WAVE address but `BASE + i`, `0 <= i <= END`: two stores that
agree there give the same outcome. -/
def Obligations.PeStepReadsOnlyItsSample : Prop :=
  ∀ (c : Cfg) (w1 w2 : Memory F64) (b : Bus) (v : Voice), v.ps.Inv →
    (∀ i : Int, 0 ≤ i → i ≤ v.ps.endIdx.toInt →
      Memory.read w1 ((v.ps.base.toNat : Int) + i).toNat =
        Memory.read w2 ((v.ps.base.toNat : Int) + i).toNat) →
    peStep c w1 b v = peStep c w2 b v

/-- S6: a `PE.STEP` that answers `term = 1` leaves the accumulator as it was, bit for bit. -/
def Obligations.TerminatedStepAddsNothing : Prop :=
  ∀ (s t : State), exec .peStep s = .next t → t.answer.term = true →
    t.answer.mixL = s.bus.mixL ∧ t.answer.mixR = s.bus.mixR

/-- `PE.STOP` (R185): PE_UNUSABLE with `ERR = 1`; ignored by a drum that does not receive note-off; otherwise
each of the three envelopes not in Release enters Release. -/
def Obligations.PeStopReleasesEnvelopes : Prop :=
  decode 0xA0000000#32 = .ok .peStop ∧
  (∀ (s : State) (v : Voice), s.addressed = some v → v.ps.err = true →
    exec .peStop s = .next { s with
      answer := { rdata := 0#64, mixL := s.bus.mixL, mixR := s.bus.mixR, term := true,
                  diag := .peUnusable } }) ∧
  (∀ (s : State) (v : Voice), s.addressed = some v → v.ps.err = false →
    v.pe.flags.getLsbD 0 = true → v.pe.flags.getLsbD 2 = false →
    exec .peStop s = .next { s with
      answer := { rdata := 0#64, mixL := s.bus.mixL, mixR := s.bus.mixR, term := v.ps.term,
                  diag := .none } }) ∧
  (∀ (s : State) (v : Voice), s.addressed = some v → v.ps.err = false →
    ¬ (v.pe.flags.getLsbD 0 = true ∧ v.pe.flags.getLsbD 2 = false) →
    let released := fun g : Envelope =>
      if g.run.phase = .ramp .release then g
      else
        { conf := g.conf
          run := { phase := .ramp .release, cnt := 0#32,
                   len := phaseLength Config.cfg v.pe.sampleRate g.conf .release,
                   entry := g.run.cur, cur := g.run.cur, fin := g.run.fin } }
    exec .peStop s = .next (s.answeredThrough { v with eg := v.eg.map released } 0#64 .none))

/-! ### The whole machine -/

/-- After reset every voice has every runtime register at the value of R220, there are `CFG.N_VOICES` of them
with `CFG.N_BP` break-points each, and a `NOP` to any of them answers `term = 0`, `diag = 0`. (The values of
the configuration registers, which R220 leaves unspecified, are the model's, log 4, and not stated.) -/
def Obligations.ResetRuntimeState : Prop :=
  State.reset.voices.length = Config.cfg.nVoices ∧
  (∀ v ∈ State.reset.voices, v.bp.length = Config.cfg.nBp ∧
    (∀ k : Fin 3, (v.getEg k).run =
      { phase := .off, cnt := 0#32, len := 0#32, entry := 0#64, cur := 0#64, fin := false }) ∧
    v.ps =
      { pos := 0#64, dir := false, idx := 0xFFFFFFFF#32, smp := 0#64, term := false, err := false,
        static := 0#64, smpIndex := 0#16, keyshift := 0#16, keydiff := 0#16, endIdx := 0#32,
        lstart := 0#32, lmode := .forwardLoop, base := 0#32, svol := 0#7,
        f1 := { x1 := 0#64, x2 := 0#64, y1 := 0#64, y2 := 0#64 },
        f2 := { x1 := 0#64, x2 := 0#64, y1 := 0#64, y2 := 0#64 } }) ∧
  (∀ n, n < Config.cfg.nVoices →
    ∃ t, exec .nop { State.reset with bus := { Bus.reset with voice := n } } = .next t ∧
      t.answer.term = false ∧ t.answer.diag = .none ∧ t.answer.rdata = 0#64)

/-- The machine's invariant holds after reset. -/
def Obligations.InvariantAfterReset : Prop := State.reset.Inv

/-- The machine's invariant (I2, J1, J2, J5, the number of voices and break-points, canonical memories) is kept
by every step from every state that has it. For a `POS` of `+infinity`, where `rha` is "not defined", J2 rests
on the bound of log 9. -/
def Obligations.StepKeepsInvariant : Prop :=
  ∀ s t : State, s.Inv → step s = .next t → t.Inv

/-- From a state with the invariant in which every voice's sample is backed, no step stops with a fault. -/
def Obligations.NoFaultWhenBacked : Prop :=
  ∀ s : State, s.Inv → (∀ v ∈ s.voices, v.ps.Backed s.wave) → s.Safe

/-- Every command but `PE.INIT` and `PE.STEP` completes on every voice there is, whatever the state and the
operands: nothing in the core traps (R202, R208). -/
def Obligations.OtherCommandsAlwaysComplete : Prop :=
  ∀ (i : Instr) (s : State) (v : Voice), s.addressed = some v → i ≠ .peInit → i ≠ .peStep →
    ∃ t, exec i s = .next t

/-- Where the model stops, and nowhere else: a fault only in `PE.STEP`; a refusal only for a voice number that
is none of the voices, or in `PE.INIT` for an unbacked record. -/
def Obligations.StopsOnlyWhereDeclared : Prop :=
  ∀ (i : Instr) (s : State),
    (∀ f, exec i s = .fault f → i = .peStep) ∧
    (∀ r, exec i s = .refused r →
      (r = .voiceOutOfRange ∧ s.addressed = none) ∨ (r = .srecUnbacked ∧ i = .peInit)) ∧
    (s.addressed = none → exec i s = .refused .voiceOutOfRange)

/-- WAVE and SREC are never written: after any step every address and every index reads as before (R60, R61,
R63). -/
def Obligations.StepNeverWritesMemory : Prop :=
  ∀ s t : State, step s = .next t →
    (∀ a, Memory.read t.wave a = Memory.read s.wave a) ∧
    (∀ i, Memory.read t.srec i = Memory.read s.srec i)

/-- A command changes no voice but the one it addresses, and neither the queue nor the operand ports (R214). -/
def Obligations.OtherVoicesUntouched : Prop :=
  ∀ (i : Instr) (s t : State), exec i s = .next t →
    (∀ n, n ≠ s.bus.voice → t.voices[n]? = s.voices[n]?) ∧ t.voices.length = s.voices.length ∧
    t.pending = s.pending ∧ t.bus = s.bus

/-- S8: commands to different voices commute: if both complete in one order they complete in the other, with
the same voices and memories at the end and each command's answer the same in either order. -/
def Obligations.CommandsToDifferentVoicesCommute : Prop :=
  ∀ (i j : Instr) (bi bj : Bus) (s t1 t12 : State), bi.voice ≠ bj.voice →
    exec i { s with bus := bi } = .next t1 → exec j { t1 with bus := bj } = .next t12 →
    ∃ t2 t21, exec j { s with bus := bj } = .next t2 ∧ exec i { t2 with bus := bi } = .next t21 ∧
      t21.voices = t12.voices ∧ t21.wave = t12.wave ∧ t21.srec = t12.srec ∧
      t2.answer = t12.answer ∧ t21.answer = t1.answer

/-- Configuration registers are written by `WR` alone: every other command leaves banks 8 and 9 and the
configuration of every envelope of every voice as they were. -/
def Obligations.OnlyWriteChangesConfiguration : Prop :=
  ∀ (i : Instr) (s t : State) (n : Nat) (v v' : Voice), exec i s = .next t →
    (∀ bank reg, i ≠ .wr bank reg) → s.voices[n]? = some v → t.voices[n]? = some v' →
    v'.pe = v.pe ∧ v'.bp = v.bp ∧ ∀ k : Fin 3, (v'.getEg k).conf = (v.getEg k).conf

/-- "The write changes only the named register: it never by itself changes an envelope's `LEN`, a latched
partial value, or any runtime register" (R101): a `WR` leaves bank 10 and the runtime registers of every
envelope of every voice as they were. -/
def Obligations.WriteNeverChangesRuntime : Prop :=
  ∀ (bank : BitVec 4) (reg : BitVec 8) (s t : State) (n : Nat) (v v' : Voice),
    exec (.wr bank reg) s = .next t → s.voices[n]? = some v → t.voices[n]? = some v' →
    v'.ps = v.ps ∧ ∀ k : Fin 3, (v'.getEg k).run = (v.getEg k).run

/-- J3 and J4: between two `PE.INIT`s the latched values do not change, `ERR` does not change and `TERM` never
goes from 1 to 0, on any voice, whatever the command. -/
def Obligations.LatchedValuesStayAndTermIsSticky : Prop :=
  ∀ (i : Instr) (s t : State) (n : Nat) (v v' : Voice), exec i s = .next t → i ≠ .peInit →
    s.voices[n]? = some v → t.voices[n]? = some v' →
    (v'.ps.static = v.ps.static ∧ v'.ps.smpIndex = v.ps.smpIndex ∧ v'.ps.keyshift = v.ps.keyshift ∧
     v'.ps.keydiff = v.ps.keydiff ∧ v'.ps.endIdx = v.ps.endIdx ∧ v'.ps.lstart = v.ps.lstart ∧
     v'.ps.lmode = v.ps.lmode ∧ v'.ps.base = v.ps.base ∧ v'.ps.svol = v.ps.svol ∧
     v'.ps.err = v.ps.err) ∧
    (v.ps.term = true → v'.ps.term = true)

/-- Only `PE.INIT` and `PE.STEP` write bank 10: the cursor, the filter state and the flags of every voice stay
as they were under every other command. -/
def Obligations.OnlyPartialCommandsChangeBankTen : Prop :=
  ∀ (i : Instr) (s t : State) (n : Nat) (v v' : Voice), exec i s = .next t →
    i ≠ .peInit → i ≠ .peStep → s.voices[n]? = some v → t.voices[n]? = some v' → v'.ps = v.ps

/-- The `EG.CONFIG` pseudo-instruction (R88) is sixteen `WR`s, and after them, run on any voice there is, the
envelope holds the targets, durations, shapes and key given, with its controllers and runtime registers as
they were. -/
def Obligations.EgConfigConfiguresEnvelope : Prop :=
  ∀ (s : State) (n : Nat) (v : Voice) (e : Fin 3) (tg : Vector F64 5) (d : Vector (BitVec 7) 5)
    (sh : Vector (BitVec 1) 5) (k : BitVec 8),
    s.voices[n]? = some v → s.pending = assemble n (.egConfig e tg d sh k) →
    (assemble n (.egConfig e tg d sh k)).length = 16 ∧
    ∃ t, Sys2Proof.core.run 16 s = .next t ∧
      t.pending = [] ∧
      t.voices = s.voices.set n (v.setEg e
        { conf := { tgt := tg, dur := d, shp := sh, key := k, ctlA := (v.getEg e).conf.ctlA,
                    ctlD := (v.getEg e).conf.ctlD, ctlR := (v.getEg e).conf.ctlR }
          run := (v.getEg e).run })
end

