-- ==== Sys2Proof/Laws/State.lean ====
section
/-! SUPPORT. One lemma per field per update of the state records, true by rfl, and the get/set laws of the
indexed parts (envelopes, voices). -/

namespace Sys2Proof.Machine

/-! ### Completing a command -/

@[simp] theorem State.complete_voices (s : State) (r : Reply) :
    (s.complete r).voices = s.voices.set s.bus.voice r.voice := rfl
@[simp] theorem State.complete_wave (s : State) (r : Reply) : (s.complete r).wave = s.wave := rfl
@[simp] theorem State.complete_srec (s : State) (r : Reply) : (s.complete r).srec = s.srec := rfl
@[simp] theorem State.complete_pending (s : State) (r : Reply) : (s.complete r).pending = s.pending := rfl
@[simp] theorem State.complete_bus (s : State) (r : Reply) : (s.complete r).bus = s.bus := rfl
@[simp] theorem State.complete_rdata (s : State) (r : Reply) : (s.complete r).answer.rdata = r.rdata := rfl
@[simp] theorem State.complete_mixL (s : State) (r : Reply) : (s.complete r).answer.mixL = r.mixL := rfl
@[simp] theorem State.complete_mixR (s : State) (r : Reply) : (s.complete r).answer.mixR = r.mixR := rfl
@[simp] theorem State.complete_diag (s : State) (r : Reply) : (s.complete r).answer.diag = r.diag := rfl
@[simp] theorem State.complete_term (s : State) (r : Reply) :
    (s.complete r).answer.term = (r.voice.ps.term || r.voice.ps.err) := rfl

/-- Completing with a reply is answering with its parts. -/
theorem State.complete_eq_answered (s : State) (r : Reply) :
    s.complete r = s.answered r.voice r.rdata r.diag r.mixL r.mixR := rfl

@[simp] theorem State.complete_reply (s : State) (v : Voice) (x : BitVec 64) (d : Diag) :
    s.complete (s.bus.reply v x d) = s.answeredThrough v x d := rfl
@[simp] theorem State.complete_report (s : State) (v : Voice) (d : Diag) :
    s.complete (s.bus.report v d) = s.answeredThrough v 0#64 d := rfl
@[simp] theorem State.complete_done (s : State) (v : Voice) :
    s.complete (s.bus.done v) = s.answeredThrough v 0#64 .none := rfl

/-! ### The command interface -/

@[simp] theorem State.accept_voices (s : State) (t : Transfer) (l : List Transfer) :
    (s.accept t l).voices = s.voices := rfl
@[simp] theorem State.accept_wave (s : State) (t : Transfer) (l : List Transfer) :
    (s.accept t l).wave = s.wave := rfl
@[simp] theorem State.accept_srec (s : State) (t : Transfer) (l : List Transfer) :
    (s.accept t l).srec = s.srec := rfl
@[simp] theorem State.accept_pending (s : State) (t : Transfer) (l : List Transfer) :
    (s.accept t l).pending = l := rfl
@[simp] theorem State.accept_bus (s : State) (t : Transfer) (l : List Transfer) :
    (s.accept t l).bus = t.bus := rfl
@[simp] theorem State.accept_answer (s : State) (t : Transfer) (l : List Transfer) :
    (s.accept t l).answer = s.answer := rfl
@[simp] theorem State.accept_withFetchWord (s : State) (n w : Nat) :
    (s.withFetchWord n w).accept { cmd := BitVec.ofNat 32 (w % 2 ^ n), bus := s.bus } s.pending = s := rfl

@[simp] theorem State.loadWave_voices (s : State) (a : BitVec 32) (x : F64) :
    (s.loadWave a x).voices = s.voices := rfl
@[simp] theorem State.loadWave_srec (s : State) (a : BitVec 32) (x : F64) :
    (s.loadWave a x).srec = s.srec := rfl
@[simp] theorem State.loadWave_wave (s : State) (a : BitVec 32) (x : F64) :
    (s.loadWave a x).wave = Memory.load s.wave a.toNat x := rfl
@[simp] theorem State.loadSrec_voices (s : State) (i : BitVec 16) (r : SampleRecord) :
    (s.loadSrec i r).voices = s.voices := rfl
@[simp] theorem State.loadSrec_wave (s : State) (i : BitVec 16) (r : SampleRecord) :
    (s.loadSrec i r).wave = s.wave := rfl
@[simp] theorem State.loadSrec_srec (s : State) (i : BitVec 16) (r : SampleRecord) :
    (s.loadSrec i r).srec = Memory.load s.srec i.toNat r := rfl

/-! ### Replies -/

@[simp] theorem Bus.reply_voice (b : Bus) (v : Voice) (x : BitVec 64) (d : Diag) :
    (b.reply v x d).voice = v := rfl
@[simp] theorem Bus.report_voice (b : Bus) (v : Voice) (d : Diag) : (b.report v d).voice = v := rfl
@[simp] theorem Bus.done_voice (b : Bus) (v : Voice) : (b.done v).voice = v := rfl
@[simp] theorem Bus.reply_mixL (b : Bus) (v : Voice) (x : BitVec 64) (d : Diag) :
    (b.reply v x d).mixL = b.mixL := rfl
@[simp] theorem Bus.report_mixL (b : Bus) (v : Voice) (d : Diag) : (b.report v d).mixL = b.mixL := rfl
@[simp] theorem Bus.done_mixL (b : Bus) (v : Voice) : (b.done v).mixL = b.mixL := rfl
@[simp] theorem Bus.reply_mixR (b : Bus) (v : Voice) (x : BitVec 64) (d : Diag) :
    (b.reply v x d).mixR = b.mixR := rfl
@[simp] theorem Bus.report_mixR (b : Bus) (v : Voice) (d : Diag) : (b.report v d).mixR = b.mixR := rfl
@[simp] theorem Bus.done_mixR (b : Bus) (v : Voice) : (b.done v).mixR = b.mixR := rfl

/-! ### A voice and its envelopes -/

@[simp] theorem Voice.setEg_pe (v : Voice) (e : Fin 3) (g : Envelope) : (v.setEg e g).pe = v.pe := rfl
@[simp] theorem Voice.setEg_bp (v : Voice) (e : Fin 3) (g : Envelope) : (v.setEg e g).bp = v.bp := rfl
@[simp] theorem Voice.setEg_ps (v : Voice) (e : Fin 3) (g : Envelope) : (v.setEg e g).ps = v.ps := rfl

/-- An envelope just written reads as written, every other one as before. -/
theorem Voice.getEg_setEg (v : Voice) (e e' : Fin 3) (g : Envelope) :
    (v.setEg e g).getEg e' = if e = e' then g else v.getEg e' := by
  simp [Voice.getEg, Voice.setEg, Vector.getElem_set, Fin.ext_iff]

@[simp] theorem Voice.getEg_setEg_same (v : Voice) (e : Fin 3) (g : Envelope) :
    (v.setEg e g).getEg e = g := by simp [Voice.getEg_setEg]

theorem Voice.getEg_setEg_ne (v : Voice) {e e' : Fin 3} (g : Envelope) (h : e ≠ e') :
    (v.setEg e g).getEg e' = v.getEg e' := by simp [Voice.getEg_setEg, h]

/-- Writing back what an envelope holds changes nothing. -/
@[simp] theorem Voice.setEg_getEg (v : Voice) (e : Fin 3) : v.setEg e (v.getEg e) = v := by
  simp [Voice.setEg, Voice.getEg]

@[simp] theorem Voice.mapPe_eg (v : Voice) (f : PeConfig → PeConfig) : (v.mapPe f).eg = v.eg := rfl
@[simp] theorem Voice.mapPe_pe (v : Voice) (f : PeConfig → PeConfig) : (v.mapPe f).pe = f v.pe := rfl
@[simp] theorem Voice.mapPe_bp (v : Voice) (f : PeConfig → PeConfig) : (v.mapPe f).bp = v.bp := rfl
@[simp] theorem Voice.mapPe_ps (v : Voice) (f : PeConfig → PeConfig) : (v.mapPe f).ps = v.ps := rfl
@[simp] theorem Voice.mapPe_getEg (v : Voice) (f : PeConfig → PeConfig) (e : Fin 3) :
    (v.mapPe f).getEg e = v.getEg e := rfl
@[simp] theorem Voice.mapBp_eg (v : Voice) (i : Nat) (f : BpEntry → BpEntry) : (v.mapBp i f).eg = v.eg := rfl
@[simp] theorem Voice.mapBp_pe (v : Voice) (i : Nat) (f : BpEntry → BpEntry) : (v.mapBp i f).pe = v.pe := rfl
@[simp] theorem Voice.mapBp_ps (v : Voice) (i : Nat) (f : BpEntry → BpEntry) : (v.mapBp i f).ps = v.ps := rfl
@[simp] theorem Voice.mapBp_getEg (v : Voice) (i : Nat) (f : BpEntry → BpEntry) (e : Fin 3) :
    (v.mapBp i f).getEg e = v.getEg e := rfl
@[simp] theorem Voice.mapBp_length (v : Voice) (i : Nat) (f : BpEntry → BpEntry) :
    (v.mapBp i f).bp.length = v.bp.length := by simp [Voice.mapBp]
@[simp] theorem Voice.mapEgConf_pe (v : Voice) (e : Fin 3) (f : EgConfig → EgConfig) :
    (v.mapEgConf e f).pe = v.pe := rfl
@[simp] theorem Voice.mapEgConf_bp (v : Voice) (e : Fin 3) (f : EgConfig → EgConfig) :
    (v.mapEgConf e f).bp = v.bp := rfl
@[simp] theorem Voice.mapEgConf_ps (v : Voice) (e : Fin 3) (f : EgConfig → EgConfig) :
    (v.mapEgConf e f).ps = v.ps := rfl

/-- Changing the configuration of envelope e touches no runtime register of any envelope. -/
@[simp] theorem Voice.mapEgConf_run (v : Voice) (e e' : Fin 3) (f : EgConfig → EgConfig) :
    ((v.mapEgConf e f).getEg e').run = (v.getEg e').run := by
  by_cases h : e = e'
  · subst h; simp [Voice.mapEgConf]
  · simp [Voice.mapEgConf, Voice.getEg_setEg_ne, h]

/-- The configuration of an envelope after a change to that of envelope e. -/
theorem Voice.mapEgConf_conf (v : Voice) (e e' : Fin 3) (f : EgConfig → EgConfig) :
    ((v.mapEgConf e f).getEg e').conf = if e = e' then f (v.getEg e').conf else (v.getEg e').conf := by
  by_cases h : e = e'
  · subst h; simp [Voice.mapEgConf]
  · simp [Voice.mapEgConf, Voice.getEg_setEg_ne, h]

/-- An entry of the break-point table after a change to entry i. -/
theorem Voice.mapBp_entry (v : Voice) (i j : Nat) (f : BpEntry → BpEntry) (h : i < v.bp.length) :
    (v.mapBp i f).bpEntry j = if i = j then f (v.bpEntry j) else v.bpEntry j := by
  by_cases hij : i = j
  · subst hij; simp [Voice.mapBp, Voice.bpEntry, List.getElem?_eq_getElem h]
  · simp [Voice.mapBp, Voice.bpEntry, hij]

/-- An envelope of a voice whose three envelopes are changed alike. -/
@[simp] theorem Voice.getEg_map (v : Voice) (f : Envelope → Envelope) (e : Fin 3) :
    ({ v with eg := v.eg.map f } : Voice).getEg e = f (v.getEg e) := by
  simp [Voice.getEg]

/-! ### Flags -/

@[simp] theorem PeRun.setTerm_term (p : PeRun) : p.setTerm.term = true := rfl
@[simp] theorem PeRun.setTerm_err (p : PeRun) : p.setTerm.err = p.err := rfl
@[simp] theorem PeRun.setErr_err (p : PeRun) : p.setErr.err = true := rfl
@[simp] theorem PeRun.setErr_term (p : PeRun) : p.setErr.term = p.term := rfl
@[simp] theorem PeRun.setDir_dir (p : PeRun) (d : Bool) : (p.setDir d).dir = d := rfl
@[simp] theorem PeRun.setDir_pos (p : PeRun) (d : Bool) : (p.setDir d).pos = p.pos := rfl
@[simp] theorem PeRun.setDir_idx (p : PeRun) (d : Bool) : (p.setDir d).idx = p.idx := rfl
@[simp] theorem PeRun.setDir_endIdx (p : PeRun) (d : Bool) : (p.setDir d).endIdx = p.endIdx := rfl
@[simp] theorem PeRun.setDir_lstart (p : PeRun) (d : Bool) : (p.setDir d).lstart = p.lstart := rfl
@[simp] theorem EgRun.finish_fin (r : EgRun) : r.finish.fin = true := rfl
@[simp] theorem EgRun.finish_cur (r : EgRun) : r.finish.cur = F64.zero := rfl
@[simp] theorem EgRun.finish_phase (r : EgRun) : r.finish.phase = r.phase := rfl
@[simp] theorem EgRun.finish_cnt (r : EgRun) : r.finish.cnt = r.cnt := rfl
@[simp] theorem EgRun.finish_len (r : EgRun) : r.finish.len = r.len := rfl
@[simp] theorem EgRun.finish_entry (r : EgRun) : r.finish.entry = r.entry := rfl

end Sys2Proof.Machine
end

