-- ==== Sys2Proof/Laws/Ops.lean ====
section
/-! SUPPORT. One lemma per shared operation of a command that says all it can do: choosing the voice, choosing
the envelope, reading the two memories, and what a command can change. -/

namespace Sys2Proof.Machine

/-! ### Choosing the voice and the envelope -/

/-- On a voice there is, a command with a reply completes with it. -/
theorem State.onVoice_some {s : State} {v : Voice} (h : s.addressed = some v) (f : Voice → Reply) :
    s.onVoice f = .next (s.complete (f v)) := by
  unfold State.addressed at h
  simp [State.onVoice, h]

/-- On a voice there is not, every command is refused. -/
theorem State.onVoice_none {s : State} (h : s.addressed = none) (f : Voice → Reply) :
    s.onVoice f = .refused .voiceOutOfRange := by
  unfold State.addressed at h
  simp [State.onVoice, h]

/-- All `onVoice` can do when it completes. -/
theorem State.onVoice_next {s t : State} {f : Voice → Reply} (h : s.onVoice f = .next t) :
    ∃ v, s.addressed = some v ∧ t = s.complete (f v) := by
  cases hv : s.addressed with
  | none => rw [State.onVoice_none hv] at h; cases h
  | some v =>
    rw [State.onVoice_some hv] at h
    exact ⟨v, rfl, by cases h; rfl⟩

/-- `onVoice` never faults, and refuses a missing voice only. -/
theorem State.onVoice_ne_fault (s : State) (f : Voice → Reply) (e : Fault) : s.onVoice f ≠ .fault e := by
  unfold State.onVoice
  split <;> simp

/-- `onVoice` refuses a missing voice only. -/
theorem State.onVoice_refused {s : State} {f : Voice → Reply} {r : Refusal} (h : s.onVoice f = .refused r) :
    r = .voiceOutOfRange ∧ s.addressed = none := by
  cases hv : s.addressed with
  | none => rw [State.onVoice_none hv] at h; cases h; exact ⟨rfl, rfl⟩
  | some v => rw [State.onVoice_some hv] at h; cases h

/-- The bank of an envelope is its number in a command word. -/
@[simp] theorem envIndex_egBank (k : Fin 3) : envIndex (egBank k) = some k := by
  fin_cases k <;> rfl

/-- The numbers of the envelopes are the ones of the banks. -/
theorem envIndex_eq_some {e : BitVec 4} {k : Fin 3} : envIndex e = some k ↔ e = egBank k := by
  revert e k; decide

/-- No envelope exactly for the numbers from 3. -/
theorem envIndex_eq_none {e : BitVec 4} : envIndex e = none ↔ 2 < e.toNat := by
  revert e; decide

/-- A format E command on envelope k is the command on its voice. -/
theorem State.onEnvelope_egBank (s : State) (k : Fin 3) (f : Voice → Fin 3 → Reply) :
    s.onEnvelope (egBank k) f = s.onVoice fun v => f v k := by
  simp [State.onEnvelope]

/-- A format E command without an envelope is illegal. -/
theorem State.onEnvelope_illegal {s : State} {e : BitVec 4} (h : 2 < e.toNat) (f : Voice → Fin 3 → Reply) :
    s.onEnvelope e f = s.illegal := by
  simp [State.onEnvelope, envIndex_eq_none.2 h]

/-- All a format E command can do when it completes. -/
theorem State.onEnvelope_next {s t : State} {e : BitVec 4} {f : Voice → Fin 3 → Reply}
    (h : s.onEnvelope e f = .next t) :
    ∃ v, s.addressed = some v ∧
      ((∃ k, e = egBank k ∧ t = s.complete (f v k)) ∨
       (2 < e.toNat ∧ t = s.complete (s.bus.report v .illegalCmd))) := by
  unfold State.onEnvelope at h
  split at h
  · next he =>
    obtain ⟨v, hv, rfl⟩ := State.onVoice_next h
    exact ⟨v, hv, .inr ⟨envIndex_eq_none.1 he, rfl⟩⟩
  · next k he =>
    obtain ⟨v, hv, rfl⟩ := State.onVoice_next h
    exact ⟨v, hv, .inl ⟨k, envIndex_eq_some.1 he, rfl⟩⟩

/-- Writing back the addressed voice changes no voice. -/
theorem State.set_addressed {s : State} {v : Voice} (h : s.addressed = some v) :
    s.voices.set s.bus.voice v = s.voices := by
  unfold State.addressed at h
  obtain ⟨hlt, rfl⟩ := List.getElem?_eq_some_iff.1 h
  simp

/-- A command that leaves its voice alone only answers. -/
theorem State.answered_same {s : State} {v : Voice} (h : s.addressed = some v) (x : BitVec 64) (d : Diag)
    (l r : F64) :
    s.answered v x d l r =
      { s with answer := { rdata := x, mixL := l, mixR := r, term := v.ps.term || v.ps.err, diag := d } } := by
  simp [State.answered, State.set_addressed h]

/-- A command that leaves its voice and the accumulator alone only answers. -/
theorem State.answeredThrough_same {s : State} {v : Voice} (h : s.addressed = some v) (x : BitVec 64)
    (d : Diag) :
    s.answeredThrough v x d =
      { s with answer := { rdata := x, mixL := s.bus.mixL, mixR := s.bus.mixR,
                           term := v.ps.term || v.ps.err, diag := d } } :=
  State.answered_same h x d _ _

/-- The voices after a command: the addressed one as the reply has it, the others as before. -/
theorem State.complete_voice {s : State} {v : Voice} (h : s.addressed = some v) (r : Reply) (n : Nat) :
    (s.complete r).voices[n]? = if n = s.bus.voice then some r.voice else s.voices[n]? := by
  have hlt : s.bus.voice < s.voices.length := (List.getElem?_eq_some_iff.1 h).1
  by_cases hn : n = s.bus.voice
  · subst hn; simp [hlt]
  · simp [hn, List.getElem?_set_ne (Ne.symm hn)]

/-- The voice a command addressed, after it. -/
theorem State.complete_addressed {s : State} {v : Voice} (h : s.addressed = some v) (r : Reply) :
    (s.complete r).addressed = some r.voice := by
  have := State.complete_voice h r s.bus.voice
  simpa [State.addressed] using this

/-! ### The two memories -/

/-- All a read of WAVE can do (R62). -/
theorem waveRead_cases (wave : Memory F64) (base idx : BitVec 32) :
    let a : Int := (base.toNat : Int) + idx.toInt
    ((a < 0 ∨ 2 ^ 32 ≤ a) ∧ waveRead wave base idx = .error .waveOutOfSpace) ∨
    (0 ≤ a ∧ a < 2 ^ 32 ∧ Memory.read wave a.toNat = none ∧ waveRead wave base idx = .error .waveUnbacked) ∨
    (∃ x, 0 ≤ a ∧ a < 2 ^ 32 ∧ Memory.read wave a.toNat = some x ∧ waveRead wave base idx = .ok x) := by
  intro a
  have hs : (waveSize : Int) = 2 ^ 32 := by norm_num [waveSize]
  unfold waveRead
  by_cases h : a < 0 ∨ (2 : Int) ^ 32 ≤ a
  · exact .inl ⟨h, by rw [hs]; exact if_pos h⟩
  · right
    have h0 : 0 ≤ a ∧ a < 2 ^ 32 := by omega
    cases hr : Memory.read wave a.toNat with
    | none => exact .inl ⟨h0.1, h0.2, rfl, by rw [hs]; simp only [a] at h hr; simp only [if_neg h, hr]⟩
    | some x =>
      exact .inr ⟨x, h0.1, h0.2, rfl, by rw [hs]; simp only [a] at h hr; simp only [if_neg h, hr]⟩

/-- A backed address inside the space reads the sample. -/
theorem waveRead_ok {wave : Memory F64} {base idx : BitVec 32} {x : F64}
    (h0 : 0 ≤ (base.toNat : Int) + idx.toInt) (h1 : (base.toNat : Int) + idx.toInt < 2 ^ 32)
    (hx : Memory.read wave ((base.toNat : Int) + idx.toInt).toNat = some x) :
    waveRead wave base idx = .ok x := by
  rcases waveRead_cases wave base idx with h | h | ⟨y, -, -, hy, h⟩
  · omega
  · rw [hx] at h; simp at h
  · rw [hx] at hy; cases hy; exact h

end Sys2Proof.Machine
end

