-- ==== Sys2Proof/Laws/Command.lean ====
section
/-! SUPPORT. What a command is: a reply computed from the two memories, the operand ports and the addressed
voice alone, with which the machine completes. One inversion lemma for all commands. -/

namespace Sys2Proof.Machine

/-- The reply of a format E command on a voice. -/
def envelopeReply (b : Bus) (e : BitVec 4) (f : Voice → Fin 3 → Reply) (v : Voice) : Reply :=
  match envIndex e with
  | none => b.report v .illegalCmd
  | some k => f v k

/-- What a command does to the voice it addresses. -/
def commandReply (wave : Memory F64) (srec : Memory SampleRecord) (b : Bus) (i : Instr) (v : Voice) :
    Host.Outcome Reply Fault Refusal :=
  match i with
  | .nop => .next (b.done v)
  | .wr bank reg => .next (writeReg b bank reg v)
  | .rd bank reg => .next (readReg b bank reg v)
  | .egInit e => .next (envelopeReply b e (fun v k => b.done (v.setEg k (egInit (v.getEg k)))) v)
  | .egStart e =>
    .next (envelopeReply b e
      (fun v k => b.report (v.setEg k (egStart Config.cfg v.pe.sampleRate (v.getEg k)).1)
        (egStart Config.cfg v.pe.sampleRate (v.getEg k)).2) v)
  | .egRelease e =>
    .next (envelopeReply b e
      (fun v k => b.done (v.setEg k (egRelease Config.cfg v.pe.sampleRate (v.getEg k)))) v)
  | .egStep e =>
    .next (envelopeReply b e
      (fun v k => b.reply (v.setEg k (egStep Config.cfg v.pe.sampleRate (v.getEg k)).eg)
        (egStep Config.cfg v.pe.sampleRate (v.getEg k)).value
        (egStep Config.cfg v.pe.sampleRate (v.getEg k)).diag) v)
  | .peInit =>
    match peInit Config.cfg srec b v with
    | .error r => .refused r
    | .ok r => .next r
  | .peStep =>
    match peStep Config.cfg wave b v with
    | .error f => .fault f
    | .ok r => .next r
  | .peStop => .next (peStop Config.cfg b v)

/-- A format E command on a voice there is. -/
theorem State.onEnvelope_some {s : State} {v : Voice} (h : s.addressed = some v) (e : BitVec 4)
    (f : Voice → Fin 3 → Reply) : s.onEnvelope e f = .next (s.complete (envelopeReply s.bus e f v)) := by
  cases he : envIndex e with
  | none => simp only [State.onEnvelope, envelopeReply, he]; exact State.onVoice_some h _
  | some k => simp only [State.onEnvelope, envelopeReply, he]; exact State.onVoice_some h _

/-- On a voice there is, a command completes with its reply, or stops as its reply does. -/
theorem exec_addressed (i : Instr) {s : State} {v : Voice} (h : s.addressed = some v) :
    exec i s =
      match commandReply s.wave s.srec s.bus i v with
      | .next r => .next (s.complete r)
      | .fault f => .fault f
      | .refused r => .refused r := by
  cases i with
  | nop => exact State.onVoice_some h _
  | wr bank reg => exact State.onVoice_some h _
  | rd bank reg => exact State.onVoice_some h _
  | egInit e => exact State.onEnvelope_some h e _
  | egStart e => exact State.onEnvelope_some h e _
  | egRelease e => exact State.onEnvelope_some h e _
  | egStep e => exact State.onEnvelope_some h e _
  | peInit =>
    have h' : s.voices[s.bus.voice]? = some v := h
    simp only [exec, execPeInit, commandReply, h']
    cases peInit Config.cfg s.srec s.bus v <;> rfl
  | peStep =>
    have h' : s.voices[s.bus.voice]? = some v := h
    simp only [exec, execPeStep, commandReply, h']
    cases peStep Config.cfg s.wave s.bus v <;> rfl
  | peStop => exact State.onVoice_some h _

/-- On a voice there is not, every command is refused. -/
theorem exec_unaddressed (i : Instr) {s : State} (h : s.addressed = none) :
    exec i s = .refused .voiceOutOfRange := by
  have h' : s.voices[s.bus.voice]? = none := h
  cases i <;>
    simp only [exec, execNop, execWr, execRd, execEgInit, execEgStart, execEgRelease, execEgStep, execPeInit,
      execPeStep, execPeStop, State.onEnvelope, State.illegal, State.onVoice, h'] <;>
    split <;> rfl

/-- All a command can do when it completes. -/
theorem exec_next {i : Instr} {s t : State} (h : exec i s = .next t) :
    ∃ v r, s.addressed = some v ∧ commandReply s.wave s.srec s.bus i v = .next r ∧ t = s.complete r := by
  cases hv : s.addressed with
  | none => rw [exec_unaddressed i hv] at h; cases h
  | some v =>
    rw [exec_addressed i hv] at h
    cases hr : commandReply s.wave s.srec s.bus i v with
    | next r => rw [hr] at h; exact ⟨v, r, rfl, hr, by cases h; rfl⟩
    | fault f => rw [hr] at h; cases h
    | refused f => rw [hr] at h; cases h

/-- No command writes a memory, takes from the queue or changes the operand ports. -/
theorem exec_frame {i : Instr} {s t : State} (h : exec i s = .next t) :
    t.wave = s.wave ∧ t.srec = s.srec ∧ t.pending = s.pending ∧ t.bus = s.bus ∧
      t.voices.length = s.voices.length := by
  obtain ⟨v, r, -, -, rfl⟩ := exec_next h
  simp

/-- A voice after a command: the addressed one is as its reply has it, the others are as before. -/
theorem exec_voice {i : Instr} {s t : State} {n : Nat} {v v' : Voice} (h : exec i s = .next t)
    (hv : s.voices[n]? = some v) (hv' : t.voices[n]? = some v') :
    (n ≠ s.bus.voice ∧ v' = v) ∨
    (n = s.bus.voice ∧ s.addressed = some v ∧
      ∃ r, commandReply s.wave s.srec s.bus i v = .next r ∧ v' = r.voice ∧ t = s.complete r) := by
  obtain ⟨w, r, hw, hr, rfl⟩ := exec_next h
  rw [State.complete_voice hw] at hv'
  by_cases hn : n = s.bus.voice
  · rw [if_pos hn] at hv'
    subst hn
    have : some w = some v := hw.symm.trans hv
    cases this
    cases hv'
    exact .inr ⟨rfl, hw, r, hr, rfl, rfl⟩
  · rw [if_neg hn, hv] at hv'
    cases hv'
    exact .inl ⟨hn, rfl⟩

/-- All a step can do when it completes: hold, answer an illegal word, or run a command (R81, R86, R216). -/
theorem step_next {s t : State} (h : step s = .next t) :
    (s.pending = [] ∧ t = s) ∨
    (∃ x rest, s.pending = x :: rest ∧
      ((∃ e v, decode x.cmd = .error e ∧ s.voices[x.bus.voice]? = some v ∧
          t = (s.accept x rest).complete (x.bus.report v .illegalCmd)) ∨
       (∃ i, decode x.cmd = .ok i ∧ exec i (s.accept x rest) = .next t))) := by
  unfold step at h
  split at h
  · next hp => cases h; exact .inl ⟨hp, rfl⟩
  · next x rest hp =>
    refine .inr ⟨x, rest, hp, ?_⟩
    split at h
    · next i hi => exact .inr ⟨i, hi, h⟩
    · next e he =>
      obtain ⟨v, hv, rfl⟩ := State.onVoice_next h
      exact .inl ⟨e, v, he, hv, rfl⟩

end Sys2Proof.Machine
end

