-- ==== Sys2Proof/Laws/PerInstr.lean ====
section
/-! SUPPORT. The family EncodeFields, one lemma per command: the four fields of a command's word are its opcode,
its SEL, its REG and zero (R82, R83, R85). -/

namespace Sys2Proof

/-- The fields of a word put together from its fields. -/
theorem fields_of_append (op sel : BitVec 4) (reg : BitVec 8) :
    opField (op ++ (sel ++ (reg ++ 0#16))) = op ∧ selField (op ++ (sel ++ (reg ++ 0#16))) = sel ∧
    regField (op ++ (sel ++ (reg ++ 0#16))) = reg ∧ zeroField (op ++ (sel ++ (reg ++ 0#16))) = 0#16 := by
  refine ⟨?_, ?_, ?_, ?_⟩ <;>
    · apply BitVec.eq_of_getLsbD_eq
      intro i hi
      simp only [opField, selField, regField, zeroField, BitVec.getLsbD_extractLsb', BitVec.getLsbD_append,
        BitVec.getLsbD_zero]
      simp [hi]
      try first | omega | (split_ifs <;> first | rfl | omega)

/-- The fields of the word of command `i`. -/
def Laws.EncodeFields.Statement (i : Instr) : Prop :=
  opField (encode i) = opcode i ∧ selField (encode i) = selOf i ∧ regField (encode i) = regOf i ∧
    zeroField (encode i) = 0#16

theorem Laws.EncodeFields.nop : Laws.EncodeFields.Statement .nop := fields_of_append _ _ _
theorem Laws.EncodeFields.wr (bank : BitVec 4) (reg : BitVec 8) :
    Laws.EncodeFields.Statement (.wr bank reg) := fields_of_append _ _ _
theorem Laws.EncodeFields.rd (bank : BitVec 4) (reg : BitVec 8) :
    Laws.EncodeFields.Statement (.rd bank reg) := fields_of_append _ _ _
theorem Laws.EncodeFields.egInit (e : BitVec 4) : Laws.EncodeFields.Statement (.egInit e) :=
  fields_of_append _ _ _
theorem Laws.EncodeFields.egStart (e : BitVec 4) : Laws.EncodeFields.Statement (.egStart e) :=
  fields_of_append _ _ _
theorem Laws.EncodeFields.egRelease (e : BitVec 4) : Laws.EncodeFields.Statement (.egRelease e) :=
  fields_of_append _ _ _
theorem Laws.EncodeFields.egStep (e : BitVec 4) : Laws.EncodeFields.Statement (.egStep e) :=
  fields_of_append _ _ _
theorem Laws.EncodeFields.peInit : Laws.EncodeFields.Statement .peInit := fields_of_append _ _ _
theorem Laws.EncodeFields.peStep : Laws.EncodeFields.Statement .peStep := fields_of_append _ _ _
theorem Laws.EncodeFields.peStop : Laws.EncodeFields.Statement .peStop := fields_of_append _ _ _

end Sys2Proof
end

