-- ==== Sys2Proof/Laws/Assembler.lean ====
section
/-! SUPPORT. Running the transfers of the assembler (R87, R88): one WR takes one step, and a queue of WRs runs to
its end with the writes applied in order. -/

namespace Sys2Proof.Machine

/-- A `WR` word decodes to its `WR`. -/
theorem decode_wr (bank : BitVec 4) (reg : BitVec 8) : decode (encode (.wr bank reg)) = .ok (.wr bank reg) := by
  obtain ⟨a, b, c, d⟩ := Laws.EncodeFields.wr bank reg
  simp [decode, a, b, c, d, opcode, selOf, regOf]

/-- The transfer of a `WR` of an RW register at the head of the queue is one step: the register is written. -/
theorem step_wrTransfer {s : State} {n : Nat} {v : Voice} {r : Reg} {x : BitVec 64} {rest : List Transfer}
    (hp : s.pending = wrTransfer n r.address x :: rest) (hv : s.voices[n]? = some v)
    (hr : regAt v.bp.length r.address.1 r.address.2 = some r) (ha : r.access = .rw) :
    ∃ t, step s = .next t ∧ t.pending = rest ∧ t.voices = s.voices.set n (r.write x v) := by
  have had : (s.accept (wrTransfer n r.address x) rest).addressed = some v := hv
  have hs : step s = exec (.wr r.address.1 r.address.2) (s.accept (wrTransfer n r.address x) rest) := by
    have hd : decode (wrTransfer n r.address x).cmd = .ok (.wr r.address.1 r.address.2) := decode_wr _ _
    unfold step
    rw [hp]
    simp only [hd]
  refine ⟨(s.accept (wrTransfer n r.address x) rest).complete
    ((wrTransfer n r.address x).bus.done (r.write x v)), ?_, rfl, rfl⟩
  rw [hs, exec_addressed _ had]
  simp only [commandReply, writeReg, hr, ha]
  rfl

/-- A queue of writes of one voice runs to its end, the writes applied in the order of the queue. -/
theorem run_writes (n : Nat) (l : List (Reg × BitVec 64))
    (hl : ∀ p ∈ l, p.1.access = .rw ∧ ∀ m, regAt m p.1.address.1 p.1.address.2 = some p.1)
    {s : State} {v : Voice} (hv : s.voices[n]? = some v)
    (hp : s.pending = l.map fun p => wrTransfer n p.1.address p.2) :
    ∃ t, Sys2Proof.core.run l.length s = .next t ∧ t.pending = [] ∧
      t.voices = s.voices.set n (l.foldl (fun w p => p.1.write p.2 w) v) := by
  induction l generalizing s v with
  | nil =>
    obtain ⟨hlt, e⟩ := List.getElem?_eq_some_iff.1 hv
    exact ⟨s, rfl, hp, by subst e; simp⟩
  | cons p rest ih =>
    obtain ⟨ha, hr⟩ := hl p (by simp)
    obtain ⟨u, hu, hup, huv⟩ := step_wrTransfer hp hv (hr v.bp.length) ha
    obtain ⟨hlt, -⟩ := List.getElem?_eq_some_iff.1 hv
    obtain ⟨t, h1, h2, h3⟩ := ih (fun q hq => hl q (by simp [hq]))
      (by rw [huv]; exact List.getElem?_set_self hlt) hup
    refine ⟨t, ?_, h2, ?_⟩
    · have hs : Sys2Proof.core.step s = .next u := hu
      simp only [List.length_cons, Host.Core.run, hs]
      exact h1
    · rw [h3, huv, List.set_set]
      rfl

end Sys2Proof.Machine
end

