-- ==== Sys2Proof/Laws/Float64.lean ====
section
/-! SUPPORT. The laws of binary64 the proofs lean on: the order of the patterns is the order of their values,
rounding is monotone, a value that is a binary64 already rounds to itself, and what is finite. -/

namespace Sys2Proof.Machine

/-! ### Magnitude bits and their value -/

/-- The value of magnitude bits with an exponent field. -/
theorem magUnits_normal {m : Nat} (h : m / 2 ^ 52 ≠ 0) :
    F64.magUnits m = (2 ^ 52 + m % 2 ^ 52) * 2 ^ (m / 2 ^ 52 - 1) := if_neg h

/-- The value of magnitude bits without one. -/
theorem magUnits_subnormal {m : Nat} (h : m / 2 ^ 52 = 0) : F64.magUnits m = m := if_pos h

/-- Larger magnitude bits are a larger value. -/
theorem magUnits_strictMono : StrictMono F64.magUnits := by
  intro a b hab
  by_cases ha : a / 2 ^ 52 = 0
  · by_cases hb : b / 2 ^ 52 = 0
    · rwa [magUnits_subnormal ha, magUnits_subnormal hb]
    · rw [magUnits_subnormal ha, magUnits_normal hb]
      have : 1 ≤ 2 ^ (b / 2 ^ 52 - 1) := Nat.one_le_two_pow
      have h1 : 2 ^ 52 + b % 2 ^ 52 ≤ (2 ^ 52 + b % 2 ^ 52) * 2 ^ (b / 2 ^ 52 - 1) := Nat.le_mul_of_pos_right _ this
      have : a < 2 ^ 52 := by omega
      omega
  · have hb : b / 2 ^ 52 ≠ 0 := by
      have := Nat.div_le_div_right (c := 2 ^ 52) hab.le; omega
    rw [magUnits_normal ha, magUnits_normal hb]
    rcases Nat.lt_or_ge (a / 2 ^ 52) (b / 2 ^ 52) with h | h
    · have hlt : a % 2 ^ 52 < 2 ^ 52 := Nat.mod_lt _ (by norm_num)
      calc (2 ^ 52 + a % 2 ^ 52) * 2 ^ (a / 2 ^ 52 - 1)
          < (2 ^ 52 * 2) * 2 ^ (a / 2 ^ 52 - 1) :=
            Nat.mul_lt_mul_of_pos_right (by omega) (Nat.two_pow_pos _)
        _ = 2 ^ 52 * 2 ^ (a / 2 ^ 52 - 1 + 1) := by rw [pow_succ]; ring
        _ ≤ 2 ^ 52 * 2 ^ (b / 2 ^ 52 - 1) :=
            Nat.mul_le_mul_left _ (Nat.pow_le_pow_right (by norm_num) (by omega))
        _ ≤ (2 ^ 52 + b % 2 ^ 52) * 2 ^ (b / 2 ^ 52 - 1) := Nat.mul_le_mul_right _ (by omega)
    · have he : a / 2 ^ 52 = b / 2 ^ 52 := by
        have := Nat.div_le_div_right (c := 2 ^ 52) hab.le; omega
      rw [he]
      exact Nat.mul_lt_mul_of_pos_right (by omega) (Nat.two_pow_pos _)

@[simp] theorem magUnits_zero : F64.magUnits 0 = 0 := rfl

theorem mag_lt (x : F64) : F64.mag x < 2 ^ 63 := Nat.mod_lt _ (by norm_num)

/-- The value of a finite pattern, its sign apart. -/
theorem toRat_eq (x : F64) :
    F64.toRat x = (if F64.sign x then -1 else 1) * ((F64.magUnits (F64.mag x) : ℚ) / 2 ^ 1074) := by
  have : mkRat (F64.magUnits (F64.mag x)) (2 ^ 1074) = (F64.magUnits (F64.mag x) : ℚ) / 2 ^ 1074 := by
    rw [Rat.mkRat_eq_div, Nat.cast_pow, Int.cast_natCast, Nat.cast_ofNat]
  unfold F64.toRat
  simp only [this]
  split
  · exact (neg_one_mul _).symm
  · exact (one_mul _).symm

/-- The order of finite values is the order of the patterns' places. -/
theorem toRat_le_iff (x y : F64) : F64.toRat x ≤ F64.toRat y ↔ F64.key x ≤ F64.key y := by
  have hm := magUnits_strictMono.le_iff_le (a := F64.mag x) (b := F64.mag y)
  have hm' := magUnits_strictMono.le_iff_le (a := F64.mag y) (b := F64.mag x)
  have hx0 := magUnits_strictMono.le_iff_le (a := F64.mag x) (b := 0)
  have hy0 := magUnits_strictMono.le_iff_le (a := F64.mag y) (b := 0)
  rw [magUnits_zero] at hx0 hy0
  rw [toRat_eq, toRat_eq]
  have hp : (0 : ℚ) < 2 ^ 1074 := by positivity
  generalize (2 : ℚ) ^ 1074 = D at hp
  generalize F64.magUnits (F64.mag x) = a at *
  generalize F64.magUnits (F64.mag y) = b at *
  have ka : (0 : ℚ) ≤ a := by positivity
  have kb : (0 : ℚ) ≤ b := by positivity
  unfold F64.key
  cases F64.sign x <;> cases F64.sign y <;> simp only [if_true, if_false, Bool.false_eq_true, one_mul, neg_mul]
  · rw [div_le_div_iff_of_pos_right hp]; exact_mod_cast hm
  · rw [div_le_iff₀ hp, neg_mul, div_mul_cancel₀ _ hp.ne']
    constructor
    · intro h
      have : (a : ℚ) + b ≤ 0 := by linarith
      have : a + b ≤ 0 := by exact_mod_cast this
      omega
    · intro h
      have h1 : a = 0 := by omega
      have h2 : b = 0 := by omega
      simp [h1, h2]
  · constructor
    · intro _; omega
    · intro _
      have : 0 ≤ (a : ℚ) / D := by positivity
      have : 0 ≤ (b : ℚ) / D := by positivity
      linarith
  · rw [neg_le_neg_iff, div_le_div_iff_of_pos_right hp]
    constructor
    · intro h; have : b ≤ a := by exact_mod_cast h
      omega
    · intro h; have : b ≤ a := by omega
      exact_mod_cast this

theorem toRat_lt_iff (x y : F64) : F64.toRat x < F64.toRat y ↔ F64.key x < F64.key y := by
  rw [← not_le, toRat_le_iff, not_le]

theorem toRat_eq_iff (x y : F64) : F64.toRat x = F64.toRat y ↔ F64.key x = F64.key y := by
  rw [le_antisymm_iff, toRat_le_iff, toRat_le_iff, ← le_antisymm_iff]

/-! ### The kinds of pattern -/

theorem not_isNaN_of_isFinite {x : F64} (h : F64.isFinite x = true) : F64.isNaN x = false := by
  simp only [F64.isFinite, F64.isNaN, decide_eq_true_eq, decide_eq_false_iff_not] at *; omega

theorem not_isInf_of_isFinite {x : F64} (h : F64.isFinite x = true) : F64.isInf x = false := by
  simp only [F64.isFinite, F64.isInf, decide_eq_true_eq, decide_eq_false_iff_not] at *; omega

/-- A pattern is finite, an infinity or a NaN. -/
theorem kind_cases (x : F64) :
    F64.isFinite x = true ∨ F64.isInf x = true ∨ F64.isNaN x = true := by
  simp only [F64.isFinite, F64.isInf, F64.isNaN, decide_eq_true_eq]; omega

/-- The NaN of an operation is a NaN. -/
theorem isNaN_nan (op : FloatOp) (a b : F64) : F64.isNaN (F64.nan op a b) = true := by
  unfold F64.nan
  split
  · assumption
  · decide

theorem not_isFinite_nan (op : FloatOp) (a b : F64) : F64.isFinite (F64.nan op a b) = false := by
  cases h : F64.isFinite (F64.nan op a b) with
  | false => rfl
  | true => have := not_isNaN_of_isFinite h; rw [isNaN_nan] at this; cases this

@[simp] theorem mag_ofSignMag (s : Bool) {m : Nat} (h : m < 2 ^ 63) : F64.mag (F64.ofSignMag s m) = m := by
  unfold F64.mag F64.ofSignMag
  rw [BitVec.toNat_ofNat]
  cases s <;> simp only [if_true, if_false, Bool.false_eq_true] <;> omega

@[simp] theorem sign_ofSignMag (s : Bool) {m : Nat} (h : m < 2 ^ 63) :
    F64.sign (F64.ofSignMag s m) = s := by
  unfold F64.sign F64.ofSignMag
  rw [BitVec.msb_eq_decide, BitVec.toNat_ofNat]
  cases s <;> simp only [if_true, if_false, Bool.false_eq_true] <;> simp <;> omega

/-- A pattern is its sign and its magnitude bits. -/
theorem ofSignMag_sign_mag (x : F64) : F64.ofSignMag (F64.sign x) (F64.mag x) = x := by
  have hx := x.isLt
  apply BitVec.eq_of_toNat_eq
  unfold F64.ofSignMag F64.sign F64.mag
  rw [BitVec.toNat_ofNat, BitVec.msb_eq_decide]
  by_cases h : 2 ^ (64 - 1) ≤ x.toNat
  · simp only [h, decide_true, if_true]; omega
  · simp only [h, decide_false, if_false, Bool.false_eq_true]; omega

theorem infMag_lt : F64.infMag < 2 ^ 63 := by decide

@[simp] theorem mag_neg (x : F64) : F64.mag (F64.neg x) = F64.mag x := mag_ofSignMag _ (mag_lt x)
@[simp] theorem sign_neg (x : F64) : F64.sign (F64.neg x) = !F64.sign x := sign_ofSignMag _ (mag_lt x)
@[simp] theorem isFinite_neg (x : F64) : F64.isFinite (F64.neg x) = F64.isFinite x := by
  simp [F64.isFinite]
@[simp] theorem isNaN_neg (x : F64) : F64.isNaN (F64.neg x) = F64.isNaN x := by simp [F64.isNaN]
@[simp] theorem isInf_neg (x : F64) : F64.isInf (F64.neg x) = F64.isInf x := by simp [F64.isInf]

/-- A sum is finite only where both terms are. -/
theorem isFinite_of_sumOr {bad a b : F64} (hbad : F64.isFinite bad = false)
    (h : F64.isFinite (F64.sumOr bad a b) = true) : F64.isFinite a = true ∧ F64.isFinite b = true := by
  unfold F64.sumOr at h
  split at h
  · rw [hbad] at h; cases h
  · next hn =>
    split at h
    · next ha =>
      split at h
      · rw [hbad] at h; cases h
      · rw [not_isInf_of_isFinite h] at ha; cases ha
    · next ha =>
      split at h
      · next hb => rw [not_isInf_of_isFinite h] at hb; cases hb
      · next hb =>
        rcases kind_cases a with h1 | h1 | h1
        · rcases kind_cases b with h2 | h2 | h2
          · exact ⟨h1, h2⟩
          · exact absurd h2 hb
          · simp [h2] at hn
        · exact absurd h1 ha
        · simp [h1] at hn

theorem isFinite_of_add {a b : F64} (h : F64.isFinite (F64.add a b) = true) :
    F64.isFinite a = true ∧ F64.isFinite b = true := isFinite_of_sumOr (not_isFinite_nan _ _ _) h

theorem isFinite_of_sub {a b : F64} (h : F64.isFinite (F64.sub a b) = true) :
    F64.isFinite a = true ∧ F64.isFinite b = true := by
  have := isFinite_of_sumOr (not_isFinite_nan _ _ _) h
  simpa using this

/-! ### Rounding (R9) -/

/-- What `roundHalfEven` gives: an integer within half of the quotient, even at a tie. -/
theorem roundHalfEven_spec (n : Nat) {d : Nat} (hd : 0 < d) :
    let k := roundHalfEven n d
    2 * n ≤ (2 * k + 1) * d ∧ 2 * k * d ≤ 2 * n + d ∧
      (2 * n = (2 * k + 1) * d → k % 2 = 0) ∧ (2 * k * d = 2 * n + d → k % 2 = 0) := by
  have h := Nat.div_add_mod n d
  have hr := Nat.mod_lt n hd
  unfold roundHalfEven
  generalize n / d = q at *
  generalize n % d = r at *
  subst h
  simp only
  split
  · refine ⟨by nlinarith, by nlinarith, fun e => ?_, fun e => ?_⟩ <;> exfalso <;> nlinarith
  · split
    · refine ⟨by nlinarith, by nlinarith, fun e => ?_, fun e => ?_⟩ <;> exfalso <;> nlinarith
    · split
      · next h2 => exact ⟨by nlinarith, by nlinarith, fun _ => h2, fun _ => h2⟩
      · next h2 => exact ⟨by nlinarith, by nlinarith, fun _ => by omega, fun _ => by omega⟩

/-- Rounding to an integer is monotone. -/
theorem roundHalfEven_mono {a b c d : Nat} (hb : 0 < b) (hd : 0 < d) (h : a * d ≤ c * b) :
    roundHalfEven a b ≤ roundHalfEven c d := by
  obtain ⟨-, h2, -, h4⟩ := roundHalfEven_spec a hb
  obtain ⟨g1, -, g3, -⟩ := roundHalfEven_spec c hd
  generalize roundHalfEven a b = k at *
  generalize roundHalfEven c d = l at *
  by_contra hlt
  rw [not_le] at hlt
  have hk : l + 1 ≤ k := hlt
  have e1 : 2 * k * d * b ≤ (2 * a + b) * d := by nlinarith
  have e2 : 2 * c * b ≤ (2 * l + 1) * d * b := by nlinarith
  have e3 : (2 * l + 1) * d * b + b * d ≤ 2 * k * d * b := by nlinarith [Nat.mul_pos hd hb]
  have t1 : 2 * k * d * b = (2 * a + b) * d := by nlinarith
  have t2 : 2 * c * b = (2 * l + 1) * d * b := by nlinarith
  have t3 : 2 * k * d * b = (2 * l + 1) * d * b + b * d := by nlinarith
  have u1 : k % 2 = 0 := h4 (Nat.eq_of_mul_eq_mul_right hd (by nlinarith))
  have u2 : l % 2 = 0 := g3 (Nat.eq_of_mul_eq_mul_right hb (by nlinarith))
  have u3 : k = l + 1 := by
    apply Nat.eq_of_mul_eq_mul_right (Nat.mul_pos hd hb)
    nlinarith
  omega

/-- An exact quotient rounds to itself. -/
theorem roundHalfEven_mul (k : Nat) {d : Nat} (hd : 0 < d) : roundHalfEven (k * d) d = k := by
  unfold roundHalfEven
  simp [Nat.mul_div_cancel _ hd, hd]

/-- A scaled quotient as a number. -/
theorem scaled_quotient (n : Nat) {d : Nat} (p : Int) :
    ((n * 2 ^ (-p).toNat : Nat) : ℚ) / ((d * 2 ^ p.toNat : Nat) : ℚ) = (n : ℚ) / d / 2 ^ p := by
  have h2 : (2 : ℚ) ≠ 0 := by norm_num
  rcases le_total 0 p with h | h
  · obtain ⟨k, rfl⟩ := Int.eq_ofNat_of_zero_le h
    simp only [Int.toNat_natCast, zpow_natCast]
    have : (-(k : Int)).toNat = 0 := by omega
    rw [this]; push_cast
    rw [mul_one, div_div]
  · obtain ⟨k, hk⟩ := Int.eq_ofNat_of_zero_le (show 0 ≤ -p by omega)
    have hp : p = -(k : Int) := by omega
    subst hp
    have h1 : (-(k : Int)).toNat = 0 := by omega
    have h3 : (- -(k : Int)).toNat = k := by omega
    rw [h1, h3, zpow_neg, zpow_natCast]
    push_cast
    rw [mul_one, div_inv_eq_mul]; ring

/-- The last place of a positive quotient: 53 bits reach over it, and it is not below the smallest place
unless the quotient is. -/
theorem lastPlace_spec {n d : Nat} (hn : 0 < n) (hd : 0 < d) :
    -1074 ≤ lastPlace n d ∧ (n : ℚ) / d < 2 ^ (lastPlace n d + 53) ∧
      (lastPlace n d = -1074 ∨ (2 : ℚ) ^ (lastPlace n d + 52) ≤ (n : ℚ) / d) := by
  have hd0 : (0 : ℚ) < d := by exact_mod_cast hd
  have hn0 : (0 : ℚ) < n := by exact_mod_cast hn
  have n1 : ((2 : ℚ) ^ n.log2) ≤ n := by exact_mod_cast Nat.log2_self_le hn.ne'
  have n2 : (n : ℚ) < 2 ^ (n.log2 + 1) := by exact_mod_cast Nat.lt_log2_self
  have d1 : ((2 : ℚ) ^ d.log2) ≤ d := by exact_mod_cast Nat.log2_self_le hd.ne'
  have d2 : (d : ℚ) < 2 ^ (d.log2 + 1) := by exact_mod_cast Nat.lt_log2_self
  set e : Int := (n.log2 : Int) - (d.log2 : Int) with he
  have hlow : (2 : ℚ) ^ (e - 1) < (n : ℚ) / d := by
    rw [lt_div_iff₀ hd0]
    calc (2 : ℚ) ^ (e - 1) * d < 2 ^ (e - 1) * 2 ^ (d.log2 + 1) := by
          exact mul_lt_mul_of_pos_left d2 (by positivity)
      _ = 2 ^ n.log2 := by
          rw [← zpow_natCast, ← zpow_add₀ (by norm_num), ← zpow_natCast]; congr 1; push_cast; omega
      _ ≤ n := n1
  have hhigh : (n : ℚ) / d < 2 ^ (e + 1) := by
    rw [div_lt_iff₀ hd0]
    calc (n : ℚ) < 2 ^ (n.log2 + 1) := n2
      _ = 2 ^ (e + 1) * 2 ^ d.log2 := by
          rw [← zpow_natCast, ← zpow_natCast, ← zpow_add₀ (by norm_num)]; congr 1; push_cast; omega
      _ ≤ 2 ^ (e + 1) * d := by exact mul_le_mul_of_nonneg_left d1 (by positivity)
  have hcmp : (n * 2 ^ (-e).toNat < d * 2 ^ e.toNat) ↔ (n : ℚ) / d < 2 ^ e := by
    have hs := scaled_quotient n (d := d) e
    have hpos : (0 : ℚ) < ((d * 2 ^ e.toNat : Nat) : ℚ) := by
      exact_mod_cast Nat.mul_pos hd (Nat.two_pow_pos _)
    rw [← div_lt_one (by positivity : (0 : ℚ) < 2 ^ e), ← hs, div_lt_one hpos]
    exact_mod_cast Iff.rfl
  have hl : lastPlace n d =
      max ((if n * 2 ^ (-e).toNat < d * 2 ^ e.toNat then e - 1 else e) - 52) (-1074) := rfl
  set e' : Int := if n * 2 ^ (-e).toNat < d * 2 ^ e.toNat then e - 1 else e with he'
  have h1 : (2 : ℚ) ^ e' ≤ (n : ℚ) / d := by
    rw [he']; split
    · exact hlow.le
    · next h => rw [hcmp] at h; exact not_lt.1 h
  have h2 : (n : ℚ) / d < 2 ^ (e' + 1) := by
    rw [he']; split
    · next h => rw [hcmp] at h; simpa using h
    · exact hhigh
  rw [hl]
  refine ⟨le_max_right _ _, lt_of_lt_of_le h2 (zpow_le_zpow_right₀ (by norm_num) (by omega)), ?_⟩
  rcases le_total (e' - 52) (-1074) with h | h
  · exact .inl (max_eq_right h)
  · right
    rw [max_eq_left h]
    simpa using h1

/-- The last place is the only one with its properties. -/
theorem lastPlace_unique {n d : Nat} (hn : 0 < n) (hd : 0 < d) {p : Int} (h0 : -1074 ≤ p)
    (h1 : (n : ℚ) / d < 2 ^ (p + 53)) (h2 : p = -1074 ∨ (2 : ℚ) ^ (p + 52) ≤ (n : ℚ) / d) :
    lastPlace n d = p := by
  obtain ⟨g0, g1, g2⟩ := lastPlace_spec hn hd
  have key : ∀ {a b : Int}, (2 : ℚ) ^ a < 2 ^ b → a < b := fun h =>
    (zpow_lt_zpow_iff_right₀ (by norm_num)).1 h
  rcases h2 with h2 | h2 <;> rcases g2 with g2 | g2
  · omega
  · have := key (lt_of_le_of_lt g2 h1); omega
  · have := key (lt_of_le_of_lt h2 g1); omega
  · have := key (lt_of_le_of_lt g2 h1); have := key (lt_of_le_of_lt h2 g1); omega

/-- The magnitude bits of a positive quotient, by its last place. -/
theorem roundMag_eq {n d : Nat} (hn : 0 < n) :
    roundMag n d = min ((lastPlace n d + 1074).toNat * 2 ^ 52 +
      roundHalfEven (n * 2 ^ (-lastPlace n d).toNat) (d * 2 ^ (lastPlace n d).toNat)) F64.infMag := by
  simp only [roundMag, if_neg hn.ne']

/-- The significand is below `2^53` rounded up. -/
theorem significand_le {n d : Nat} (hn : 0 < n) (hd : 0 < d) :
    roundHalfEven (n * 2 ^ (-lastPlace n d).toNat) (d * 2 ^ (lastPlace n d).toNat) ≤ 2 ^ 53 := by
  obtain ⟨-, h, -⟩ := lastPlace_spec hn hd
  set p := lastPlace n d
  have hd' : 0 < d * 2 ^ p.toNat := Nat.mul_pos hd (Nat.two_pow_pos _)
  have hs := scaled_quotient n (d := d) p
  have hq : (n : ℚ) / d / 2 ^ p < 2 ^ 53 := by
    rw [div_lt_iff₀ (by positivity)]
    calc (n : ℚ) / d < 2 ^ (p + 53) := h
      _ = 2 ^ 53 * 2 ^ p := by rw [zpow_add₀ (by norm_num)]; norm_cast; ring
  rw [← hs, div_lt_iff₀ (by exact_mod_cast hd')] at hq
  have hq' : n * 2 ^ (-p).toNat < 2 ^ 53 * (d * 2 ^ p.toNat) := by exact_mod_cast hq
  have := roundHalfEven_mono (b := d * 2 ^ p.toNat) (d := d * 2 ^ p.toNat)
    (a := n * 2 ^ (-p).toNat) (c := 2 ^ 53 * (d * 2 ^ p.toNat)) hd' hd'
    (Nat.mul_le_mul_right _ hq'.le)
  rwa [roundHalfEven_mul _ hd'] at this

/-- Above the smallest place the significand has all its 53 bits. -/
theorem le_significand {n d : Nat} (hn : 0 < n) (hd : 0 < d) (h : lastPlace n d ≠ -1074) :
    2 ^ 52 ≤ roundHalfEven (n * 2 ^ (-lastPlace n d).toNat) (d * 2 ^ (lastPlace n d).toNat) := by
  obtain ⟨-, -, h'⟩ := lastPlace_spec hn hd
  replace h' := h'.resolve_left h
  set p := lastPlace n d
  have hd' : 0 < d * 2 ^ p.toNat := Nat.mul_pos hd (Nat.two_pow_pos _)
  have hs := scaled_quotient n (d := d) p
  have hq : (2 : ℚ) ^ 52 ≤ (n : ℚ) / d / 2 ^ p := by
    rw [le_div_iff₀ (by positivity)]
    calc (2 : ℚ) ^ 52 * 2 ^ p = 2 ^ (p + 52) := by rw [zpow_add₀ (by norm_num)]; norm_cast; ring
      _ ≤ (n : ℚ) / d := h'
  rw [← hs, le_div_iff₀ (by exact_mod_cast hd')] at hq
  have hq' : 2 ^ 52 * (d * 2 ^ p.toNat) ≤ n * 2 ^ (-p).toNat := by exact_mod_cast hq
  have := roundHalfEven_mono (b := d * 2 ^ p.toNat) (d := d * 2 ^ p.toNat)
    (a := 2 ^ 52 * (d * 2 ^ p.toNat)) (c := n * 2 ^ (-p).toNat) hd' hd'
    (Nat.mul_le_mul_right _ hq')
  rwa [roundHalfEven_mul _ hd'] at this

/-- Rounding to binary64 is monotone. -/
theorem roundMag_mono {a b c d : Nat} (hb : 0 < b) (hd : 0 < d) (h : a * d ≤ c * b) :
    roundMag a b ≤ roundMag c d := by
  rcases Nat.eq_zero_or_pos a with rfl | ha
  · simp [roundMag]
  have hc : 0 < c := by
    rcases Nat.eq_zero_or_pos c with rfl | hc
    · simp at h; omega
    · exact hc
  have hq : (a : ℚ) / b ≤ (c : ℚ) / d := by
    rw [div_le_div_iff₀ (by exact_mod_cast hb) (by exact_mod_cast hd)]
    exact_mod_cast h
  obtain ⟨p0, p1, p2⟩ := lastPlace_spec ha hb
  obtain ⟨q0, q1, q2⟩ := lastPlace_spec hc hd
  have hpq : lastPlace a b ≤ lastPlace c d := by
    by_contra hlt
    rw [not_le] at hlt
    have p2' := p2.resolve_left (by omega)
    have := (zpow_lt_zpow_iff_right₀ (by norm_num)).1 (lt_of_le_of_lt (p2'.trans hq) q1)
    omega
  rw [roundMag_eq ha, roundMag_eq hc]
  apply min_le_min_right
  rcases hpq.lt_or_eq with hlt | heq
  · have k1 := significand_le ha hb
    have k2 := le_significand hc hd (by omega)
    have : (lastPlace a b + 1074).toNat + 1 ≤ (lastPlace c d + 1074).toNat := by omega
    omega
  · rw [heq]
    apply Nat.add_le_add_left
    apply roundHalfEven_mono (Nat.mul_pos hb (Nat.two_pow_pos _)) (Nat.mul_pos hd (Nat.two_pow_pos _))
    calc a * 2 ^ (-lastPlace c d).toNat * (d * 2 ^ (lastPlace c d).toNat)
        = a * d * (2 ^ (-lastPlace c d).toNat * 2 ^ (lastPlace c d).toNat) := by ring
      _ ≤ c * b * (2 ^ (-lastPlace c d).toNat * 2 ^ (lastPlace c d).toNat) := Nat.mul_le_mul_right _ h
      _ = c * 2 ^ (-lastPlace c d).toNat * (b * 2 ^ (lastPlace c d).toNat) := by ring

/-- A quotient that is the value of finite magnitude bits rounds to them. -/
theorem roundMag_exact {n d m : Nat} (hd : 0 < d) (hm : m < F64.infMag)
    (h : (n : ℚ) / d = (F64.magUnits m : ℚ) / 2 ^ 1074) : roundMag n d = m := by
  have hd0 : (0 : ℚ) < d := by exact_mod_cast hd
  have hD : (0 : ℚ) < 2 ^ 1074 := by positivity
  rcases Nat.eq_zero_or_pos n with rfl | hn
  · simp only [Nat.cast_zero, zero_div] at h
    have : (F64.magUnits m : ℚ) = 0 := by
      rcases div_eq_zero_iff.1 h.symm with h | h
      · exact h
      · exact absurd h hD.ne'
    have h0 : F64.magUnits m = F64.magUnits 0 := by rw [magUnits_zero]; exact_mod_cast this
    rw [magUnits_strictMono.injective h0]; rfl
  -- the place and the significand of m
  obtain ⟨p, k, hp0, hk1, hk2, hmk, hv⟩ : ∃ (p : Int) (k : Nat), -1074 ≤ p ∧ k < 2 ^ 53 ∧
      (p = -1074 ∨ 2 ^ 52 ≤ k) ∧ (p + 1074).toNat * 2 ^ 52 + k = m ∧
      (F64.magUnits m : ℚ) / 2 ^ 1074 = k * 2 ^ p := by
    have hz : ((2 : ℚ) ^ (-1074 : Int)) = 1 / 2 ^ 1074 := by
      rw [zpow_neg, one_div, show (1074 : Int) = ((1074 : Nat) : Int) by norm_num, zpow_natCast]
    by_cases he : m / 2 ^ 52 = 0
    · refine ⟨-1074, m, le_refl _, by omega, .inl rfl, by simp, ?_⟩
      rw [magUnits_subnormal he, hz, mul_one_div]
    · refine ⟨(m / 2 ^ 52 - 1 : Nat) - 1074, 2 ^ 52 + m % 2 ^ 52, by omega,
        by have := Nat.mod_lt m (show 0 < 2 ^ 52 by norm_num); omega, .inr (by omega), ?_, ?_⟩
      · have := Nat.div_add_mod m (2 ^ 52)
        have e : ((m / 2 ^ 52 - 1 : Nat) - 1074 + 1074 : Int).toNat = m / 2 ^ 52 - 1 := by omega
        rw [e]
        have : m / 2 ^ 52 = m / 2 ^ 52 - 1 + 1 := by omega
        omega
      · rw [magUnits_normal he, sub_eq_add_neg, zpow_add₀ (by norm_num), hz, zpow_natCast]
        push_cast
        generalize (2 : ℚ) ^ 1074 = D
        ring
  rw [hv] at h
  have hk0 : 0 < k := by
    rcases Nat.eq_zero_or_pos k with rfl | hk
    · simp only [Nat.cast_zero, zero_mul, div_eq_zero_iff] at h
      have hn0 : (0 : ℚ) < n := by exact_mod_cast hn
      rcases h with h | h
      · exact absurd h hn0.ne'
      · exact absurd h hd0.ne'
    · exact hk
  have hlp : lastPlace n d = p := by
    apply lastPlace_unique hn hd hp0
    · rw [h, add_comm, zpow_add₀ (by norm_num)]
      apply mul_lt_mul_of_pos_right _ (by positivity)
      exact_mod_cast hk1
    · rcases hk2 with h' | h'
      · exact .inl h'
      · right
        rw [h, add_comm, zpow_add₀ (by norm_num)]
        apply mul_le_mul_of_nonneg_right _ (by positivity)
        exact_mod_cast h'
  have hd' : 0 < d * 2 ^ p.toNat := Nat.mul_pos hd (Nat.two_pow_pos _)
  have hs := scaled_quotient n (d := d) p
  rw [h, mul_div_cancel_right₀ _ (by positivity), div_eq_iff (by exact_mod_cast hd'.ne')] at hs
  have hs' : n * 2 ^ (-p).toNat = k * (d * 2 ^ p.toNat) := by exact_mod_cast hs
  rw [roundMag_eq hn, hlp, hs', roundHalfEven_mul _ hd', hmk]
  exact min_eq_left hm.le

/-- Rounding gives at most an infinity. -/
theorem roundMag_le (n d : Nat) : roundMag n d ≤ F64.infMag := by
  unfold roundMag
  split
  · exact Nat.zero_le _
  · exact min_le_right _ _

theorem roundMag_lt (n d : Nat) : roundMag n d < 2 ^ 63 := lt_of_le_of_lt (roundMag_le n d) infMag_lt

@[simp] theorem mag_ofRat (s : Bool) (q : Rat) : F64.mag (F64.ofRat s q) = roundMag q.num.natAbs q.den :=
  mag_ofSignMag _ (roundMag_lt _ _)

@[simp] theorem sign_ofRat (s : Bool) (q : Rat) : F64.sign (F64.ofRat s q) = s :=
  sign_ofSignMag _ (roundMag_lt _ _)

theorem isNaN_ofRat (s : Bool) (q : Rat) : F64.isNaN (F64.ofRat s q) = false := by
  have := roundMag_le q.num.natAbs q.den
  simp [F64.isNaN]; omega

/-- The absolute value of a rational as a quotient of naturals. -/
theorem natAbs_div_den (q : Rat) : ((q.num.natAbs : Nat) : ℚ) / q.den = |q| := by
  rw [Nat.cast_natAbs, Int.cast_abs]
  conv_rhs => rw [← Rat.num_div_den q, abs_div, Nat.abs_cast]

/-- The value of a finite pattern rounds to the pattern itself. -/
theorem ofRat_toRat {x : F64} (h : F64.isFinite x = true) : F64.ofRat (F64.sign x) (F64.toRat x) = x := by
  have hm : F64.mag x < F64.infMag := by simpa [F64.isFinite] using h
  have hr : roundMag (F64.toRat x).num.natAbs (F64.toRat x).den = F64.mag x := by
    apply roundMag_exact (F64.toRat x).den_pos hm
    rw [natAbs_div_den, toRat_eq, abs_mul]
    have : |((F64.magUnits (F64.mag x) : ℚ) / 2 ^ 1074)| = (F64.magUnits (F64.mag x) : ℚ) / 2 ^ 1074 :=
      abs_of_nonneg (by positivity)
    rw [this]
    split <;> simp
  unfold F64.ofRat
  rw [hr, ofSignMag_sign_mag]

/-- Rounding keeps the order of two values with the right signs. -/
theorem key_ofRat_mono {a b : Rat} {s t : Bool} (hs : a < 0 → s = true) (hs' : 0 < a → s = false)
    (ht : b < 0 → t = true) (ht' : 0 < b → t = false) (h : a ≤ b) :
    F64.key (F64.ofRat s a) ≤ F64.key (F64.ofRat t b) := by
  have habs : ∀ {x y : Rat}, |x| ≤ |y| →
      roundMag x.num.natAbs x.den ≤ roundMag y.num.natAbs y.den := by
    intro x y hxy
    apply roundMag_mono x.den_pos y.den_pos
    rw [← natAbs_div_den, ← natAbs_div_den, div_le_div_iff₀ (by exact_mod_cast x.den_pos)
      (by exact_mod_cast y.den_pos)] at hxy
    exact_mod_cast hxy
  have hzero : ∀ x : Rat, x = 0 → roundMag x.num.natAbs x.den = 0 := by rintro x rfl; rfl
  unfold F64.key
  simp only [sign_ofRat, mag_ofRat]
  rcases lt_trichotomy a 0 with ha | ha | ha <;> rcases lt_trichotomy b 0 with hb | hb | hb
  · rw [hs ha, ht hb, if_pos rfl, if_pos rfl]
    have := habs (x := b) (y := a) (by rw [abs_of_neg ha, abs_of_neg hb]; linarith)
    omega
  · rw [hzero b hb, hs ha, if_pos rfl]; split <;> omega
  · rw [hs ha, ht' hb, if_pos rfl, if_neg Bool.false_ne_true]; omega
  · exact absurd (lt_of_le_of_lt h hb) (by rw [ha]; exact lt_irrefl 0)
  · rw [hzero a ha, hzero b hb]; simp
  · rw [hzero a ha, ht' hb, if_neg Bool.false_ne_true]; split <;> omega
  · linarith
  · linarith
  · rw [hs' ha, ht' hb, if_neg Bool.false_ne_true, if_neg Bool.false_ne_true]
    have := habs (x := a) (y := b) (by rw [abs_of_pos ha, abs_of_pos hb]; exact h)
    omega

/-! ### Integers (R8, R10) -/

/-- The value of a significand at a place. -/
theorem magUnits_place {j k : Nat} (hk : k < 2 ^ 53) (h : j = 0 ∨ 2 ^ 52 ≤ k) :
    F64.magUnits (j * 2 ^ 52 + k) = k * 2 ^ j := by
  by_cases hs : k < 2 ^ 52
  · have hj : j = 0 := h.resolve_right (by omega)
    subst hj
    rw [magUnits_subnormal (by omega)]; simp
  · have hd : (j * 2 ^ 52 + k) / 2 ^ 52 = j + 1 := by omega
    rw [magUnits_normal (by omega), hd]
    have hm : 2 ^ 52 + (j * 2 ^ 52 + k) % 2 ^ 52 = k := by omega
    rw [hm]; rfl

/-- A natural number below `2^53` is a binary64. -/
theorem roundMag_nat {n : Nat} (h : n < 2 ^ 53) :
    roundMag n 1 < F64.infMag ∧ (F64.magUnits (roundMag n 1) : ℚ) / 2 ^ 1074 = n := by
  rcases Nat.eq_zero_or_pos n with rfl | hn
  · exact ⟨by decide, by simp [roundMag]⟩
  have l1 := Nat.log2_self_le hn.ne'
  have l2 : n < 2 ^ (n.log2 + 1) := Nat.lt_log2_self
  have l3 : n.log2 < 53 := (Nat.log2_lt hn.ne').2 h
  set L := n.log2
  have hk1 : 2 ^ 52 ≤ n * 2 ^ (52 - L) := by
    calc 2 ^ 52 = 2 ^ L * 2 ^ (52 - L) := by rw [← pow_add]; congr 1; omega
      _ ≤ n * 2 ^ (52 - L) := Nat.mul_le_mul_right _ l1
  have hk2 : n * 2 ^ (52 - L) < 2 ^ 53 := by
    calc n * 2 ^ (52 - L) < 2 ^ (L + 1) * 2 ^ (52 - L) := Nat.mul_lt_mul_of_pos_right l2 (Nat.two_pow_pos _)
      _ = 2 ^ 53 := by rw [← pow_add]; congr 1; omega
  have hv := magUnits_place (j := L + 1022) hk2 (.inr hk1)
  have hm : (L + 1022) * 2 ^ 52 + n * 2 ^ (52 - L) < F64.infMag := by
    have : F64.infMag = 2047 * 2 ^ 52 := rfl
    omega
  have hval : (F64.magUnits ((L + 1022) * 2 ^ 52 + n * 2 ^ (52 - L)) : ℚ) / 2 ^ 1074 = n := by
    have hD : (2 : ℚ) ^ 1074 ≠ 0 := pow_ne_zero _ (by norm_num)
    rw [hv, div_eq_iff hD]
    clear hD
    have : n * 2 ^ (52 - L) * 2 ^ (L + 1022) = n * 2 ^ 1074 := by
      have hl : 52 - L + (L + 1022) = 1074 := by omega
      rw [mul_assoc, ← pow_add, hl]
    rw [this, Nat.cast_mul, Nat.cast_pow, Nat.cast_ofNat]
  have he := roundMag_exact (n := n) (d := 1) Nat.one_pos hm (by rw [hval]; simp)
  rw [he]
  exact ⟨hm, hval⟩

theorem ofInt_parts (i : Int) :
    F64.sign (F64.ofInt i) = decide (i < 0) ∧ F64.mag (F64.ofInt i) = roundMag i.natAbs 1 := by
  refine ⟨sign_ofRat _ _, ?_⟩
  unfold F64.ofInt
  rw [mag_ofRat]
  rfl

/-- An integer below `2^53` converts exactly. -/
theorem toRat_ofInt {i : Int} (h : i.natAbs < 2 ^ 53) :
    F64.isFinite (F64.ofInt i) = true ∧ F64.toRat (F64.ofInt i) = i := by
  obtain ⟨h1, h2⟩ := roundMag_nat h
  obtain ⟨p1, p2⟩ := ofInt_parts i
  refine ⟨by simp only [F64.isFinite, p2, decide_eq_true_eq]; exact h1, ?_⟩
  rw [toRat_eq, p1, p2, h2]
  by_cases hi : i < 0
  · simp only [hi, decide_true, if_true]
    rw [neg_one_mul, Nat.cast_natAbs, abs_of_neg hi]; push_cast; ring
  · simp only [hi, decide_false, if_false, Bool.false_eq_true, one_mul]
    rw [Nat.cast_natAbs, abs_of_nonneg (by omega)]

/-- `rha` is within a half of the value (R10). -/
theorem rhaRat_near (q : Rat) : q - 1 / 2 ≤ rhaRat q ∧ (rhaRat q : ℚ) ≤ q + 1 / 2 := by
  have hd : 0 < q.den := q.den_pos
  have hd0 : (0 : ℚ) < q.den := by exact_mod_cast hd
  have h1 := Nat.div_mul_le_self (2 * q.num.natAbs + q.den) (2 * q.den)
  have h2 := Nat.lt_div_mul_add (a := 2 * q.num.natAbs + q.den) (b := 2 * q.den) (by omega)
  set m := (2 * q.num.natAbs + q.den) / (2 * q.den) with hm
  have ha := natAbs_div_den q
  have e1 : (m : ℚ) ≤ |q| + 1 / 2 := by
    rw [← ha, div_add_div _ _ hd0.ne' (by norm_num), le_div_iff₀ (by positivity)]
    have : m * (2 * q.den) ≤ 2 * q.num.natAbs + q.den := h1
    have : (m : ℚ) * (2 * q.den) ≤ 2 * q.num.natAbs + q.den := by exact_mod_cast this
    linarith
  have e2 : |q| - 1 / 2 ≤ (m : ℚ) := by
    rw [← ha, div_sub_div _ _ hd0.ne' (by norm_num), div_le_iff₀ (by positivity)]
    have : (2 * q.num.natAbs + q.den : ℚ) < m * (2 * q.den) + 2 * q.den := by exact_mod_cast h2
    linarith
  have hr : rhaRat q = if q < 0 then -(m : Int) else (m : Int) := rfl
  rw [hr]
  split
  · next hq => rw [abs_of_neg hq] at e1 e2; push_cast; constructor <;> linarith
  · next hq => rw [abs_of_nonneg (not_lt.1 hq)] at e1 e2; push_cast; constructor <;> linarith

/-- A position at or above an integer rounds to no less. -/
theorem le_rha {x : F64} {e : Int} (h : (e : ℚ) ≤ F64.toRat x) : e ≤ F64.rha x := by
  have h1 := (rhaRat_near (F64.toRat x)).1
  have h2 : ((e - 1 : Int) : ℚ) < (F64.rha x : ℚ) := by
    show _ < ((rhaRat (F64.toRat x) : Int) : ℚ)
    push_cast; linarith
  have := Int.cast_lt.1 h2
  omega

/-- A finite position strictly above an index converted to f64 rounds to at least the index. -/
theorem le_rha_of_lt {i : Int} {x : F64} (hi : i.natAbs < 2 ^ 53)
    (h : F64.lt (F64.ofInt i) x = true) : i ≤ F64.rha x := by
  apply le_rha
  rw [← (toRat_ofInt hi).2, toRat_le_iff]
  simp only [F64.lt, Bool.and_eq_true, decide_eq_true_eq] at h
  exact h.2.le

/-! ### Arithmetic with a zero, with one, and of an integer by itself -/

theorem isFinite_of_mag_zero {z : F64} (hz : F64.mag z = 0) : F64.isFinite z = true := by
  simp [F64.isFinite, hz]; decide

theorem toRat_of_mag_zero {z : F64} (hz : F64.mag z = 0) : F64.toRat z = 0 := by rw [toRat_eq, hz]; simp

/-- The sign of a value that is not zero is the pattern's. -/
theorem sign_of_toRat (x : F64) :
    (F64.toRat x < 0 → F64.sign x = true) ∧ (0 < F64.toRat x → F64.sign x = false) := by
  rw [toRat_eq]
  cases F64.sign x <;> simp
  all_goals positivity

/-- A finite pattern's value rounds to the pattern's place, whatever sign a zero result takes. -/
theorem key_ofRat_toRat {x : F64} (hx : F64.isFinite x = true) {s : Bool} (hs : F64.toRat x < 0 → s = true)
    (hs' : 0 < F64.toRat x → s = false) : F64.key (F64.ofRat s (F64.toRat x)) = F64.key x := by
  obtain ⟨hx1, hx2⟩ := sign_of_toRat x
  have h1 := key_ofRat_mono (t := F64.sign x) hs hs' hx1 hx2 le_rfl
  have h2 := key_ofRat_mono (s := F64.sign x) hx1 hx2 hs hs' le_rfl
  rw [ofRat_toRat hx] at h1 h2
  omega

/-- A finite number times a zero is a zero. -/
theorem mag_mul_zero {a z : F64} (ha : F64.isFinite a = true) (hz : F64.mag z = 0) :
    F64.mag (F64.mul a z) = 0 ∧ F64.mag (F64.mul z a) = 0 := by
  have hzf := isFinite_of_mag_zero hz
  constructor <;>
    simp [F64.mul, not_isNaN_of_isFinite ha, not_isNaN_of_isFinite hzf, not_isInf_of_isFinite ha,
      not_isInf_of_isFinite hzf, toRat_of_mag_zero hz, roundMag]

/-- A finite number plus a zero is the number. -/
theorem add_mag_zero {a z : F64} (ha : F64.isFinite a = true) (hz : F64.mag z = 0) :
    F64.isFinite (F64.add a z) = true ∧ F64.key (F64.add a z) = F64.key a := by
  have hzf := isFinite_of_mag_zero hz
  simp only [F64.add, F64.sumOr, not_isNaN_of_isFinite ha, not_isNaN_of_isFinite hzf,
    not_isInf_of_isFinite ha, not_isInf_of_isFinite hzf, Bool.or_self, Bool.false_eq_true, if_false,
    toRat_of_mag_zero hz, add_zero]
  split
  · next h0 =>
    have hk : F64.toRat a = F64.toRat 0#64 := by rw [h0, toRat_of_mag_zero rfl]
    rw [toRat_eq_iff] at hk
    rw [hk]
    constructor
    · simp [F64.isFinite]; decide
    · have h00 : F64.mag (0#64) = 0 := rfl
      unfold F64.key; simp [h00]
  · have hk := key_ofRat_toRat ha (s := decide (F64.toRat a < 0)) (fun h => by simpa using h)
      (fun h => by simpa using h.le)
    refine ⟨?_, hk⟩
    have hk' := hk
    unfold F64.key at hk'
    simp only [F64.isFinite, decide_eq_true_eq] at ha ⊢
    split at hk' <;> split at hk' <;> omega

/-- A finite number minus a zero is the number. -/
theorem sub_mag_zero {a z : F64} (ha : F64.isFinite a = true) (hz : F64.mag z = 0) :
    F64.isFinite (F64.sub a z) = true ∧ F64.key (F64.sub a z) = F64.key a := by
  have hn : F64.mag (F64.neg z) = 0 := by rw [mag_neg, hz]
  have hzf := isFinite_of_mag_zero hn
  have e : F64.sub a z = F64.add a (F64.neg z) := by
    simp only [F64.sub, F64.add, F64.sumOr, not_isNaN_of_isFinite ha, not_isNaN_of_isFinite hzf,
      not_isInf_of_isFinite ha, not_isInf_of_isFinite hzf, Bool.or_self, Bool.false_eq_true, if_false]
  rw [e]
  exact add_mag_zero ha hn

/-- A finite number times one is the number, bit for bit. -/
theorem mul_one_lit {x : F64} (hx : F64.isFinite x = true) :
    F64.mul x (F64.lit 1 1) = x ∧ F64.mul (F64.lit 1 1) x = x := by
  have h1 : F64.isNaN (F64.lit 1 1) = false := by decide +kernel
  have h2 : F64.isInf (F64.lit 1 1) = false := by decide +kernel
  have h3 : F64.sign (F64.lit 1 1) = false := by decide +kernel
  have h4 : F64.toRat (F64.lit 1 1) = 1 := by decide +kernel
  constructor <;>
    simp [F64.mul, not_isNaN_of_isFinite hx, not_isInf_of_isFinite hx, h1, h2, h3, h4, ofRat_toRat hx]

/-- Finite patterns of one place are equal numbers. -/
theorem eq_of_key {a b : F64} (ha : F64.isFinite a = true) (hb : F64.isFinite b = true)
    (h : F64.key a = F64.key b) : F64.eq a b = true := by
  simp [F64.eq, not_isNaN_of_isFinite ha, not_isNaN_of_isFinite hb, h]

/-- A 32-bit count that is not zero converts to a finite positive number. -/
theorem ofInt_count {n : BitVec 32} (h : n ≠ 0#32) :
    F64.isFinite (F64.ofInt (n.toNat : Int)) = true ∧ F64.toRat (F64.ofInt (n.toNat : Int)) = n.toNat ∧
      F64.isZero (F64.ofInt (n.toNat : Int)) = false ∧ (n.toNat : ℚ) ≠ 0 := by
  have hn := n.isLt
  obtain ⟨a, b⟩ := toRat_ofInt (i := (n.toNat : Int)) (by simp; omega)
  have hne : (n.toNat : ℚ) ≠ 0 := by
    intro e; apply h; apply BitVec.eq_of_toNat_eq; exact_mod_cast e
  refine ⟨a, by rw [b]; simp, ?_, hne⟩
  simp only [F64.isZero, decide_eq_false_iff_not]
  intro hz
  rw [toRat_of_mag_zero hz] at b
  apply hne; simpa using b.symm

/-! ### Monotone operations -/

theorem le_iff_key {x y : F64} :
    F64.le x y = true ↔ F64.isNaN x = false ∧ F64.isNaN y = false ∧ F64.key x ≤ F64.key y := by
  simp [F64.le, and_assoc]

theorem key_bounds {x : F64} (h : F64.isNaN x = false) :
    -(F64.infMag : Int) ≤ F64.key x ∧ F64.key x ≤ F64.infMag := by
  simp only [F64.isNaN, decide_eq_false_iff_not] at h
  unfold F64.key; split <;> omega

theorem key_of_isInf {x : F64} (h : F64.isInf x = true) :
    F64.key x = if F64.sign x then -(F64.infMag : Int) else F64.infMag := by
  simp only [F64.isInf, decide_eq_true_eq] at h
  unfold F64.key; rw [h]

theorem not_isNaN_of_isInf {x : F64} (h : F64.isInf x = true) : F64.isNaN x = false := by
  simp only [F64.isInf, F64.isNaN, decide_eq_true_eq, decide_eq_false_iff_not] at *; omega

theorem isFinite_or_isInf {x : F64} (h : F64.isNaN x = false) :
    F64.isFinite x = true ∨ F64.isInf x = true := by
  rcases kind_cases x with a | a | a
  · exact .inl a
  · exact .inr a
  · rw [h] at a; cases a

theorem isInf_ofSignMag (s : Bool) :
    F64.isInf (F64.ofSignMag s F64.infMag) = true ∧ F64.sign (F64.ofSignMag s F64.infMag) = s := by
  refine ⟨?_, sign_ofSignMag _ infMag_lt⟩
  simp [F64.isInf, mag_ofSignMag _ infMag_lt]

theorem isZero_of_isInf {x : F64} (h : F64.isInf x = true) : F64.isZero x = false := by
  have : F64.infMag = 2047 * 2 ^ 52 := rfl
  simp only [F64.isInf, F64.isZero, decide_eq_true_eq, decide_eq_false_iff_not] at *; omega

theorem isZero_of_pos {c : F64} (hc : 0 < F64.toRat c) : F64.isZero c = false := by
  simp only [F64.isZero, decide_eq_false_iff_not]
  intro h; rw [toRat_of_mag_zero h] at hc; exact lt_irrefl _ hc

/-- An operation that rounds a monotone function of a finite operand, and keeps infinities, is monotone. -/
theorem monotone_of_rounded (op : F64 → F64) (g : ℚ → ℚ) (hg : ∀ a b, a ≤ b → g a ≤ g b)
    (hfin : ∀ x, F64.isFinite x = true →
      ∃ s, F64.key (op x) = F64.key (F64.ofRat s (g (F64.toRat x))) ∧ F64.isNaN (op x) = false ∧
        (g (F64.toRat x) < 0 → s = true) ∧ (0 < g (F64.toRat x) → s = false))
    (hinf : ∀ x, F64.isInf x = true → F64.isInf (op x) = true ∧ F64.sign (op x) = F64.sign x)
    {x y : F64} (h : F64.le x y = true) : F64.le (op x) (op y) = true := by
  rw [le_iff_key] at h ⊢
  obtain ⟨hx, hy, hk⟩ := h
  rcases isFinite_or_isInf hx with fx | ix <;> rcases isFinite_or_isInf hy with fy | iy
  · obtain ⟨s, k1, n1, a1, b1⟩ := hfin x fx
    obtain ⟨t, k2, n2, a2, b2⟩ := hfin y fy
    refine ⟨n1, n2, ?_⟩
    rw [k1, k2]
    exact key_ofRat_mono a1 b1 a2 b2 (hg _ _ ((toRat_le_iff x y).2 hk))
  · obtain ⟨s, k1, n1, a1, b1⟩ := hfin x fx
    obtain ⟨i2, s2⟩ := hinf y iy
    refine ⟨n1, not_isNaN_of_isInf i2, ?_⟩
    have hb := key_bounds n1
    rw [key_of_isInf i2, s2]
    have kx : -(F64.infMag : Int) < F64.key x := by
      simp only [F64.isFinite, decide_eq_true_eq] at fx; unfold F64.key; split <;> omega
    rw [key_of_isInf iy] at hk
    split at hk
    · omega
    · simp_all
  · obtain ⟨s, k1, n1, a1, b1⟩ := hfin y fy
    obtain ⟨i2, s2⟩ := hinf x ix
    refine ⟨not_isNaN_of_isInf i2, n1, ?_⟩
    have hb := key_bounds n1
    rw [key_of_isInf i2, s2]
    have kx : F64.key y < (F64.infMag : Int) := by
      simp only [F64.isFinite, decide_eq_true_eq] at fy; unfold F64.key; split <;> omega
    rw [key_of_isInf ix] at hk
    split at hk
    · simp_all
    · omega
  · obtain ⟨i1, s1⟩ := hinf x ix
    obtain ⟨i2, s2⟩ := hinf y iy
    refine ⟨not_isNaN_of_isInf i1, not_isNaN_of_isInf i2, ?_⟩
    rw [key_of_isInf i1, key_of_isInf i2, s1, s2]
    rw [key_of_isInf ix, key_of_isInf iy] at hk
    exact hk

/-- Dividing by a positive number is monotone. -/
theorem div_monotone {c : F64} (hf : F64.isFinite c = true) (hc : 0 < F64.toRat c) {x y : F64}
    (h : F64.le x y = true) : F64.le (F64.div x c) (F64.div y c) = true := by
  have hs := (sign_of_toRat c).2 hc
  have hn := not_isNaN_of_isFinite hf
  have hi := not_isInf_of_isFinite hf
  have hz := isZero_of_pos hc
  apply monotone_of_rounded (fun x => F64.div x c) (fun q => q / F64.toRat c) _ _ _ h
  · intro a b hab; exact div_le_div_of_nonneg_right hab hc.le
  · intro x hx
    have e : F64.div x c = F64.ofRat (F64.sign x) (F64.toRat x / F64.toRat c) := by
      simp [F64.div, not_isNaN_of_isFinite hx, not_isInf_of_isFinite hx, hn, hi, hz, hs]
    refine ⟨F64.sign x, by simp only [e], by simp only [e, isNaN_ofRat], ?_, ?_⟩
    · intro h
      exact (sign_of_toRat x).1 (by
        by_contra hh; rw [not_lt] at hh; exact absurd h (not_lt.2 (div_nonneg hh hc.le)))
    · intro h
      exact (sign_of_toRat x).2 (by
        by_contra hh; rw [not_lt] at hh
        exact absurd h (not_lt.2 (div_nonpos_of_nonpos_of_nonneg hh hc.le)))
  · intro x hx
    have e : F64.div x c = F64.ofSignMag (F64.sign x) F64.infMag := by
      simp [F64.div, not_isNaN_of_isInf hx, hx, hn, hi, hs]
    simp only [e]; exact isInf_ofSignMag _

/-- Multiplying by a positive number is monotone. -/
theorem mul_monotone {c : F64} (hf : F64.isFinite c = true) (hc : 0 < F64.toRat c) {x y : F64}
    (h : F64.le x y = true) : F64.le (F64.mul x c) (F64.mul y c) = true := by
  have hs := (sign_of_toRat c).2 hc
  have hn := not_isNaN_of_isFinite hf
  have hi := not_isInf_of_isFinite hf
  have hz := isZero_of_pos hc
  apply monotone_of_rounded (fun x => F64.mul x c) (fun q => q * F64.toRat c) _ _ _ h
  · intro a b hab; exact mul_le_mul_of_nonneg_right hab hc.le
  · intro x hx
    have e : F64.mul x c = F64.ofRat (F64.sign x) (F64.toRat x * F64.toRat c) := by
      simp [F64.mul, not_isNaN_of_isFinite hx, not_isInf_of_isFinite hx, hn, hi, hs]
    refine ⟨F64.sign x, by simp only [e], by simp only [e, isNaN_ofRat], ?_, ?_⟩
    · intro h
      exact (sign_of_toRat x).1 (by
        by_contra hh; rw [not_lt] at hh; exact absurd h (not_lt.2 (mul_nonneg hh hc.le)))
    · intro h
      exact (sign_of_toRat x).2 (by
        by_contra hh; rw [not_lt] at hh
        exact absurd h (not_lt.2 (mul_nonpos_of_nonpos_of_nonneg hh hc.le)))
  · intro x hx
    have e : F64.mul x c = F64.ofSignMag (F64.sign x) F64.infMag := by
      simp [F64.mul, not_isNaN_of_isInf hx, hx, hn, hi, hs, hz, isZero_of_isInf hx]
    simp only [e]; exact isInf_ofSignMag _

/-- Subtracting a finite number is monotone. -/
theorem sub_monotone {c : F64} (hf : F64.isFinite c = true) {x y : F64} (h : F64.le x y = true) :
    F64.le (F64.sub x c) (F64.sub y c) = true := by
  have hn := not_isNaN_of_isFinite hf
  have hi := not_isInf_of_isFinite hf
  apply monotone_of_rounded (fun x => F64.sub x c) (fun q => q + F64.toRat (F64.neg c)) _ _ _ h
  · intro a b hab; linarith
  · intro x hx
    have e : F64.sub x c =
        if F64.toRat x + F64.toRat (F64.neg c) = 0 then
          F64.ofSignMag (F64.sign x && F64.sign (F64.neg c)) 0
        else F64.ofRat (decide (F64.toRat x + F64.toRat (F64.neg c) < 0))
          (F64.toRat x + F64.toRat (F64.neg c)) := by
      simp only [F64.sub, F64.sumOr, not_isNaN_of_isFinite hx, not_isInf_of_isFinite hx, isNaN_neg, isInf_neg,
        hn, hi, Bool.or_self, Bool.false_eq_true, if_false]
    refine ⟨decide (F64.toRat x + F64.toRat (F64.neg c) < 0), ?_, ?_, fun h => by simpa using h,
      fun h => by simpa using h.le⟩ <;> simp only [e]
    · split
      · next h0 => rw [h0]; unfold F64.key; simp [roundMag]
      · rfl
    · split
      · simp [F64.isNaN]
      · exact isNaN_ofRat _ _
  · intro x hx
    have e : F64.sub x c = x := by
      simp [F64.sub, F64.sumOr, not_isNaN_of_isInf hx, hx, hn, hi]
    simp only [e]; exact ⟨hx, trivial⟩

end Sys2Proof.Machine
end

