-- ==== Sys2Proof/Laws/Envelope.lean ====
section
/-! SUPPORT. The laws of the envelope generator: what entering a phase writes, and all one call can do. -/

namespace Sys2Proof.Machine

/-! ### Entering a phase (R116) -/

@[simp] theorem enterPhase_conf (c : Cfg) (rate : F64) (g : Envelope) (r : Ramp) :
    (enterPhase c rate g r).conf = g.conf := rfl
@[simp] theorem enterPhase_phase (c : Cfg) (rate : F64) (g : Envelope) (r : Ramp) :
    (enterPhase c rate g r).run.phase = .ramp r := rfl
@[simp] theorem enterPhase_cnt (c : Cfg) (rate : F64) (g : Envelope) (r : Ramp) :
    (enterPhase c rate g r).run.cnt = 0#32 := rfl
@[simp] theorem enterPhase_len (c : Cfg) (rate : F64) (g : Envelope) (r : Ramp) :
    (enterPhase c rate g r).run.len = phaseLength c rate g.conf r := rfl
@[simp] theorem enterPhase_entry (c : Cfg) (rate : F64) (g : Envelope) (r : Ramp) :
    (enterPhase c rate g r).run.entry = g.run.cur := rfl
@[simp] theorem enterPhase_cur (c : Cfg) (rate : F64) (g : Envelope) (r : Ramp) :
    (enterPhase c rate g r).run.cur = g.run.cur := rfl
@[simp] theorem enterPhase_fin (c : Cfg) (rate : F64) (g : Envelope) (r : Ramp) :
    (enterPhase c rate g r).run.fin = g.run.fin := rfl

@[simp] theorem egCompute_conf (c : Cfg) (g : Envelope) (r : Ramp) : (egCompute c g r).eg.conf = g.conf := rfl
@[simp] theorem egCompute_phase (c : Cfg) (g : Envelope) (r : Ramp) :
    (egCompute c g r).eg.run.phase = g.run.phase := rfl
@[simp] theorem egCompute_fin (c : Cfg) (g : Envelope) (r : Ramp) :
    (egCompute c g r).eg.run.fin = g.run.fin := rfl
@[simp] theorem egCompute_value (c : Cfg) (g : Envelope) (r : Ramp) :
    (egCompute c g r).value = egValue c g r := rfl
@[simp] theorem egCompute_cur (c : Cfg) (g : Envelope) (r : Ramp) :
    (egCompute c g r).eg.run.cur = egValue c g r := rfl
@[simp] theorem egCompute_diag (c : Cfg) (g : Envelope) (r : Ramp) : (egCompute c g r).diag = .none := rfl

/-- `satinc` adds one and stops at `2^32 - 1` (R124). -/
theorem satinc_eq (n : BitVec 32) : satinc n = BitVec.ofNat 32 (min (n.toNat + 1) (2 ^ 32 - 1)) := by
  unfold satinc
  apply BitVec.eq_of_toNat_eq
  have hn := n.isLt
  split
  · next h => subst h; rfl
  · next h =>
    have h' : n.toNat ≠ 2 ^ 32 - 1 := fun e => h (BitVec.eq_of_toNat_eq (by simpa using e))
    have : min (n.toNat + 1) (2 ^ 32 - 1) = n.toNat + 1 := by omega
    rw [this, BitVec.toNat_add, BitVec.toNat_ofNat]
    rfl

/-- `clamp` is the nearest integer of the range (R11). -/
theorem clampInt_eq (x lo hi : Int) (h : lo ≤ hi) : clampInt x lo hi = max lo (min hi x) := by
  unfold clampInt
  split
  · omega
  · split <;> omega

/-! ### The commands on one envelope -/

/-- All `EG.START` can do (R113). -/
theorem egStart_cases (c : Cfg) (rate : F64) (g : Envelope) :
    (g.run.phase = .off ∧ egStart c rate g = (enterPhase c rate g .attack, .none)) ∨
    (g.run.phase ≠ .off ∧ egStart c rate g = (g, .egBadStart)) := by
  unfold egStart
  cases g.run.phase <;> simp

/-- All `EG.RELEASE` can do (R114). -/
theorem egRelease_cases (c : Cfg) (rate : F64) (g : Envelope) :
    (g.run.phase = .ramp .release ∧ egRelease c rate g = g) ∨
    (g.run.phase ≠ .ramp .release ∧ egRelease c rate g = enterPhase c rate g .release) := by
  unfold egRelease
  by_cases h : g.run.phase = .ramp .release <;> simp [h]

/-- The ramp a call that finds `CNT > LEN` goes on to, where it goes on to one (R117). -/
inductive NextRamp (g : Envelope) : Ramp → Ramp → Prop where
  | hold : NextRamp g .attack .hold
  | decay : NextRamp g .hold .decay
  | sustain : NextRamp g .decay .sustain
  | release (h : F64.eq g.conf.tgt[3] F64.zero = true) : NextRamp g .sustain .release

/-- All `EG.STEP` can do: nothing in Off or when finished; one value inside a ramp; past its length the next
ramp's first value, a held Sustain, or the finish (R117, R118). -/
theorem egStep_cases (c : Cfg) (rate : F64) (g : Envelope) :
    (g.run.phase = .off ∧ egStep c rate g = { eg := g, value := F64.zero, diag := .egOffCall }) ∨
    (∃ r, g.run.phase = .ramp r ∧ g.run.fin = true ∧
      egStep c rate g = { eg := g, value := F64.zero, diag := .none }) ∨
    (∃ r, g.run.phase = .ramp r ∧ g.run.fin = false ∧ g.run.cnt.toNat ≤ g.run.len.toNat ∧
      egStep c rate g = egCompute c g r) ∨
    (∃ r r', g.run.phase = .ramp r ∧ g.run.fin = false ∧ g.run.len.toNat < g.run.cnt.toNat ∧
      NextRamp g r r' ∧ egStep c rate g = egCompute c (enterPhase c rate g r') r') ∨
    (g.run.phase = .ramp .sustain ∧ g.run.fin = false ∧ g.run.len.toNat < g.run.cnt.toNat ∧
      F64.eq g.conf.tgt[3] F64.zero = false ∧ egStep c rate g = holdSustain g) ∨
    (g.run.phase = .ramp .release ∧ g.run.fin = false ∧ g.run.len.toNat < g.run.cnt.toNat ∧
      egStep c rate g = egFinish g) := by
  unfold egStep
  cases hp : g.run.phase with
  | off => exact .inl ⟨rfl, rfl⟩
  | ramp r =>
    right
    cases hf : g.run.fin with
    | true => exact .inl ⟨r, rfl, rfl, by simp⟩
    | false =>
      right
      dsimp only
      rw [if_neg Bool.false_ne_true]
      by_cases hc : g.run.len < g.run.cnt
      · right
        rw [if_pos hc]
        have hc' : g.run.len.toNat < g.run.cnt.toNat := hc
        cases r with
        | attack => exact .inl ⟨_, _, rfl, rfl, hc', .hold, rfl⟩
        | hold => exact .inl ⟨_, _, rfl, rfl, hc', .decay, rfl⟩
        | decay => exact .inl ⟨_, _, rfl, rfl, hc', .sustain, rfl⟩
        | sustain =>
          cases ht : F64.eq g.conf.tgt[3] F64.zero with
          | true =>
            exact .inl ⟨_, _, rfl, rfl, hc', .release ht, by
              simp only [egAdvance, Ramp.index]; exact if_pos ht⟩
          | false =>
            exact .inr (.inl ⟨rfl, rfl, hc', rfl, by
              simp only [egAdvance, Ramp.index]
              exact if_neg (fun h => Bool.noConfusion (ht.symm.trans h))⟩)
        | release => exact .inr (.inr ⟨rfl, rfl, hc', rfl⟩)
      · rw [if_neg hc]
        exact .inl ⟨r, rfl, rfl, Nat.not_lt.1 hc, rfl⟩

/-- No call writes an envelope's configuration. -/
@[simp] theorem egStep_conf (c : Cfg) (rate : F64) (g : Envelope) : (egStep c rate g).eg.conf = g.conf := by
  rcases egStep_cases c rate g with ⟨-, h⟩ | ⟨_, -, -, h⟩ | ⟨_, -, -, -, h⟩ | ⟨_, _, -, -, -, -, h⟩ |
    ⟨-, -, -, -, h⟩ | ⟨-, -, -, h⟩ <;> rw [h] <;> rfl

@[simp] theorem egStart_conf (c : Cfg) (rate : F64) (g : Envelope) : (egStart c rate g).1.conf = g.conf := by
  rcases egStart_cases c rate g with ⟨-, h⟩ | ⟨-, h⟩ <;> (rw [h]; try rfl)

@[simp] theorem egRelease_conf (c : Cfg) (rate : F64) (g : Envelope) :
    (egRelease c rate g).conf = g.conf := by
  rcases egRelease_cases c rate g with ⟨-, h⟩ | ⟨-, h⟩ <;> (rw [h]; try rfl)

@[simp] theorem egInit_conf (g : Envelope) : (egInit g).conf = g.conf := rfl

/-! ### The envelope invariant (R28) -/

theorem Envelope.inv_of_not_fin {g : Envelope} (h : g.run.fin = false) : g.Inv := by
  intro h'; rw [h] at h'; cases h'

theorem egInit_inv (g : Envelope) : (egInit g).Inv := Envelope.inv_of_not_fin rfl

theorem egStart_inv (c : Cfg) (rate : F64) {g : Envelope} (h : g.Inv) : (egStart c rate g).1.Inv := by
  rcases egStart_cases c rate g with ⟨ho, e⟩ | ⟨-, e⟩ <;> rw [e]
  · apply Envelope.inv_of_not_fin
    by_contra hf
    have hf' : g.run.fin = true := by simpa using hf
    rw [(h hf').1] at ho; cases ho
  · exact h

theorem egRelease_inv (c : Cfg) (rate : F64) {g : Envelope} (h : g.Inv) : (egRelease c rate g).Inv := by
  rcases egRelease_cases c rate g with ⟨-, e⟩ | ⟨ho, e⟩ <;> rw [e]
  · exact h
  · apply Envelope.inv_of_not_fin
    by_contra hf
    have hf' : g.run.fin = true := by simpa using hf
    exact ho (h hf').1

theorem egStep_inv (c : Cfg) (rate : F64) {g : Envelope} (h : g.Inv) : (egStep c rate g).eg.Inv := by
  rcases egStep_cases c rate g with ⟨-, e⟩ | ⟨_, -, -, e⟩ | ⟨_, -, hf, -, e⟩ | ⟨_, _, -, hf, -, -, e⟩ |
    ⟨-, hf, -, -, e⟩ | ⟨hp, -, -, e⟩ <;> rw [e]
  · exact h
  · exact h
  · exact Envelope.inv_of_not_fin hf
  · exact Envelope.inv_of_not_fin hf
  · exact Envelope.inv_of_not_fin hf
  · exact fun _ => ⟨hp, rfl⟩

end Sys2Proof.Machine
end

