-- ==== Sys2Proof/Laws/Partial.lean ====
section
/-! SUPPORT. The laws of the partial engine: what feeding one sample changes, and what the catch-up loops and
the cursor keep. -/

namespace Sys2Proof.Machine

/-! ### Feeding one sample (R168) -/

/-- The registers no command but PE.INIT writes: the latched values and `ERR` (J4). -/
def PeRun.SameLatched (p q : PeRun) : Prop :=
  q.static = p.static ∧ q.smpIndex = p.smpIndex ∧ q.keyshift = p.keyshift ∧ q.keydiff = p.keydiff ∧
  q.endIdx = p.endIdx ∧ q.lstart = p.lstart ∧ q.lmode = p.lmode ∧ q.base = p.base ∧ q.svol = p.svol ∧
  q.err = p.err

theorem PeRun.SameLatched.refl (p : PeRun) : p.SameLatched p :=
  ⟨rfl, rfl, rfl, rfl, rfl, rfl, rfl, rfl, rfl, rfl⟩

theorem PeRun.SameLatched.trans {p q r : PeRun} (h : p.SameLatched q) (h' : q.SameLatched r) :
    p.SameLatched r := by
  obtain ⟨a1, a2, a3, a4, a5, a6, a7, a8, a9, a10⟩ := h
  obtain ⟨b1, b2, b3, b4, b5, b6, b7, b8, b9, b10⟩ := h'
  exact ⟨b1.trans a1, b2.trans a2, b3.trans a3, b4.trans a4, b5.trans a5, b6.trans a6, b7.trans a7,
    b8.trans a8, b9.trans a9, b10.trans a10⟩

theorem PeRun.SameLatched.endIdx {p q : PeRun} (h : p.SameLatched q) : q.endIdx = p.endIdx := h.2.2.2.2.1
theorem PeRun.SameLatched.lstart {p q : PeRun} (h : p.SameLatched q) : q.lstart = p.lstart := h.2.2.2.2.2.1
theorem PeRun.SameLatched.lmode {p q : PeRun} (h : p.SameLatched q) : q.lmode = p.lmode :=
  h.2.2.2.2.2.2.1
theorem PeRun.SameLatched.base {p q : PeRun} (h : p.SameLatched q) : q.base = p.base :=
  h.2.2.2.2.2.2.2.1

/-- The two runs agree on everything but the filter, `SMP` and `IDX`. -/
def PeRun.SameBut (p q : PeRun) : Prop :=
  p.SameLatched q ∧ q.pos = p.pos ∧ q.dir = p.dir ∧ q.term = p.term

theorem PeRun.SameBut.refl (p : PeRun) : p.SameBut p := ⟨.refl p, rfl, rfl, rfl⟩

theorem PeRun.SameBut.trans {p q r : PeRun} (h : p.SameBut q) (h' : q.SameBut r) : p.SameBut r :=
  ⟨h.1.trans h'.1, h'.2.1.trans h.2.1, h'.2.2.1.trans h.2.2.1, h'.2.2.2.trans h.2.2.2⟩

/-- All `feed` can do: fail as the read fails, or filter the sample read. -/
theorem feed_cases (c : Cfg) (wave : Memory F64) (p : PeRun) :
    (∃ f, waveRead wave p.base p.idx = .error f ∧ feed c wave p = .error f) ∨
    (∃ x, waveRead wave p.base p.idx = .ok x ∧ feed c wave p = .ok (smooth c p x)) := by
  unfold feed
  cases waveRead wave p.base p.idx with
  | error f => exact .inl ⟨f, rfl, rfl⟩
  | ok x => exact .inr ⟨x, rfl, rfl⟩

/-- Feeding changes the filter state and `SMP` only. -/
theorem feed_same {c : Cfg} {wave : Memory F64} {p q : PeRun} (h : feed c wave p = .ok q) :
    p.SameBut q ∧ q.idx = p.idx := by
  rcases feed_cases c wave p with ⟨f, -, e⟩ | ⟨x, -, e⟩ <;> rw [e] at h
  · cases h
  · cases h; exact ⟨⟨.refl _, rfl, rfl, rfl⟩, rfl⟩

/-- One index up does not wrap below `END`. -/
theorem idx_up {a b : BitVec 32} (h : a.toInt < b.toInt) : (a + 1#32).toInt = a.toInt + 1 := by
  have hb := b.toInt_lt
  have ha := a.le_toInt
  rw [BitVec.toInt_add]
  norm_num [Int.bmod] at *
  split <;> omega

/-- One index down does not wrap above `LSTART`. -/
theorem idx_down {a b : BitVec 32} (h : b.toInt < a.toInt) : (a - 1#32).toInt = a.toInt - 1 := by
  have hb := b.le_toInt
  have ha := a.toInt_lt
  rw [BitVec.toInt_sub]
  norm_num [Int.bmod] at *
  split <;> omega

/-! ### The catch-up loops (R167, R172) -/

/-- A forward round is taken below `END` only. -/
theorem trailsForward_lt {p : PeRun} (h : trailsForward p = true) : p.idx.toInt < p.endIdx.toInt := by
  simp only [trailsForward, Bool.and_eq_true, decide_eq_true_eq] at h
  exact h.2

/-- A backward round is taken above `LSTART` only. -/
theorem trailsBackward_lt {p : PeRun} (h : trailsBackward p = true) : p.lstart.toInt < p.idx.toInt := by
  simp only [trailsBackward, Bool.and_eq_true, decide_eq_true_eq] at h
  exact h.2

/-- What every forward round keeps, the forward loop keeps. -/
theorem forwardRounds_keeps {c : Cfg} {wave : Memory F64} {P : PeRun → Prop}
    (hP : ∀ p q, P p → trailsForward p = true → feed c wave { p with idx := p.idx + 1#32 } = .ok q → P q)
    (fuel : Nat) {p q : PeRun} (hp : P p) (h : forwardRounds c wave fuel p = .ok q) : P q := by
  induction fuel generalizing p with
  | zero => cases h; exact hp
  | succ n ih =>
    simp only [forwardRounds] at h
    split at h
    · next ht =>
      cases hf : feed c wave { p with idx := p.idx + 1#32 } with
      | error f => rw [hf] at h; cases h
      | ok p' => rw [hf] at h; exact ih (hP p p' hp ht hf) h
    · cases h; exact hp

/-- What every backward round keeps, the backward loop keeps. -/
theorem backwardRounds_keeps {c : Cfg} {wave : Memory F64} {P : PeRun → Prop}
    (hP : ∀ p q, P p → trailsBackward p = true → feed c wave { p with idx := p.idx - 1#32 } = .ok q → P q)
    (fuel : Nat) {p q : PeRun} (hp : P p) (h : backwardRounds c wave fuel p = .ok q) : P q := by
  induction fuel generalizing p with
  | zero => cases h; exact hp
  | succ n ih =>
    simp only [backwardRounds] at h
    split at h
    · next ht =>
      cases hf : feed c wave { p with idx := p.idx - 1#32 } with
      | error f => rw [hf] at h; cases h
      | ok p' => rw [hf] at h; exact ih (hP p p' hp ht hf) h
    · cases h; exact hp

/-- The forward loop ends: with fuel for every index up to `END` no round is left to take. -/
theorem forwardRounds_done {c : Cfg} {wave : Memory F64} (fuel : Nat) {p q : PeRun}
    (hfuel : p.endIdx.toInt - p.idx.toInt ≤ fuel) (h : forwardRounds c wave fuel p = .ok q) :
    trailsForward q = false := by
  induction fuel generalizing p with
  | zero =>
    cases h
    cases ht : trailsForward q with
    | false => rfl
    | true => have := trailsForward_lt ht; omega
  | succ n ih =>
    simp only [forwardRounds] at h
    split at h
    · next ht =>
      cases hf : feed c wave { p with idx := p.idx + 1#32 } with
      | error f => rw [hf] at h; cases h
      | ok p' =>
        rw [hf] at h
        have hs := feed_same hf
        have hu := idx_up (trailsForward_lt ht)
        apply ih _ h
        rw [hs.1.1.endIdx, hs.2]
        simp only
        omega
    · next ht => cases h; simpa using ht

/-- The backward loop ends: with fuel for every index down to `LSTART` no round is left to take. -/
theorem backwardRounds_done {c : Cfg} {wave : Memory F64} (fuel : Nat) {p q : PeRun}
    (hfuel : p.idx.toInt - p.lstart.toInt ≤ fuel) (h : backwardRounds c wave fuel p = .ok q) :
    trailsBackward q = false := by
  induction fuel generalizing p with
  | zero =>
    cases h
    cases ht : trailsBackward q with
    | false => rfl
    | true => have := trailsBackward_lt ht; omega
  | succ n ih =>
    simp only [backwardRounds] at h
    split at h
    · next ht =>
      cases hf : feed c wave { p with idx := p.idx - 1#32 } with
      | error f => rw [hf] at h; cases h
      | ok p' =>
        rw [hf] at h
        have hs := feed_same hf
        have hu := idx_down (trailsBackward_lt ht)
        apply ih _ h
        rw [hs.1.1.lstart, hs.2]
        simp only
        omega
    · next ht => cases h; simpa using ht

/-- All the forward catch-up can do: it changes the filter, `SMP` and `IDX` only, `IDX` rises and, unless it was
above `END` already, stays at or below it, and it stops where it need not go on. -/
theorem catchUpForward_spec {c : Cfg} {wave : Memory F64} {p q : PeRun}
    (h : catchUpForward c wave p = .ok q) :
    p.SameBut q ∧ p.idx.toInt ≤ q.idx.toInt ∧ q.idx.toInt ≤ max p.idx.toInt p.endIdx.toInt ∧
      trailsForward q = false := by
  have hd := forwardRounds_done _ (by omega) h
  have hk := forwardRounds_keeps (P := fun x => p.SameBut x ∧ p.idx.toInt ≤ x.idx.toInt ∧
    x.idx.toInt ≤ max p.idx.toInt p.endIdx.toInt) (c := c) (wave := wave) ?_ _ ⟨.refl p, by omega, by omega⟩ h
  · exact ⟨hk.1, hk.2.1, hk.2.2, hd⟩
  · rintro x y ⟨hx, hlo, hhi⟩ ht hf
    have hs := feed_same hf
    have hl := trailsForward_lt ht
    have hu := idx_up hl
    have he : x.endIdx = p.endIdx := hx.1.endIdx
    have hi : y.idx.toInt = x.idx.toInt + 1 := by rw [hs.2]; exact hu
    rw [he] at hl
    exact ⟨hx.trans hs.1, by omega, by omega⟩

/-- All the backward catch-up can do. -/
theorem catchUpBackward_spec {c : Cfg} {wave : Memory F64} {p q : PeRun}
    (h : catchUpBackward c wave p = .ok q) :
    p.SameBut q ∧ q.idx.toInt ≤ p.idx.toInt ∧ min p.idx.toInt p.lstart.toInt ≤ q.idx.toInt ∧
      trailsBackward q = false := by
  have hd := backwardRounds_done _ (by omega) h
  have hk := backwardRounds_keeps (P := fun x => p.SameBut x ∧ x.idx.toInt ≤ p.idx.toInt ∧
    min p.idx.toInt p.lstart.toInt ≤ x.idx.toInt) (c := c) (wave := wave) ?_ _ ⟨.refl p, by omega, by omega⟩ h
  · exact ⟨hk.1, hk.2.1, hk.2.2, hd⟩
  · rintro x y ⟨hx, hhi, hlo⟩ ht hf
    have hs := feed_same hf
    have hl := trailsBackward_lt ht
    have hu := idx_down hl
    have he : x.lstart = p.lstart := hx.1.lstart
    have hi : y.idx.toInt = x.idx.toInt - 1 := by rw [hs.2]; exact hu
    rw [he] at hl
    exact ⟨hx.trans hs.1, by omega, by omega⟩

/-! ### The cursor (R165, R166, R172) -/

/-- All a forward move can do: no crossing, or one of the three boundary rules. -/
theorem moveForward_cases {c : Cfg} {wave : Memory F64} {m : F64} {p q : PeRun}
    (h : moveForward c wave m p = .ok q) :
    ∃ p', catchUpForward c wave { p with pos := F64.add p.pos m } = .ok p' ∧
      ((F64.lt (endF p') p'.pos = false ∧ q = p') ∨
       (F64.lt (endF p') p'.pos = true ∧
        ((p'.lmode = .forwardLoop ∧ wrapForwardLoop c wave p' = .ok q) ∨
         (p'.lmode = .forwardBackward ∧ reverseAtEnd c wave p' = .ok q) ∨
         (p'.lmode = .forwardStop ∧ q = p'.setTerm)))) := by
  unfold moveForward at h
  cases hc : catchUpForward c wave { p with pos := F64.add p.pos m } with
  | error f => rw [hc] at h; cases h
  | ok p' =>
    rw [hc] at h
    refine ⟨p', rfl, ?_⟩
    cases hl : F64.lt (endF p') p'.pos with
    | false => simp only [hl] at h; cases h; exact .inl ⟨rfl, rfl⟩
    | true =>
      refine .inr ⟨rfl, ?_⟩
      simp only [hl, if_true, crossEnd] at h
      cases hm : p'.lmode with
      | forwardLoop => rw [hm] at h; exact .inl ⟨rfl, h⟩
      | forwardBackward => rw [hm] at h; exact .inr (.inl ⟨rfl, h⟩)
      | forwardStop => rw [hm] at h; cases h; exact .inr (.inr ⟨rfl, rfl⟩)

/-- All a backward move can do: no crossing, or the turn at the loop start. -/
theorem moveBackward_cases {c : Cfg} {wave : Memory F64} {m : F64} {p q : PeRun}
    (h : moveBackward c wave m p = .ok q) :
    ∃ p', catchUpBackward c wave { p with pos := F64.sub p.pos m } = .ok p' ∧
      ((F64.lt p'.pos (lstartF p') = false ∧ q = p') ∨
       (F64.lt p'.pos (lstartF p') = true ∧ reverseAtLoopStart c wave p' = .ok q)) := by
  unfold moveBackward at h
  cases hc : catchUpBackward c wave { p with pos := F64.sub p.pos m } with
  | error f => rw [hc] at h; cases h
  | ok p' =>
    rw [hc] at h
    refine ⟨p', rfl, ?_⟩
    cases hl : F64.lt p'.pos (lstartF p') with
    | false => simp only [hl] at h; cases h; exact .inl ⟨rfl, rfl⟩
    | true => simp only [hl, if_true] at h; exact .inr ⟨rfl, h⟩

/-- Moving the cursor keeps the latched values and `ERR`, and never clears `TERM`. -/
theorem moveCursor_latched {c : Cfg} {wave : Memory F64} {m : F64} {p q : PeRun}
    (h : moveCursor c wave m p = .ok q) : p.SameLatched q ∧ (p.term = true → q.term = true) := by
  unfold moveCursor at h
  split at h
  · obtain ⟨p', hp, ⟨-, hq⟩ | ⟨-, hq⟩⟩ := moveBackward_cases h
    · have hs := (catchUpBackward_spec hp).1
      subst hq
      exact ⟨hs.1, fun ht => hs.2.2.2.trans ht⟩
    · have hs := (catchUpBackward_spec hp).1
      have hs' := (catchUpForward_spec hq).1
      exact ⟨hs.1.trans hs'.1, fun ht => hs'.2.2.2.trans (hs.2.2.2.trans ht)⟩
  · obtain ⟨p', hp, ⟨-, hq⟩ | ⟨-, ⟨-, hq⟩ | ⟨-, hq⟩ | ⟨-, hq⟩⟩⟩ := moveForward_cases h
    · have hs := (catchUpForward_spec hp).1
      subst hq
      exact ⟨hs.1, fun ht => hs.2.2.2.trans ht⟩
    · have hs := (catchUpForward_spec hp).1
      have hs' := (catchUpForward_spec hq).1
      exact ⟨hs.1.trans hs'.1, fun ht => hs'.2.2.2.trans (hs.2.2.2.trans ht)⟩
    · have hs := (catchUpForward_spec hp).1
      have hs' := (catchUpBackward_spec hq).1
      exact ⟨hs.1.trans hs'.1, fun ht => hs'.2.2.2.trans (hs.2.2.2.trans ht)⟩
    · have hs := (catchUpForward_spec hp).1
      subst hq
      exact ⟨hs.1, fun _ => rfl⟩

/-! ### The commands -/

/-- The envelopes of a voice after `stepEnvelopes`: each one stepped, nothing else changed (R162). -/
theorem stepEnvelopes_voice (c : Cfg) (v : Voice) :
    (stepEnvelopes c v).1 =
      { v with
        eg := ((v.eg.set 0 (egStep c v.pe.sampleRate (v.getEg 0)).eg).set 1
          (egStep c v.pe.sampleRate (v.getEg 1)).eg).set 2 (egStep c v.pe.sampleRate (v.getEg 2)).eg } := rfl

/-- Envelope k after `stepEnvelopes`. -/
theorem stepEnvelopes_getEg (c : Cfg) (v : Voice) (k : Fin 3) :
    (stepEnvelopes c v).1.getEg k = (egStep c v.pe.sampleRate (v.getEg k)).eg := by
  fin_cases k <;> simp [stepEnvelopes, Voice.getEg_setEg]

/-- All `PE.STEP` can do to its voice when it completes: nothing (unusable or terminated), set `TERM`, or step
the envelopes and move the cursor (R160, R161). -/
theorem peStep_cases {c : Cfg} {wave : Memory F64} {b : Bus} {v : Voice} {r : Reply}
    (h : peStep c wave b v = .ok r) :
    (v.ps.err = true ∧ r = b.report v .peUnusable) ∨
    (v.ps.err = false ∧ v.ps.term = true ∧ r = b.done v) ∨
    (v.ps.err = false ∧ v.ps.term = false ∧ (v.getEg 2).run.fin = true ∧
      r = b.done { v with ps := v.ps.setTerm }) ∨
    (v.ps.err = false ∧ v.ps.term = false ∧ (v.getEg 2).run.fin = false ∧
      ∃ p, moveCursor c wave (multiplier c v.pe v.ps.static (stepEnvelopes c v).2.1) v.ps = .ok p ∧
        ((p.term = true ∧
          r = b.report { (stepEnvelopes c v).1 with ps := p } (stepEnvelopes c v).2.2.2.2) ∨
         (p.term = false ∧
          r = mixFrame c b { (stepEnvelopes c v).1 with ps := p } (stepEnvelopes c v).2.2.2.1
            (stepEnvelopes c v).2.2.2.2))) := by
  unfold peStep at h
  cases he : v.ps.err with
  | true => simp only [he, if_true] at h; cases h; exact .inl ⟨rfl, rfl⟩
  | false =>
    rw [he, if_neg Bool.false_ne_true] at h
    right
    cases ht : v.ps.term with
    | true => rw [ht] at h; cases h; exact .inl ⟨rfl, rfl, rfl⟩
    | false =>
      rw [ht, if_neg Bool.false_ne_true] at h
      right
      cases hf : (v.getEg 2).run.fin with
      | true => rw [hf] at h; cases h; exact .inl ⟨rfl, rfl, rfl, rfl⟩
      | false =>
        rw [hf, if_neg Bool.false_ne_true] at h
        refine .inr ⟨rfl, rfl, rfl, ?_⟩
        unfold peFrame at h
        cases hm : moveCursor c wave (multiplier c v.pe v.ps.static (stepEnvelopes c v).2.1) v.ps with
        | error f => simp only [hm] at h; cases h
        | ok p =>
          refine ⟨p, rfl, ?_⟩
          simp only [hm] at h
          cases hp : p.term with
          | true => simp only [hp, if_true] at h; cases h; exact .inl ⟨rfl, rfl⟩
          | false => simp only [hp] at h; cases h; exact .inr ⟨rfl, rfl⟩

/-- All `PE.STOP` can do (R185). -/
theorem peStop_cases (c : Cfg) (b : Bus) (v : Voice) :
    (v.ps.err = true ∧ peStop c b v = b.report v .peUnusable) ∨
    (v.ps.err = false ∧ v.pe.drum = true ∧ v.pe.drumRxNoteoff = false ∧ peStop c b v = b.done v) ∨
    (v.ps.err = false ∧ ¬ (v.pe.drum = true ∧ v.pe.drumRxNoteoff = false) ∧
      peStop c b v = b.done { v with eg := v.eg.map (egRelease c v.pe.sampleRate) }) := by
  unfold peStop
  cases v.ps.err with
  | true => exact .inl ⟨rfl, rfl⟩
  | false =>
    rw [if_neg Bool.false_ne_true]
    by_cases hd : v.pe.drum = true ∧ v.pe.drumRxNoteoff = false
    · exact .inr (.inl ⟨rfl, hd.1, hd.2, if_pos hd⟩)
    · exact .inr (.inr ⟨rfl, hd, if_neg hd⟩)

end Sys2Proof.Machine
end

