-- ==== Sys2Proof/Laws/Cursor.lean ====
section
/-! SUPPORT. The cursor invariant under a move, and that a move of a cursor inside a backed sample reads only
that sample and completes (R164, R175). -/

namespace Sys2Proof.Machine

/-- J1 and J2: the loop start, the index and the end in their order. -/
def PeRun.InRange (p : PeRun) : Prop :=
  (0 ≤ p.lstart.toInt ∧ p.lstart.toInt ≤ p.endIdx.toInt) ∧ (-1 ≤ p.idx.toInt ∧ p.idx.toInt ≤ p.endIdx.toInt)

theorem PeRun.Inv.inRange {p : PeRun} (h : p.Inv) : p.InRange := ⟨h.1, h.2.1⟩

theorem PeRun.inv_of_forward {p : PeRun} (h : p.InRange) (hd : p.dir = false) : p.Inv := by
  refine ⟨h.1, h.2, fun h' => ?_, fun h' => ?_⟩ <;> (rw [hd] at h'; cases h')

theorem catchUpForward_inRange {c : Cfg} {wave : Memory F64} {p q : PeRun} (hp : p.InRange)
    (h : catchUpForward c wave p = .ok q) : q.InRange := by
  obtain ⟨hs, h1, h2, -⟩ := catchUpForward_spec h
  have he := hs.1.endIdx
  have hl := hs.1.lstart
  obtain ⟨⟨a, b⟩, d, e⟩ := hp
  unfold PeRun.InRange
  rw [he, hl]
  omega

theorem catchUpBackward_inRange {c : Cfg} {wave : Memory F64} {p q : PeRun} (hp : p.InRange)
    (h : catchUpBackward c wave p = .ok q) : q.InRange := by
  obtain ⟨hs, h1, h2, -⟩ := catchUpBackward_spec h
  have he := hs.1.endIdx
  have hl := hs.1.lstart
  obtain ⟨⟨a, b⟩, d, e⟩ := hp
  unfold PeRun.InRange
  rw [he, hl]
  omega

/-- A position past an s32 boundary, an infinite one too, is rounded to no less than the boundary. -/
theorem posRound_of_lt {i : Int} {x : F64} (hi : i.natAbs < 2 ^ 53) (hi' : i ≤ 2 ^ 31 - 1)
    (h : F64.lt (F64.ofInt i) x = true) : ∃ n, posRound x = some n ∧ i ≤ n := by
  have hl := h
  simp only [F64.lt, Bool.and_eq_true, Bool.not_eq_true', decide_eq_true_eq] at hl
  obtain ⟨⟨hin, hn⟩, hk⟩ := hl
  cases hx : F64.isInf x with
  | false => exact ⟨F64.rha x, by simp [posRound, hn, hx], le_rha_of_lt hi h⟩
  | true =>
    cases hs : F64.sign x with
    | false => exact ⟨_, by simp [posRound, hn, hx, hs]; rfl, le_trans hi' (le_max_left _ _)⟩
    | true =>
      simp only [F64.isInf, decide_eq_true_eq] at hx
      simp only [F64.isNaN, decide_eq_false_iff_not] at hin
      simp only [F64.key, hs, hx, if_true] at hk
      split at hk <;> omega

/-- After the forward catch-up of a position past `END`, `IDX` is `END` (R170). -/
theorem catchUpForward_at_end {c : Cfg} {wave : Memory F64} {p q : PeRun} (hp : p.InRange)
    (h : catchUpForward c wave p = .ok q) (hl : F64.lt (endF q) q.pos = true) :
    q.idx.toInt = q.endIdx.toInt := by
  obtain ⟨-, -, -, hd⟩ := catchUpForward_spec h
  obtain ⟨⟨a, b⟩, d, e⟩ := catchUpForward_inRange hp h
  have hlt := q.endIdx.toInt_lt
  norm_num at hlt
  obtain ⟨n, hn, hr⟩ := posRound_of_lt (by omega) (by omega) hl
  simp only [trailsForward, hn, Bool.and_eq_false_iff, decide_eq_false_iff_not] at hd
  omega

/-- A move keeps the cursor invariant (R175). -/
theorem moveCursor_inv {c : Cfg} {wave : Memory F64} {m : F64} {p q : PeRun} (hp : p.Inv)
    (h : moveCursor c wave m p = .ok q) : q.Inv := by
  have hr := hp.inRange
  obtain ⟨-, -, hdl, hdi⟩ := hp
  unfold moveCursor at h
  split at h
  · next hd =>
    obtain ⟨p', hp', ⟨-, hq⟩ | ⟨-, hq⟩⟩ := moveBackward_cases h
    · subst hq
      have hr' := catchUpBackward_inRange (p := { p with pos := F64.sub p.pos m }) hr hp'
      obtain ⟨hs, -, hlo, -⟩ := catchUpBackward_spec hp'
      refine ⟨hr'.1, hr'.2, fun _ => ?_, fun _ => ?_⟩
      · rw [hs.1.lmode]; exact hdl hd
      · have := hdi hd
        rw [hs.1.lstart]
        simp only at hlo ⊢
        omega
    · have hr' := catchUpBackward_inRange (p := { p with pos := F64.sub p.pos m }) hr hp'
      unfold reverseAtLoopStart at hq
      have hr2 := catchUpForward_inRange (by exact hr') hq
      have hs := (catchUpForward_spec hq).1
      have hdir : q.dir = false := hs.2.2.1
      exact PeRun.inv_of_forward hr2 hdir
  · next hd =>
    have hd : p.dir = false := by simpa using hd
    obtain ⟨p', hp', hc⟩ := moveForward_cases h
    have hr' := catchUpForward_inRange (p := { p with pos := F64.add p.pos m }) hr hp'
    have hs := (catchUpForward_spec hp').1
    have hdir : p'.dir = false := hs.2.2.1.trans hd
    rcases hc with ⟨-, rfl⟩ | ⟨hl, ⟨-, hq⟩ | ⟨hm, hq⟩ | ⟨-, rfl⟩⟩
    · exact PeRun.inv_of_forward hr' hdir
    · unfold wrapForwardLoop at hq
      have hr1 : PeRun.InRange
          { p' with pos := F64.add (lstartF p') (F64.sub p'.pos (endF p')), idx := p'.lstart } :=
        ⟨hr'.1, by have := hr'.1; simp only; omega, hr'.1.2⟩
      have hr2 := catchUpForward_inRange hr1 hq
      have hs2 := (catchUpForward_spec hq).1
      have hdir2 : q.dir = false := hs2.2.2.1.trans hdir
      exact PeRun.inv_of_forward hr2 hdir2
    · unfold reverseAtEnd at hq
      have hr2 := catchUpBackward_inRange (by exact hr') hq
      obtain ⟨hs2, -, hlo, -⟩ := catchUpBackward_spec hq
      refine ⟨hr2.1, hr2.2, fun _ => ?_, fun _ => ?_⟩
      · rw [hs2.1.lmode]; exact hm
      · have hend := catchUpForward_at_end (p := { p with pos := F64.add p.pos m }) hr hp' hl
        rw [hs2.1.lstart]
        have := hr'.1
        simp only [PeRun.setDir] at hlo ⊢
        omega
    · exact PeRun.inv_of_forward hr' hdir

/-- Two stores that agree on the sample of `p`. -/
def PeRun.SameSample (w1 w2 : Memory F64) (p : PeRun) : Prop :=
  ∀ i : Int, 0 ≤ i → i ≤ p.endIdx.toInt →
    Memory.read w1 ((p.base.toNat : Int) + i).toNat = Memory.read w2 ((p.base.toNat : Int) + i).toNat

/-- A feed inside the sample reads only the sample. -/
theorem feed_sameSample {c : Cfg} {w1 w2 : Memory F64} {p : PeRun} (h : p.SameSample w1 w2)
    (h0 : 0 ≤ p.idx.toInt) (h1 : p.idx.toInt ≤ p.endIdx.toInt) : feed c w1 p = feed c w2 p := by
  have := h p.idx.toInt h0 h1
  simp only [feed, waveRead, this]

/-- A feed inside a backed sample completes. -/
theorem feed_backed {c : Cfg} {wave : Memory F64} {p : PeRun} (h : p.Backed wave) (h0 : 0 ≤ p.idx.toInt)
    (h1 : p.idx.toInt ≤ p.endIdx.toInt) : ∃ q, feed c wave p = .ok q := by
  obtain ⟨ha, hb⟩ := h p.idx.toInt h0 h1
  obtain ⟨x, hx⟩ := Option.isSome_iff_exists.1 hb
  have hn : (0 : Int) ≤ p.base.toNat := by omega
  have := waveRead_ok (by omega) ha hx
  exact ⟨smooth c p x, by unfold feed; rw [this]⟩

/-- A property of a sample that moving the index keeps. -/
theorem PeRun.Backed.of_same {wave : Memory F64} {p q : PeRun} (h : p.Backed wave) (hs : p.SameLatched q) :
    q.Backed wave := by
  unfold PeRun.Backed
  rw [hs.endIdx, hs.base]
  exact h

theorem PeRun.SameSample.of_same {w1 w2 : Memory F64} {p q : PeRun} (h : p.SameSample w1 w2)
    (hs : p.SameLatched q) : q.SameSample w1 w2 := by
  unfold PeRun.SameSample
  rw [hs.endIdx, hs.base]
  exact h

theorem forwardRounds_sameSample {c : Cfg} {w1 w2 : Memory F64} (fuel : Nat) {p : PeRun} (hr : p.InRange)
    (h : p.SameSample w1 w2) : forwardRounds c w1 fuel p = forwardRounds c w2 fuel p := by
  induction fuel generalizing p with
  | zero => rfl
  | succ n ih =>
    simp only [forwardRounds]
    split
    · next ht =>
      have hl := trailsForward_lt ht
      have hu := idx_up hl
      have hf : feed c w1 { p with idx := p.idx + 1#32 } = feed c w2 { p with idx := p.idx + 1#32 } :=
        feed_sameSample h (by have := hr.2; simp only; omega) (by simp only; omega)
      rw [hf]
      cases hq : feed c w2 { p with idx := p.idx + 1#32 } with
      | error f => rfl
      | ok q =>
        have hs := feed_same hq
        have hi : q.idx.toInt = p.idx.toInt + 1 := by rw [hs.2]; exact hu
        refine ih ?_ (h.of_same hs.1.1)
        have h1 : q.endIdx = p.endIdx := hs.1.1.endIdx
        have h2 : q.lstart = p.lstart := hs.1.1.lstart
        have := hr.1
        have := hr.2
        unfold PeRun.InRange
        rw [h1, h2]
        omega
    · rfl

theorem backwardRounds_sameSample {c : Cfg} {w1 w2 : Memory F64} (fuel : Nat) {p : PeRun} (hr : p.InRange)
    (h : p.SameSample w1 w2) : backwardRounds c w1 fuel p = backwardRounds c w2 fuel p := by
  induction fuel generalizing p with
  | zero => rfl
  | succ n ih =>
    simp only [backwardRounds]
    split
    · next ht =>
      have hl := trailsBackward_lt ht
      have hu := idx_down hl
      have hr1 := hr.1
      have hr2 := hr.2
      have hf : feed c w1 { p with idx := p.idx - 1#32 } = feed c w2 { p with idx := p.idx - 1#32 } :=
        feed_sameSample h (by simp only; omega) (by simp only; omega)
      rw [hf]
      cases hq : feed c w2 { p with idx := p.idx - 1#32 } with
      | error f => rfl
      | ok q =>
        have hs := feed_same hq
        have hi : q.idx.toInt = p.idx.toInt - 1 := by rw [hs.2]; exact hu
        refine ih ?_ (h.of_same hs.1.1)
        have h1 : q.endIdx = p.endIdx := hs.1.1.endIdx
        have h2 : q.lstart = p.lstart := hs.1.1.lstart
        unfold PeRun.InRange
        rw [h1, h2]
        omega
    · rfl

theorem forwardRounds_backed {c : Cfg} {wave : Memory F64} (fuel : Nat) {p : PeRun} (hr : p.InRange)
    (h : p.Backed wave) : ∃ q, forwardRounds c wave fuel p = .ok q := by
  induction fuel generalizing p with
  | zero => exact ⟨p, rfl⟩
  | succ n ih =>
    simp only [forwardRounds]
    split
    · next ht =>
      have hl := trailsForward_lt ht
      have hu := idx_up hl
      have hr1 := hr.1
      have hr2 := hr.2
      obtain ⟨q, hq⟩ := feed_backed (c := c) (p := { p with idx := p.idx + 1#32 }) h
        (by simp only; omega) (by simp only; omega)
      rw [hq]
      have hs := feed_same hq
      have hi : q.idx.toInt = p.idx.toInt + 1 := by rw [hs.2]; exact hu
      refine ih ?_ (h.of_same hs.1.1)
      have h1 : q.endIdx = p.endIdx := hs.1.1.endIdx
      have h2 : q.lstart = p.lstart := hs.1.1.lstart
      unfold PeRun.InRange
      rw [h1, h2]
      omega
    · exact ⟨p, rfl⟩

theorem backwardRounds_backed {c : Cfg} {wave : Memory F64} (fuel : Nat) {p : PeRun} (hr : p.InRange)
    (h : p.Backed wave) : ∃ q, backwardRounds c wave fuel p = .ok q := by
  induction fuel generalizing p with
  | zero => exact ⟨p, rfl⟩
  | succ n ih =>
    simp only [backwardRounds]
    split
    · next ht =>
      have hl := trailsBackward_lt ht
      have hu := idx_down hl
      have hr1 := hr.1
      have hr2 := hr.2
      obtain ⟨q, hq⟩ := feed_backed (c := c) (p := { p with idx := p.idx - 1#32 }) h
        (by simp only; omega) (by simp only; omega)
      rw [hq]
      have hs := feed_same hq
      have hi : q.idx.toInt = p.idx.toInt - 1 := by rw [hs.2]; exact hu
      refine ih ?_ (h.of_same hs.1.1)
      have h1 : q.endIdx = p.endIdx := hs.1.1.endIdx
      have h2 : q.lstart = p.lstart := hs.1.1.lstart
      unfold PeRun.InRange
      rw [h1, h2]
      omega
    · exact ⟨p, rfl⟩

end Sys2Proof.Machine
end

