-- ==== Sys2Proof/Laws/Memory.lean ====
section
/-! SUPPORT. The laws of the two read-only memories: the host's load keeps the canonical form, a loaded object
reads back, and every other name reads as before. -/

namespace Sys2Proof.Machine

variable {α : Type}

/-- A loaded object reads as loaded, every other name as before the load. -/
theorem Memory.read_load (m : Memory α) (a b : Nat) (x : α) :
    Memory.read (Memory.load m a x) b = if b = a then some x else Memory.read m b := by
  induction m with
  | nil => simp [Memory.load, Memory.read]
  | cons c rest ih =>
    obtain ⟨n, y⟩ := c
    simp only [Memory.load]
    split
    · simp [Memory.read]
    · split
      · next h1 h2 =>
        subst h2
        simp only [Memory.read]
        split <;> rfl
      · next h1 h2 =>
        simp only [Memory.read, ih]
        split
        · next h => simp [h, Ne.symm h2]
        · rfl

/-- Names from a higher bound are names from a lower one. -/
theorem Memory.wfFrom_mono {lo hi : Nat} (h : lo ≤ hi) (m : Memory α) (hm : Memory.wfFrom hi m = true) :
    Memory.wfFrom lo m = true := by
  cases m with
  | nil => rfl
  | cons c rest =>
    obtain ⟨n, y⟩ := c
    simp only [Memory.wfFrom, Bool.and_eq_true, decide_eq_true_eq] at hm ⊢
    exact ⟨by omega, hm.2⟩

/-- A load keeps the names strictly rising. -/
theorem Memory.wfFrom_load (m : Memory α) (lo a : Nat) (x : α) (hlo : lo ≤ a)
    (hm : Memory.wfFrom lo m = true) : Memory.wfFrom lo (Memory.load m a x) = true := by
  induction m generalizing lo with
  | nil => simp [Memory.load, Memory.wfFrom, hlo]
  | cons c rest ih =>
    obtain ⟨n, y⟩ := c
    simp only [Memory.wfFrom, Bool.and_eq_true, decide_eq_true_eq] at hm
    simp only [Memory.load]
    split
    · next h =>
      simp only [Memory.wfFrom, Bool.and_eq_true, decide_eq_true_eq]
      exact ⟨hlo, by omega, hm.2⟩
    · split
      · next h1 h2 =>
        subst h2
        simp only [Memory.wfFrom, Bool.and_eq_true, decide_eq_true_eq]
        exact hm
      · next h1 h2 =>
        simp only [Memory.wfFrom, Bool.and_eq_true, decide_eq_true_eq]
        exact ⟨hm.1, ih (n + 1) (by omega) hm.2⟩

/-- A load of a name inside the space keeps every name inside it. -/
theorem Memory.all_load (m : Memory α) (size a : Nat) (x : α) (ha : a < size)
    (hm : m.all (fun c => decide (c.1 < size)) = true) :
    (Memory.load m a x).all (fun c => decide (c.1 < size)) = true := by
  induction m with
  | nil => simp [Memory.load, ha]
  | cons c rest ih =>
    obtain ⟨n, y⟩ := c
    simp only [List.all_cons, Bool.and_eq_true, decide_eq_true_eq] at hm
    simp only [Memory.load]
    split
    · simp only [List.all_cons, Bool.and_eq_true, decide_eq_true_eq]; exact ⟨ha, hm.1, hm.2⟩
    · split
      · simp only [List.all_cons, Bool.and_eq_true, decide_eq_true_eq]; exact ⟨ha, hm.2⟩
      · simp only [List.all_cons, Bool.and_eq_true, decide_eq_true_eq]; exact ⟨hm.1, ih hm.2⟩

/-- The host's load keeps the canonical form. -/
theorem Memory.wf_load (m : Memory α) (size a : Nat) (x : α) (ha : a < size)
    (hm : Memory.wf size m = true) : Memory.wf size (Memory.load m a x) = true := by
  simp only [Memory.wf, Bool.and_eq_true] at hm ⊢
  exact ⟨Memory.wfFrom_load m 0 a x (Nat.zero_le a) hm.1, Memory.all_load m size a x ha hm.2⟩

/-- Every name is inside the space of a canonical memory, so no other name is backed. -/
theorem Memory.read_eq_none_of_le {size : Nat} {m : Memory α} (hm : Memory.wf size m = true) {a : Nat}
    (ha : size ≤ a) : Memory.read m a = none := by
  simp only [Memory.wf, Bool.and_eq_true] at hm
  have h := hm.2
  clear hm
  induction m with
  | nil => rfl
  | cons c rest ih =>
    obtain ⟨n, y⟩ := c
    simp only [List.all_cons, Bool.and_eq_true, decide_eq_true_eq] at h
    simp only [Memory.read]
    rw [if_neg (by omega), ih h.2]

/-- A read below every listed name finds nothing. -/
theorem Memory.read_of_lt {lo : Nat} {m : Memory α} (hm : Memory.wfFrom lo m = true) {a : Nat}
    (ha : a < lo) : Memory.read m a = none := by
  induction m generalizing lo with
  | nil => rfl
  | cons c rest ih =>
    obtain ⟨n, y⟩ := c
    simp only [Memory.wfFrom, Bool.and_eq_true, decide_eq_true_eq] at hm
    simp only [Memory.read]
    rw [if_neg (by omega), ih hm.2 (by omega)]

/-- Canonical memories that read alike are equal lists. -/
theorem Memory.ext_of_read {lo : Nat} {m m' : Memory α} (hm : Memory.wfFrom lo m = true)
    (hm' : Memory.wfFrom lo m' = true) (h : ∀ a, Memory.read m a = Memory.read m' a) : m = m' := by
  induction m generalizing lo m' with
  | nil =>
    cases m' with
    | nil => rfl
    | cons c' r' => have := h c'.1; simp [Memory.read] at this
  | cons c rest ih =>
    obtain ⟨n, y⟩ := c
    cases m' with
    | nil => have := h n; simp [Memory.read] at this
    | cons c' r' =>
      obtain ⟨n', y'⟩ := c'
      simp only [Memory.wfFrom, Bool.and_eq_true, decide_eq_true_eq] at hm hm'
      have hn : n = n' := by
        rcases Nat.lt_trichotomy n n' with hlt | heq | hgt
        · have := h n
          simp only [Memory.read, if_true] at this
          rw [if_neg (by omega), Memory.read_of_lt hm'.2 (by omega)] at this
          simp at this
        · exact heq
        · have := h n'
          simp only [Memory.read, if_true] at this
          rw [if_neg (by omega), Memory.read_of_lt hm.2 (by omega)] at this
          simp at this
      subst hn
      have hy := h n
      simp only [Memory.read, if_true, Option.some.injEq] at hy
      subst hy
      have hr : rest = r' := by
        apply ih hm.2 hm'.2
        intro a
        by_cases ha : a = n
        · subst ha
          rw [Memory.read_of_lt hm.2 (by omega), Memory.read_of_lt hm'.2 (by omega)]
        · have := h a
          simpa only [Memory.read, if_neg ha] using this
      rw [hr]

/-- Reset memory is canonical. -/
theorem Memory.wf_reset :
    Memory.wf waveSize State.reset.wave = true ∧ Memory.wf srecSize State.reset.srec = true := ⟨rfl, rfl⟩

end Sys2Proof.Machine
end

