-- ==== Sys2Proof/Tests/Slice0.lean ====
section
/-! SUPPORT. The model's own tests: well-formedness, words written out from the tables of 30_encoding.md, single
steps with the values of 95_test_vectors.md, and a witness for the hypotheses of every statement. -/

namespace Sys2Proof.Tests

open Sys2Proof Sys2Proof.Machine

/-! ### Well-formedness (R83) -/

theorem test_wf_egInit_refused : Instr.wf (.egInit 3#4) = false := by decide
theorem test_wf_egStart_refused : Instr.wf (.egStart 15#4) = false := by decide
theorem test_wf_egRelease_refused : Instr.wf (.egRelease 4#4) = false := by decide
theorem test_wf_egStep_refused : Instr.wf (.egStep 3#4) = false := by decide
theorem test_wf_accepted : Instr.wf (.egStep 2#4) = true ∧ Instr.wf (.wr 15#4 255#8) = true := by decide

/-! ### Words written out field by field: OP, SEL, REG, ZERO (R82, R85) -/

theorem test_decode_nop : decode (0b0000#4 ++ (0b0000#4 ++ (0b00000000#8 ++ 0#16))) = .ok .nop := by decide
theorem test_decode_wr :
    decode (0b0001#4 ++ (0b0010#4 ++ (0b00001000#8 ++ 0#16))) = .ok (.wr 2#4 8#8) := by decide
theorem test_decode_rd :
    decode (0b0010#4 ++ (0b1010#4 ++ (0b00000010#8 ++ 0#16))) = .ok (.rd 10#4 2#8) := by decide
theorem test_decode_egInit :
    decode (0b0100#4 ++ (0b0001#4 ++ (0b00000000#8 ++ 0#16))) = .ok (.egInit 1#4) := by decide
theorem test_decode_egStart :
    decode (0b0101#4 ++ (0b0010#4 ++ (0b00000000#8 ++ 0#16))) = .ok (.egStart 2#4) := by decide
theorem test_decode_egRelease :
    decode (0b0110#4 ++ (0b0000#4 ++ (0b00000000#8 ++ 0#16))) = .ok (.egRelease 0#4) := by decide
theorem test_decode_egStep :
    decode (0b0111#4 ++ (0b0010#4 ++ (0b00000000#8 ++ 0#16))) = .ok (.egStep 2#4) := by decide
theorem test_decode_peInit :
    decode (0b1000#4 ++ (0b0000#4 ++ (0b00000000#8 ++ 0#16))) = .ok .peInit := by decide
theorem test_decode_peStep :
    decode (0b1001#4 ++ (0b0000#4 ++ (0b00000000#8 ++ 0#16))) = .ok .peStep := by decide
theorem test_decode_peStop :
    decode (0b1010#4 ++ (0b0000#4 ++ (0b00000000#8 ++ 0#16))) = .ok .peStop := by decide

/-- V-RA12..V-RA17 of 95_test_vectors.md. -/
theorem test_decode_illegal :
    decode 0x30000000#32 = .error .reservedOp ∧ decode 0x00000001#32 = .error .zeroField ∧
    decode 0x73000000#32 = .error .selField ∧ decode 0x91000000#32 = .error .selField ∧
    decode 0x41010000#32 = .error .regField ∧ decode 0xF0000000#32 = .error .reservedOp := by decide

/-- The host's numbering of a row's bits: the whole word, bit 0 the least significant. -/
theorem test_decodeTableWord :
    decodeTableWord 32 0x72000000 = some (.egStep 2#4) ∧ decodeTableWord 32 0x30000000 = none := by decide

/-! ### A small machine -/

/-- ROM-T of 95_test_vectors.md: 0.0, 0.5, 1.0, 0.5, 0.0, -0.5, -1.0, -0.5 from word 100. -/
def romWave : Memory F64 :=
  [(100, 0#64), (101, 0x3FE0000000000000#64), (102, 0x3FF0000000000000#64), (103, 0x3FE0000000000000#64),
    (104, 0#64), (105, 0xBFE0000000000000#64), (106, 0xBFF0000000000000#64), (107, 0xBFE0000000000000#64)]

/-- Records 0 and 3 of ROM-T. -/
def romSrec : Memory SampleRecord :=
  [(0, { rootKey := 60#7, sampleLen := 8#32, loopLen := 0#32, loopMode := 2#2, fineCents := 0#64,
         volume := 127#7, base := 100#32 }),
    (3, { rootKey := 60#7, sampleLen := 8#32, loopLen := 8#32, loopMode := 0#2, fineCents := 0#64,
          volume := 100#7, base := 100#32 })]

/-- CFG-T of 95_test_vectors.md, with functions that have the five properties of R12 at the arguments used. -/
def testCfg : Cfg where
  extraVoices := 0
  extraBp := 3
  bpSentinel := 127#7
  smpUnset := 0xFFFF#16
  keydiffShift := false
  lpfB0 := F64.one
  lpfB1 := 0#64
  lpfB2 := 0#64
  lpfA1 := 0#64
  lpfA2 := 0#64
  pitchEnvRatio := fun _ => F64.one
  pow2Open := fun _ => F64.one
  lnOpen := fun _ => F64.one
  expOpen := fun _ => F64.one

/-- An envelope in a ramp: targets 1.0, lengths 4, no key. -/
def ramp (r : Ramp) (cnt : BitVec 32) : Envelope where
  conf := { EgConfig.reset with
            tgt := Vector.replicate 5 0x3FF0000000000000#64
            key := 0xFF#8, ctlA := 64#7, ctlD := 64#7, ctlR := 64#7 }
  run := { phase := .ramp r, cnt := cnt, len := 4#32, entry := 0#64, cur := 0x3FE0000000000000#64, fin := false }

/-- An envelope that has finished. -/
def finished : Envelope where
  conf := EgConfig.reset
  run := { phase := .ramp .release, cnt := 5#32, len := 4#32, entry := 0#64, cur := 0#64, fin := true }

/-- A held Sustain with a target that is not 0, past its length. -/
def held : Envelope := ramp .sustain 5#32

/-- A Sustain with a target of 0, past its length. -/
def sustainZero : Envelope :=
  { conf := { EgConfig.reset with key := 0x7F#8 }, run := (ramp .sustain 5#32).run }

/-- A voice just reset, with four break-points. -/
def fresh : Voice := Voice.reset 4

/-- A voice whose envelopes are all `g`. -/
def withEg (g : Envelope) : Voice := { fresh with eg := Vector.replicate 3 g }

/-- A running partial on the loop 3..7 of ROM-T. -/
def cursor (m : LoopMode) (dir : Bool) (idx : BitVec 32) (pos : F64) : PeRun :=
  { PeRun.reset with
    pos := pos, dir := dir, idx := idx, endIdx := 7#32, lstart := 3#32, lmode := m, base := 100#32 }

/-- A machine of one voice over ROM-T. -/
def machine (v : Voice) : State where
  voices := [v]
  wave := romWave
  srec := romSrec
  pending := []
  bus := { Bus.reset with wdata := 200#64, mixL := 0x4024000000000000#64, mixR := 0xC024000000000000#64 }
  answer := Answer.reset

/-- The voice a command leaves, where it completes. -/
def voiceAfter (o : Host.Outcome State Fault Refusal) : Option Voice :=
  match o with
  | .next t => t.addressed
  | .fault _ => none
  | .refused _ => none

/-- What a command answers, where it completes. -/
def answerOf (o : Host.Outcome State Fault Refusal) : Option Answer :=
  match o with
  | .next t => some t.answer
  | .fault _ => none
  | .refused _ => none

/-- A check of the result of a computation that can fail gives the result. -/
def okAnd {ε α : Type} (e : Except ε α) (P : α → Bool) : Bool :=
  match e with
  | .ok a => P a
  | .error _ => false

theorem exists_ok {ε α : Type} (e : Except ε α) (P : α → Bool) (h : okAnd e P = true) :
    ∃ a, e = .ok a ∧ P a = true := by
  cases e with
  | ok a => exact ⟨a, rfl, h⟩
  | error x => cases h

/-! ### Register access: V-RA1, V-RA3, V-RA8, V-RA7, V-RA9 -/

theorem test_nop_answers : answerOf (exec .nop (machine fresh)) =
    some { rdata := 0#64, mixL := 0x4024000000000000#64, mixR := 0xC024000000000000#64, term := false,
           diag := .none } := by decide

/-- Writing 200 to a u7 register stores 72. -/
theorem test_wr_low_bits :
    (voiceAfter (exec (.wr 2#4 8#8) (machine fresh))).map (fun v => (v.getEg 2).conf.dur[0]) =
      some 72#7 := by decide
/-- `PE.POS` is read-only. -/
theorem test_wr_read_only :
    (answerOf (exec (.wr 10#4 0#8) (machine fresh))).map Answer.diag = some .badReg ∧
    (voiceAfter (exec (.wr 10#4 0#8) (machine fresh))).map (fun v => v.ps.pos) = some 0#64 := by decide
/-- `PE.IDX` reads as -1 after reset. -/
theorem test_rd_signed :
    (answerOf (exec (.rd 10#4 2#8) (machine fresh))).map Answer.rdata = some 0xFFFFFFFFFFFFFFFF#64 := by
  decide
/-- Bank 3 holds nothing, nor does number 8 of bank 9 with four entries (V-RA11). -/
theorem test_rd_nothing :
    (answerOf (exec (.rd 3#4 0#8) (machine fresh))).map Answer.diag = some .badReg ∧
    (answerOf (exec (.rd 9#4 8#8) (machine fresh))).map Answer.diag = some .badReg := by decide

/-! ### Envelopes: V-EG4, V-EG5, V-EG6, V-EG1, V-PL1, V-PL22, V-PL23 -/

theorem test_egInit_clears_fin :
    (voiceAfter (exec (.egInit 1#4) (machine (withEg finished)))).map (fun v => (v.getEg 1).run) =
      some EgRun.reset := by decide

theorem test_egStart_refuses_outside_off :
    (answerOf (exec (.egStart 0#4) (machine (withEg held)))).map Answer.diag = some .egBadStart := by decide

/-- `DUR` 0, `KEY` 127, rate 1000.0: entering Attack from Off gives `LEN` 0. -/
theorem test_egStart_enters_attack :
    (egStart testCfg 0x408F400000000000#64
      { conf := { EgConfig.reset with key := 0x7F#8, ctlA := 64#7 }, run := EgRun.reset }).1.run =
      { EgRun.reset with phase := .ramp .attack } := by decide +kernel

theorem test_egRelease_from_off :
    (egRelease testCfg 0x408F400000000000#64
      { conf := { EgConfig.reset with key := 0x7F#8, ctlR := 64#7 }, run := EgRun.reset }).run =
      { EgRun.reset with phase := .ramp .release } := by decide +kernel

/-- A second release writes nothing (V-EG9). -/
theorem test_egRelease_again :
    (voiceAfter (exec (.egRelease 2#4) (machine (withEg (ramp .release 3#32))))).map (fun v => v.getEg 2) =
      some (ramp .release 3#32) := by decide

/-- `CNT` 2 of 4 from 0.0 to 1.0 is 0.5. -/
theorem test_egStep_linear :
    (answerOf (exec (.egStep 2#4) (machine (withEg (ramp .attack 2#32))))).map Answer.rdata =
      some 0x3FE0000000000000#64 ∧
    (voiceAfter (exec (.egStep 2#4) (machine (withEg (ramp .attack 2#32))))).map
      (fun v => (v.getEg 2).run.cnt) = some 3#32 := by decide +kernel

theorem test_egStep_off :
    (answerOf (exec (.egStep 0#4) (machine fresh))).map (fun a => (a.rdata, a.diag)) =
      some (0#64, .egOffCall) := by decide

/-- The seconds of duration input 0 (V-PL1), and its lengths at 44100, 1028 and 1029 Hz. -/
theorem test_phaseLength :
    phaseSeconds (Num.pow2 testCfg) 0 (-1) = 0x3F3FDDBA97ED8200#64 ∧
    lengthOf (F64.mul 0x3F3FDDBA97ED8200#64 0x40E5888000000000#64) = 21#32 ∧
    lengthOf (F64.mul 0x3F3FDDBA97ED8200#64 0x4090100000000000#64) = 0#32 ∧
    lengthOf (F64.mul 0x3F3FDDBA97ED8200#64 0x4090140000000000#64) = 1#32 := by decide +kernel

/-! ### The partial: V-PI1, V-PI7, V-CU5 step 6, V-CU6 step 9, V-F1, V-PAN, V-VOL, V-MIX -/

/-- SETUP-T of 95_test_vectors.md as far as construction reads it, with every break-point naming record `i`. -/
def setup (i : BitVec 16) : Voice :=
  { fresh with
    pe := { PeConfig.reset with
            sampleRate := 0x40DF400000000000#64, nativeRate := 0x40DF400000000000#64, key := 60#7,
            kfMult := F64.one }
    bp := List.replicate 4 { key := 127#7, smp := i } }

theorem test_peInit_latches :
    (match peInit testCfg romSrec Bus.reset (setup 0#16) with
      | .ok r => decide (r.diag = .none ∧ r.voice.ps =
          { PeRun.reset with
            smpIndex := 0#16, endIdx := 7#32, lstart := 7#32, lmode := .forwardStop, base := 100#32,
            svol := 127#7, static := 0x3FF0000000000000#64 })
      | .error _ => false) = true := by decide +kernel

theorem test_peInit_bad_geometry :
    (match peInit testCfg romSrec Bus.reset (setup 3#16) with
      | .ok r => decide (r.diag = .peBadSample ∧ r.voice.ps = { PeRun.reset with smpIndex := 3#16, err := true })
      | .error _ => false) = true := by decide +kernel

/-- At `POS` 6.25, `IDX` 6, m = 1.25 on the forward loop: wraps to `POS` 3.5, `IDX` 4, `SMP` raw[4]. -/
theorem test_peStep_wrap :
    (match moveCursor testCfg romWave 0x3FF4000000000000#64 (cursor .forwardLoop false 6#32 0x4019000000000000#64) with
      | .ok p => decide (p.pos = 0x400C000000000000#64 ∧ p.idx = 4#32 ∧ F64.eq p.smp F64.zero = true)
      | .error _ => false) = true := by decide +kernel

/-- At `POS` 3.6000000000000005 going back by 1.3: turns at 3 to `POS` 3.6999999999999993, `IDX` 4, forward. -/
theorem test_peStep_turn :
    (match moveCursor testCfg romWave 0x3FF4CCCCCCCCCCCD#64
        (cursor .forwardBackward true 4#32 0x400CCCCCCCCCCCCE#64) with
      | .ok p => decide (p.pos = 0x400D999999999998#64 ∧ p.idx = 4#32 ∧ p.dir = false)
      | .error _ => false) = true := by decide +kernel

/-- Two steps of V-F1: an impulse through one stage gives 0.25, then 0.625. -/
theorem test_filter_impulse :
    let c := { testCfg with lpfB0 := 0x3FD0000000000000#64, lpfB1 := 0x3FE0000000000000#64,
                            lpfB2 := 0x3FD0000000000000#64, lpfA1 := 0xBFE0000000000000#64,
                            lpfA2 := 0x3FD0000000000000#64 }
    let f := stageNext c FilterStage.reset 0x3FF0000000000000#64
    f.y1 = 0x3FD0000000000000#64 ∧ stageOut c f 0#64 = 0x3FE4000000000000#64 := by decide +kernel

/-- `PAN` 32: p = -0.5079365079365079, right channel 0.4920634920634921. -/
theorem test_pan :
    panValue 32#7 = 0xBFE0410410410410#64 ∧
    panRight (panValue 32#7) F64.one = 0x3FDF7DF7DF7DF7E0#64 := by decide +kernel

theorem test_mix : F64.add 0x4024000000000000#64 0x3FE0000000000000#64 = 0x4025000000000000#64 ∧
    F64.add 0xC024000000000000#64 0x3FE0000000000000#64 = 0xC023000000000000#64 := by decide +kernel

/-- A drum that does not receive note-off ignores `PE.STOP`; one that does releases (R185). -/
theorem test_peStop_drum :
    (peStop testCfg Bus.reset { withEg held with pe := { PeConfig.reset with flags := 1#3 } }).voice.eg =
      Vector.replicate 3 held := by decide +kernel
theorem test_peStop_releases :
    ((peStop testCfg Bus.reset { withEg held with pe := { PeConfig.reset with flags := 5#3 } }).voice.getEg
      1).run.phase = .ramp .release := by decide +kernel

/-- `WR EG2.DUR[0], 10` of R87 is the word 0x12080000 with write data 10. -/
theorem test_assemble_wr :
    (assemble 0 (.wr (.named (.dur 2 0)) 10#64)).map (fun t => (t.cmd, t.bus.wdata)) =
      [(0x12080000#32, 10#64)] := by decide

/-! ### Witnesses: states and operands that meet the hypotheses of the statements -/

/-- The transfer of a command word to voice 0. -/
def sent (w : CmdWord) : Transfer := { cmd := w, bus := Bus.reset }

theorem witness_DecodeInvertsEncode : Instr.wf (.egStep 2#4) = true ∧ Instr.wf (.wr 10#4 255#8) = true := by
  decide
theorem witness_EncodeInvertsDecode : decode 0x72000000#32 = .ok (.egStep 2#4) := by decide
theorem witness_PlacedCommandRunsNext : Instr.wf (.egInit 2#4) = true := by decide
theorem witness_IllegalWordsAnswered :
    ({ machine fresh with pending := [sent 0x30000000#32] } : State).pending = sent 0x30000000#32 :: [] ∧
    decode (sent 0x30000000#32).cmd = .error .reservedOp ∧
    ({ machine fresh with pending := [sent 0x30000000#32] } : State).voices[(sent 0x30000000#32).bus.voice]? =
      some fresh := by decide
theorem witness_StepRunsDecodedCommand :
    ({ machine fresh with pending := [sent 0#32] } : State).pending = sent 0#32 :: [] ∧
    decode (sent 0#32).cmd = .ok .nop ∧ (machine fresh).pending = [] := by decide
theorem witness_NopOnlyAnswers : (machine fresh).addressed = some fresh := rfl
/-- The last register of the break-point table, and an envelope register. -/
theorem witness_WriteStoresLowBits :
    (machine fresh).addressed = some fresh ∧ regAt fresh.bp.length 9#4 7#8 = some (.bpSmp 3) ∧
    (Reg.bpSmp 3).access = .rw ∧ regAt fresh.bp.length 0#4 0x18#8 = some (.egKey 0) := by decide
theorem witness_ReadAnswersRegister :
    (machine fresh).addressed = some fresh ∧ regAt fresh.bp.length 10#4 0x17#8 = some .f2y2 := by decide
/-- A read-only register and the first number past the break-point table. -/
theorem witness_BadRegisterAccess :
    (machine fresh).addressed = some fresh ∧
    (∀ r, regAt fresh.bp.length 0#4 0x25#8 = some r → r.access = .ro) ∧
    regAt 4 0#4 0x25#8 = some (.fin 0) ∧
    (∀ r, regAt fresh.bp.length 9#4 8#8 = some r → r.access = .ro) ∧
    regAt fresh.bp.length 9#4 8#8 = none := by
  refine ⟨rfl, ?_, by decide, ?_, by decide⟩
  · intro r h; have h' : regAt fresh.bp.length 0#4 0x25#8 = some (.fin 0) := by decide
    rw [h'] at h; cases h; rfl
  · intro r h; have h' : regAt fresh.bp.length 9#4 8#8 = none := by decide
    rw [h'] at h; cases h
theorem witness_RegisterMapIsOneToOne :
    regAt 4 1#4 0x14#8 = some (.shp 1 4) ∧ 128 ≤ 128 ∧
    (∀ i, (Reg.bpSmp 127 = .bpKey i ∨ Reg.bpSmp 127 = .bpSmp i) → i < 128) := by
  refine ⟨by decide, le_refl _, ?_⟩
  rintro i (h | h)
  · cases h
  · cases h; decide

theorem witness_EgInitResetsRuntime : (machine (withEg finished)).addressed = some (withEg finished) := rfl
theorem witness_EgStartEntersAttack :
    (machine fresh).addressed = some fresh ∧ (fresh.getEg 2).run.phase = .off ∧
    (machine (withEg finished)).addressed = some (withEg finished) ∧
    ((withEg finished).getEg 2).run.phase ≠ .off := by decide
theorem witness_EgReleaseEntersRelease :
    (machine fresh).addressed = some fresh ∧ (fresh.getEg 2).run.phase ≠ .ramp .release ∧
    (machine (withEg finished)).addressed = some (withEg finished) ∧
    ((withEg finished).getEg 2).run.phase = .ramp .release := by decide
theorem witness_EgStepOffOrFinished :
    (machine fresh).addressed = some fresh ∧ (fresh.getEg 0).run.phase = .off ∧
    (machine (withEg finished)).addressed = some (withEg finished) ∧
    ((withEg finished).getEg 0).run.phase ≠ .off ∧ ((withEg finished).getEg 0).run.fin = true := by decide
/-- The last call of a ramp: `CNT` equals `LEN`. -/
theorem witness_EgStepInsideRamp :
    (machine (withEg (ramp .decay 4#32))).addressed = some (withEg (ramp .decay 4#32)) ∧
    ((withEg (ramp .decay 4#32)).getEg 2).run.phase = .ramp .decay ∧
    ((withEg (ramp .decay 4#32)).getEg 2).run.fin = false ∧
    ((withEg (ramp .decay 4#32)).getEg 2).run.cnt.toNat ≤
      ((withEg (ramp .decay 4#32)).getEg 2).run.len.toNat := by decide
/-- The first call past a ramp, `CNT = LEN + 1`, for Attack and for Sustain with a target of 0. -/
theorem witness_EgStepEntersNextRamp :
    ((withEg (ramp .attack 5#32)).getEg 2).run.phase = .ramp .attack ∧
    ((withEg (ramp .attack 5#32)).getEg 2).run.fin = false ∧
    ((withEg (ramp .attack 5#32)).getEg 2).run.len.toNat <
      ((withEg (ramp .attack 5#32)).getEg 2).run.cnt.toNat ∧
    ((withEg sustainZero).getEg 2).run.phase = .ramp .sustain ∧
    ((withEg sustainZero).getEg 2).run.fin = false ∧
    ((withEg sustainZero).getEg 2).run.len.toNat < ((withEg sustainZero).getEg 2).run.cnt.toNat ∧
    F64.eq ((withEg sustainZero).getEg 2).conf.tgt[3] F64.zero = true ∧
    (machine (withEg sustainZero)).addressed = some (withEg sustainZero) := by decide
theorem witness_EgStepHoldsSustain :
    (machine (withEg held)).addressed = some (withEg held) ∧
    ((withEg held).getEg 1).run.phase = .ramp .sustain ∧ ((withEg held).getEg 1).run.fin = false ∧
    ((withEg held).getEg 1).run.len.toNat < ((withEg held).getEg 1).run.cnt.toNat ∧
    F64.eq ((withEg held).getEg 1).conf.tgt[3] F64.zero = false := by decide
theorem witness_EgStepFinishesRelease :
    (machine (withEg (ramp .release 5#32))).addressed = some (withEg (ramp .release 5#32)) ∧
    ((withEg (ramp .release 5#32)).getEg 0).run.phase = .ramp .release ∧
    ((withEg (ramp .release 5#32)).getEg 0).run.fin = false ∧
    ((withEg (ramp .release 5#32)).getEg 0).run.len.toNat <
      ((withEg (ramp .release 5#32)).getEg 0).run.cnt.toNat ∧
    ((withEg finished).getEg 0).run.phase = .ramp .release ∧ ((withEg finished).getEg 0).run.fin = true := by
  decide

/-- The arguments of `PhaseLengthFormula` at duration input 0 without a key, where every `pow2` agrees (P1): at
44100.0 the rounded length is 21, and at rate 0.0 it is 0, the lower end of the range. -/
theorem witness_PhaseLengthFormula :
    let t := F64.sub (F64.div (Num.pow2 Config.cfg (F64.div (F64.ofInt 0) (F64.lit 18 1))) (F64.lit 545 100))
      (F64.lit 183 1000)
    F64.isFinite (F64.mul t 0x40E5888000000000#64) = true ∧
    0 ≤ F64.rha (F64.mul t 0x40E5888000000000#64) ∧ F64.rha (F64.mul t 0x40E5888000000000#64) < 2 ^ 32 ∧
    F64.isFinite (F64.mul t F64.zero) = true ∧ F64.rha (F64.mul t F64.zero) = 0 := by
  have h : Num.pow2 Config.cfg (F64.div (F64.ofInt 0) (F64.lit 18 1)) = F64.one := by
    have h0 : F64.div (F64.ofInt 0) (F64.lit 18 1) = F64.zero := by decide +kernel
    rw [h0]; exact if_pos rfl
  rw [h]
  decide +kernel

theorem witness_PhaseTransitionsAreTheTable :
    exec .nop (machine fresh) = .next ((machine fresh).answeredThrough fresh 0#64 .none) ∧
    (machine fresh).voices[0]? = some fresh ∧
    ((machine fresh).answeredThrough fresh 0#64 .none).voices[0]? = some fresh := ⟨rfl, rfl, rfl⟩
theorem witness_FinishedNeverReverts :
    exec .nop (machine (withEg finished)) =
      .next ((machine (withEg finished)).answeredThrough (withEg finished) 0#64 .none) ∧
    (machine (withEg finished)).voices[0]? = some (withEg finished) ∧
    ((machine (withEg finished)).answeredThrough (withEg finished) 0#64 .none).voices[0]? =
      some (withEg finished) ∧
    Instr.nop ≠ .egInit (egBank 1) ∧ Instr.nop ≠ .peInit ∧ ((withEg finished).getEg 1).run.fin = true :=
  ⟨rfl, rfl, rfl, by decide, by decide, by decide⟩
theorem witness_EnvelopeCommandsAreLocal :
    (machine fresh).addressed = some fresh ∧
    exec (.egStep (egBank 1)) (machine fresh) =
      .next ((machine fresh).answeredThrough fresh 0#64 .egOffCall) ∧
    ((machine fresh).answeredThrough fresh 0#64 .egOffCall).addressed = some fresh := ⟨rfl, rfl, rfl⟩

theorem witness_SecondsNeverFallWithDuration :
    (∀ x y : F64, F64.le x y = true → F64.le ((fun _ => F64.one) x) ((fun _ : F64 => F64.one) y) = true) ∧
    (0 : Int) ≤ 0 ∧ (0 : Int) ≤ 127 ∧ (127 : Int) ≤ 127 ∧ (-128 : Int) ≤ 127 := by
  refine ⟨fun _ _ _ => ?_, by decide, by decide, by decide, by decide⟩
  show F64.le F64.one F64.one = true
  decide +kernel
theorem witness_SecondsNeverRiseWithKey :
    (∀ x y : F64, F64.le x y = true → F64.le ((fun _ => F64.one) x) ((fun _ : F64 => F64.one) y) = true) ∧
    (fun _ : F64 => F64.one) F64.zero = F64.lit 1 1 ∧ (0 : Int) ≤ 127 := by
  refine ⟨fun _ _ _ => ?_, rfl, by decide⟩
  show F64.le F64.one F64.one = true
  decide +kernel
theorem witness_FirstValueIsEntry :
    (ramp .attack 0#32).run.cnt = 0#32 ∧ (ramp .attack 0#32).run.len ≠ 0#32 ∧
    F64.isFinite (ramp .attack 0#32).run.entry = true ∧
    F64.isFinite (F64.sub (ramp .attack 0#32).conf.tgt[Ramp.attack.index] (ramp .attack 0#32).run.entry) =
      true := by decide +kernel
theorem witness_ValueAtFullProgress :
    (ramp .attack 4#32).run.cnt = (ramp .attack 4#32).run.len ∧ (ramp .attack 4#32).run.len ≠ 0#32 ∧
    F64.isFinite (F64.sub (ramp .attack 4#32).conf.tgt[Ramp.attack.index] (ramp .attack 4#32).run.entry) =
      true := by decide +kernel

/-! #### Construction, for the machine's own open configuration -/

/-- A break-point that accepts every key and is set, whatever the configuration. -/
def anyBp : BpEntry := { key := Config.cfg.bpSentinel, smp := ~~~Config.cfg.smpUnset }

/-- A break-point that accepts every key and is unset. -/
def unsetBp : BpEntry := { key := Config.cfg.bpSentinel, smp := Config.cfg.smpUnset }

theorem complement_ne (x : BitVec 16) : ~~~x ≠ x := by
  intro h
  have := congrArg (fun y : BitVec 16 => y.getLsbD 0) h
  simp only [BitVec.getLsbD_not] at this
  revert this
  cases x.getLsbD 0 <;> decide

/-- A machine whose one voice selects `b`, with one record `r` there. -/
def constructing (b : BpEntry) (r : SampleRecord) : State :=
  { machine { fresh with bp := [b] } with srec := [(b.smp.toNat, r)] }

theorem selects (b : BpEntry) (hb : b.key = Config.cfg.bpSentinel) (ak : Int) :
    selectBreakpoint Config.cfg ak [b] = some b := by
  unfold selectBreakpoint
  exact if_pos (.inr hb)

/-- A record of the geometry given. -/
def record (n l : BitVec 32) (m : BitVec 2) : SampleRecord :=
  { rootKey := 60#7, sampleLen := n, loopLen := l, loopMode := m, fineCents := 0#64, volume := 127#7,
    base := 100#32 }

/-- The smallest and the largest sound geometry. -/
theorem witness_PeInitConstructs :
    (constructing anyBp (record 1#32 0#32 2#2)).addressed = some { fresh with bp := [anyBp] } ∧
    selectBreakpoint Config.cfg ((fresh.pe.key.toNat : Int) + keyShift fresh.pe) [anyBp] = some anyBp ∧
    anyBp.smp ≠ Config.cfg.smpUnset ∧
    Memory.read (constructing anyBp (record 1#32 0#32 2#2)).srec anyBp.smp.toNat = some (record 1#32 0#32 2#2) ∧
    1 ≤ (record 1#32 0#32 2#2).sampleLen.toNat ∧
    (record 0x7FFFFFFF#32 0x7FFFFFFE#32 1#2).sampleLen.toNat ≤ 2 ^ 31 - 1 ∧
    (record 0x7FFFFFFF#32 0x7FFFFFFE#32 1#2).loopLen.toNat ≤
      (record 0x7FFFFFFF#32 0x7FFFFFFE#32 1#2).sampleLen.toNat - 1 ∧
    LoopMode.forwardStop.code = (record 1#32 0#32 2#2).loopMode :=
  ⟨rfl, selects _ rfl _, complement_ne _, if_pos rfl, by decide, by decide, by decide, rfl⟩
/-- The unset entry, and each of the four impossible geometries. -/
theorem witness_PeInitFailures :
    (constructing unsetBp (record 1#32 0#32 2#2)).addressed = some { fresh with bp := [unsetBp] } ∧
    (∀ b, selectBreakpoint Config.cfg ((fresh.pe.key.toNat : Int) + keyShift fresh.pe) [unsetBp] = some b →
      b.smp = Config.cfg.smpUnset) ∧
    anyBp.smp ≠ Config.cfg.smpUnset ∧
    Memory.read (constructing anyBp (record 0#32 0#32 0#2)).srec anyBp.smp.toNat = some (record 0#32 0#32 0#2) ∧
    (record 0#32 0#32 0#2).sampleLen.toNat = 0 ∧ 2 ^ 31 - 1 < (record 0x80000000#32 0#32 0#2).sampleLen.toNat ∧
    (record 8#32 8#32 0#2).sampleLen.toNat ≤ (record 8#32 8#32 0#2).loopLen.toNat ∧
    (record 8#32 0#32 3#2).loopMode = 3#2 := by
  refine ⟨rfl, ?_, complement_ne _, if_pos rfl, rfl, by decide, by decide, rfl⟩
  intro b h
  rw [selects _ rfl] at h
  cases h
  rfl
theorem witness_PeInitStopsOnUnbackedRecord :
    ({ constructing anyBp (record 1#32 0#32 2#2) with srec := [] } : State).addressed =
      some { fresh with bp := [anyBp] } ∧
    selectBreakpoint Config.cfg ((fresh.pe.key.toNat : Int) + keyShift fresh.pe) [anyBp] = some anyBp ∧
    anyBp.smp ≠ Config.cfg.smpUnset ∧ Memory.read ([] : Memory SampleRecord) anyBp.smp.toNat = none :=
  ⟨rfl, selects _ rfl _, complement_ne _, rfl⟩
theorem witness_BreakpointIsFirstMatch : selectBreakpoint testCfg 127 [{ key := 126#7, smp := 0#16 },
    { key := 127#7, smp := 1#16 }] = some { key := 127#7, smp := 1#16 } := by decide

/-! #### The per-sample operation -/

/-- The running voice with the cursor given. -/
def playing (p : PeRun) : Voice := { withEg (ramp .attack 2#32) with ps := p }

theorem witness_PeStepGuards :
    (machine (playing { PeRun.reset with err := true })).addressed =
      some (playing { PeRun.reset with err := true }) ∧
    (playing { PeRun.reset with err := true }).ps.err = true ∧
    (playing { PeRun.reset with term := true }).ps.err = false ∧
    (playing { PeRun.reset with term := true }).ps.term = true ∧
    (withEg finished).ps.err = false ∧ (withEg finished).ps.term = false ∧
    ((withEg finished).getEg 2).run.fin = true := by decide

/-- Where the cursor stands on the sample's end nothing is fed, whatever the position. -/
theorem catchUp_at_end (c : Cfg) (w : Memory F64) (p : PeRun) (h : p.endIdx.toInt = p.idx.toInt) :
    catchUpForward c w p = .ok p := by
  have e : (p.endIdx.toInt - p.idx.toInt).toNat = 0 := by omega
  unfold catchUpForward
  rw [e]
  rfl

/-- A cursor at the end of a one-sample loop feeds nothing and stays a running one, whatever the multiplier. -/
theorem witness_PeStepAddsFrame (m : F64) :
    let q := { PeRun.reset with idx := 0#32 }
    (machine (playing q)).addressed = some (playing q) ∧ q.err = false ∧ q.term = false ∧
    ((playing q).getEg 2).run.fin = false ∧
    ∃ p, moveCursor Config.cfg (machine (playing q)).wave m q = .ok p ∧ p.term = false := by
  refine ⟨rfl, rfl, rfl, rfl, ?_⟩
  generalize (machine (playing { PeRun.reset with idx := 0#32 })).wave = w
  show ∃ p, moveForward Config.cfg w m { PeRun.reset with idx := 0#32 } = .ok p ∧ p.term = false
  generalize hm : F64.add ({ PeRun.reset with idx := 0#32 } : PeRun).pos m = x
  unfold moveForward
  rw [hm, catchUp_at_end _ _ _ rfl]
  simp only
  split
  · exact ⟨_, catchUp_at_end _ _ _ rfl, rfl⟩
  · exact ⟨_, rfl, rfl⟩

/-- A forward-stop cursor at 6.25 moved by 1.25 crosses 7 (its rate factors are 1.0 but for `R_BEND`). -/
def stopping : Voice :=
  { playing { cursor .forwardStop false 6#32 0x4019000000000000#64 with static := F64.one } with
    pe := { PeConfig.reset with
            rFinetune := F64.one, rTune := F64.one, rBend := 0x3FF4000000000000#64,
            rScale := Vector.replicate 12 F64.one } }

/-- The cursor of `stopping` after the addition of its multiplier. -/
def stoppingMoved : PeRun :=
  { stopping.ps with
    pos := F64.add stopping.ps.pos
      (multiplier testCfg stopping.pe stopping.ps.static
        (egStep testCfg stopping.pe.sampleRate (stopping.getEg 0)).value) }

theorem stopping_crosses : okAnd (catchUpForward testCfg romWave stoppingMoved)
    (fun p => F64.lt (F64.ofInt p.endIdx.toInt) p.pos) = true := by decide +kernel

theorem witness_ForwardStopTerminatesAtEnd :
    stopping.ps.err = false ∧ stopping.ps.term = false ∧ (stopping.getEg 2).run.fin = false ∧
    stopping.ps.dir = false ∧ stopping.ps.lmode = .forwardStop ∧
    ∃ p, catchUpForward testCfg romWave stoppingMoved = .ok p ∧
      F64.lt (F64.ofInt p.endIdx.toInt) p.pos = true :=
  ⟨rfl, rfl, rfl, rfl, rfl, exists_ok _ _ stopping_crosses⟩

/-- No crossing exactly at 7.0, the wrap and the turn just past it, and both cases at the loop start. -/
theorem witness_LoopBoundaryRules :
    okAnd (catchUpForward testCfg romWave (cursor .forwardLoop false 6#32 0x401C000000000000#64))
      (fun q => !F64.lt (F64.ofInt q.endIdx.toInt) q.pos) = true ∧
    okAnd (catchUpForward testCfg romWave (cursor .forwardLoop false 6#32 0x401E000000000000#64))
      (fun q => F64.lt (F64.ofInt q.endIdx.toInt) q.pos && decide (q.lmode = .forwardLoop)) = true ∧
    okAnd (catchUpForward testCfg romWave (cursor .forwardBackward false 6#32 0x401E000000000000#64))
      (fun q => F64.lt (F64.ofInt q.endIdx.toInt) q.pos && decide (q.lmode = .forwardBackward)) = true ∧
    okAnd (catchUpForward testCfg romWave (cursor .forwardStop false 6#32 0x401E000000000000#64))
      (fun q => F64.lt (F64.ofInt q.endIdx.toInt) q.pos && decide (q.lmode = .forwardStop)) = true ∧
    okAnd (catchUpBackward testCfg romWave (cursor .forwardBackward true 4#32 0x4008000000000000#64))
      (fun q => !F64.lt q.pos (F64.ofInt q.lstart.toInt)) = true ∧
    okAnd (catchUpBackward testCfg romWave (cursor .forwardBackward true 4#32 0x4004000000000000#64))
      (fun q => F64.lt q.pos (F64.ofInt q.lstart.toInt)) = true := by decide +kernel

/-- For both catch-up statements: each premise and every clause, at the boundary values of `IDX`. -/
theorem witness_CatchUps :
    (cursor .forwardLoop false 7#32 0#64).idx.toInt ≤ (cursor .forwardLoop false 7#32 0#64).endIdx.toInt ∧
    (cursor .forwardBackward true 3#32 0#64).lstart.toInt ≤ (cursor .forwardBackward true 3#32 0#64).idx.toInt ∧
    F64.isFinite (cursor .forwardLoop false 7#32 0#64).pos = true ∧
    (cursor .forwardLoop false 0xFFFFFFFF#32 0x7FF0000000000000#64).pos = 0x7FF0000000000000#64 ∧
    F64.isNaN (cursor .forwardLoop false 7#32 0x7FF8000000000000#64).pos = true := by decide

/-- An infinite position past `E`: `IDX` is caught up to 7 before the turn, so J2 holds after it (R47, R170). -/
theorem test_infinite_position_reaches_end (q : PeRun)
    (h : catchUpForward testCfg romWave (cursor .forwardBackward false 0xFFFFFFFF#32 0x7FF0000000000000#64) =
      .ok q) : q.idx.toInt = 7 := by
  have hs := (catchUpForward_spec h).1
  have he : q.endIdx = 7#32 := hs.1.endIdx
  have hp : q.pos = 0x7FF0000000000000#64 := hs.2.1
  have := catchUpForward_at_end (by unfold PeRun.InRange; decide) h
    (by rw [endF, he, hp]; decide +kernel)
  rw [this, he]
  rfl

/-- A `NOP` between two chained steps hands the last out pair on (R80, R88). -/
theorem test_chained_pair_passes :
    ((({ machine fresh with answer := { Answer.reset with mixL := 1#64, mixR := 2#64 } } : State).issueChained 0
      .nop).pending.map fun t => (t.bus.mixL, t.bus.mixR)) = [(1#64, 2#64)] := by decide

/-- The last address of the space and the first past it, address -1, and an unbacked address. -/
theorem witness_FeedFiltersOneSample :
    Memory.read ([(0xFFFFFFFF, 0#64)] : Memory F64)
      (((0xFFFFFFFF#32).toNat : Int) + (0#32).toInt).toNat = some 0#64 ∧
    ((0xFFFFFFFF#32).toNat : Int) + (0#32).toInt < 2 ^ 32 ∧
    2 ^ 32 ≤ ((0xFFFFFFFF#32).toNat : Int) + (1#32).toInt ∧
    ((0#32).toNat : Int) + (0xFFFFFFFF#32).toInt < 0 ∧
    Memory.read romWave (((99#32).toNat : Int) + (0#32).toInt).toNat = none := by decide

theorem witness_IdentityFilter :
    testCfg.lpfB0 = F64.lit 1 1 ∧ testCfg.lpfB1 = F64.zero ∧ testCfg.lpfB2 = F64.zero ∧
    testCfg.lpfA1 = F64.zero ∧ testCfg.lpfA2 = F64.zero ∧ F64.isFinite (0x7FEFFFFFFFFFFFFF#64) = true ∧
    F64.isFinite FilterStage.reset.x1 = true := by decide +kernel

/-- The whole sample 0..7 of ROM-T is backed, for a cursor of the invariant. -/
theorem cursor_backed (m : LoopMode) (dir : Bool) (idx : BitVec 32) (pos : F64) :
    PeRun.Backed romWave (cursor m dir idx pos) := by
  intro i h0 h1
  have h1 : i ≤ 7 := h1
  have hb : ((cursor m dir idx pos).base.toNat : Int) = 100 := rfl
  rw [hb]
  refine ⟨by omega, ?_⟩
  have key : ∀ k : Fin 8, (Memory.read romWave (100 + k.val)).isSome = true := by decide
  have := key ⟨i.toNat, by omega⟩
  have e : (100 + i).toNat = 100 + i.toNat := by omega
  rw [e]
  exact this

theorem witness_PeStepCompletesWhenBacked :
    let p := cursor .forwardBackward true 3#32 0#64
    (machine (playing p)).addressed = some (playing p) ∧ (playing p).ps.Inv ∧
    PeRun.Backed (machine (playing p)).wave (playing p).ps ∧ (playing p).ps.err = false ∧
    (playing p).ps.term = false ∧ ((playing p).getEg 2).run.fin = false := by
  refine ⟨rfl, ?_, cursor_backed _ _ _ _, rfl, rfl, rfl⟩
  unfold PeRun.Inv
  decide

theorem witness_PeStepReadsOnlyItsSample :
    (cursor .forwardLoop false 7#32 0#64).Inv ∧
    ∀ i : Int, 0 ≤ i → i ≤ (cursor .forwardLoop false 7#32 0#64).endIdx.toInt →
      Memory.read romWave (((cursor .forwardLoop false 7#32 0#64).base.toNat : Int) + i).toNat =
        Memory.read (romWave ++ [(108, F64.one)])
          (((cursor .forwardLoop false 7#32 0#64).base.toNat : Int) + i).toNat := by
  refine ⟨by unfold PeRun.Inv; decide, ?_⟩
  intro i h0 h1
  have h1 : i ≤ 7 := h1
  have hb : ((cursor .forwardLoop false 7#32 0#64).base.toNat : Int) = 100 := rfl
  rw [hb]
  have key : ∀ k : Fin 8, Memory.read romWave (100 + k.val) =
      Memory.read (romWave ++ [(108, F64.one)]) (100 + k.val) := by decide
  have e : (100 + i).toNat = 100 + i.toNat := by omega
  rw [e]
  exact key ⟨i.toNat, by omega⟩

theorem witness_TerminatedStepAddsNothing :
    let v := playing { PeRun.reset with term := true }
    exec .peStep (machine v) = .next ((machine v).answeredThrough v 0#64 .none) ∧
    ((machine v).answeredThrough v 0#64 .none).answer.term = true := ⟨rfl, rfl⟩

/-- Unusable; a drum without note-off; a drum with it; no drum. -/
theorem witness_PeStopReleasesEnvelopes :
    (machine (playing { PeRun.reset with err := true })).addressed =
      some (playing { PeRun.reset with err := true }) ∧
    (playing { PeRun.reset with err := true }).ps.err = true ∧ fresh.ps.err = false ∧
    (1#3).getLsbD 0 = true ∧ (1#3).getLsbD 2 = false ∧
    ¬ ((5#3).getLsbD 0 = true ∧ (5#3).getLsbD 2 = false) ∧
    ¬ (fresh.pe.flags.getLsbD 0 = true ∧ fresh.pe.flags.getLsbD 2 = false) := by decide

/-! #### The whole machine -/

theorem reset_inv : State.reset.Inv := by
  refine ⟨by simp [State.reset], ?_, rfl, rfl⟩
  intro v hv
  have := List.eq_of_mem_replicate hv
  subst this
  refine ⟨by simp [Voice.reset], ?_, by unfold PeRun.Inv; decide⟩
  intro e h
  fin_cases e <;> cases h

/-- The reset state with one more pending command keeps the invariant's hypotheses and completes a step. -/
theorem witness_StepKeepsInvariant :
    ({ State.reset with pending := [sent 0#32] } : State).Inv ∧
    ∃ t, step ({ State.reset with pending := [sent 0#32] } : State) = .next t := ⟨reset_inv, _, rfl⟩

theorem witness_NoFaultWhenBacked :
    ({ State.reset with wave := [(0, 0#64)] } : State).Inv ∧
    ∀ v ∈ ({ State.reset with wave := [(0, 0#64)] } : State).voices,
      PeRun.Backed ({ State.reset with wave := [(0, 0#64)] } : State).wave v.ps := by
  refine ⟨⟨reset_inv.1, reset_inv.2.1, by decide, rfl⟩, ?_⟩
  intro v hv
  have := List.eq_of_mem_replicate hv
  subst this
  intro i h0 h1
  have h1 : i ≤ 0 := h1
  have hi : i = 0 := by omega
  subst hi
  decide

theorem witness_ResetRuntimeState : 0 < Config.cfg.nVoices := Nat.succ_pos _
theorem witness_OtherCommandsAlwaysComplete :
    (machine fresh).addressed = some fresh ∧ Instr.peStop ≠ .peInit ∧ Instr.peStop ≠ .peStep := by decide
/-- A voice that is none of the voices; and the cursor of `stopping` over a WAVE that backs nothing. -/
theorem witness_StopsOnlyWhereDeclared :
    ({ machine fresh with bus := { Bus.reset with voice := 1 } } : State).addressed = none ∧
    exec .peInit { machine fresh with bus := { Bus.reset with voice := 1 } } = .refused .voiceOutOfRange ∧
    (match peStep testCfg [] Bus.reset stopping with | .ok _ => false | .error _ => true) = true := by
  refine ⟨rfl, rfl, ?_⟩
  decide +kernel
theorem witness_StepNeverWritesMemory : step (machine fresh) = .next (machine fresh) := rfl
theorem witness_OtherVoicesUntouched :
    exec .nop (machine fresh) = .next ((machine fresh).answeredThrough fresh 0#64 .none) ∧
    1 ≠ (machine fresh).bus.voice := ⟨rfl, by decide⟩

/-- Two voices, each with a command that completes. -/
theorem witness_CommandsToDifferentVoicesCommute :
    let s : State := { machine fresh with voices := [fresh, withEg held] }
    ({ Bus.reset with voice := 0 } : Bus).voice ≠ ({ Bus.reset with voice := 1 } : Bus).voice ∧
    ∃ t1 t12, exec (.egInit 0#4) { s with bus := { Bus.reset with voice := 0 } } = .next t1 ∧
      exec (.egInit 2#4) { t1 with bus := { Bus.reset with voice := 1 } } = .next t12 :=
  ⟨by decide, _, _, rfl, rfl⟩
theorem witness_OnlyWriteChangesConfiguration :
    exec (.egInit 0#4) (machine (withEg held)) =
      .next ((machine (withEg held)).answeredThrough
        ((withEg held).setEg 0 (egInit held)) 0#64 .none) ∧
    (∀ bank reg, Instr.egInit 0#4 ≠ .wr bank reg) := ⟨rfl, by intros; simp⟩
theorem witness_WriteNeverChangesRuntime :
    exec (.wr 0#4 0x18#8) (machine fresh) =
      .next ((machine fresh).answeredThrough ((Reg.egKey 0).write 200#64 fresh) 0#64 .none) ∧
    (machine fresh).voices[0]? = some fresh := ⟨rfl, rfl⟩
theorem witness_LatchedValuesStayAndTermIsSticky :
    let v := playing { PeRun.reset with term := true }
    exec .peStep (machine v) = .next ((machine v).answeredThrough v 0#64 .none) ∧
    Instr.peStep ≠ .peInit ∧ (machine v).voices[0]? = some v ∧ v.ps.term = true := ⟨rfl, by decide, rfl, rfl⟩
theorem witness_OnlyPartialCommandsChangeBankTen :
    exec .nop (machine fresh) = .next ((machine fresh).answeredThrough fresh 0#64 .none) ∧
    Instr.nop ≠ .peInit ∧ Instr.nop ≠ .peStep := ⟨rfl, by decide, by decide⟩
theorem witness_EgConfigConfiguresEnvelope :
    let ts := assemble 0 (.egConfig 2 (Vector.replicate 5 F64.one) (Vector.replicate 5 10#7)
      (Vector.replicate 5 1#1) 60#8)
    ({ machine fresh with pending := ts } : State).voices[0]? = some fresh ∧
    ({ machine fresh with pending := ts } : State).pending = ts ∧ ts.length = 16 := ⟨rfl, rfl, rfl⟩

end Sys2Proof.Tests
end

/-! ## The step's equations (R15, R81, R216) -/

namespace Sys2Proof.Machine

/-- R216: with no command pending the core holds its state. -/
theorem step_of_pending_nil {s : State} (hp : s.pending = []) : step s = .next s := by
  unfold step
  rw [hp]

/-- R15, R81: a legal word at the head of the queue runs its command on the state that accepted it. -/
theorem step_of_decode_ok {s : State} {t : Transfer} {rest : List Transfer} {i : Instr}
    (hp : s.pending = t :: rest) (hd : decode t.cmd = .ok i) : step s = exec i (s.accept t rest) := by
  unfold step
  rw [hp]
  simp only [hd]

/-- Settles O5: the two equations of `step` above, `State.accept` being the record the statement writes out. -/
theorem stepRunsDecodedCommand : Obligations.StepRunsDecodedCommand :=
  ⟨fun _ _ _ _ hp hd => step_of_decode_ok hp hd, fun _ hp => step_of_pending_nil hp⟩

end Sys2Proof.Machine

/-! ## What a command can do to a voice

One inversion lemma for all ten commands (`exec_voiceMove`); the invariants and the frames of the state are case
analyses on it. -/

namespace Sys2Proof.Machine

/-! ### A register write leaves every runtime register alone (R101) -/

@[simp] theorem Reg.write_ps (r : Reg) (w : BitVec 64) (v : Voice) : (r.write w v).ps = v.ps := by
  cases r <;> rfl

@[simp] theorem Reg.write_run (r : Reg) (w : BitVec 64) (v : Voice) (k : Fin 3) :
    ((r.write w v).getEg k).run = (v.getEg k).run := by
  cases r <;> simp [Reg.write]

@[simp] theorem Reg.write_bp_length (r : Reg) (w : BitVec 64) (v : Voice) :
    (r.write w v).bp.length = v.bp.length := by
  cases r <;> simp [Reg.write]

/-! ### The envelopes of a voice after the partial's commands -/

/-- PE.INIT puts every envelope through EG.INIT, whatever it latches in bank 10 (R141). -/
theorem resetRuntime_getEg (v : Voice) (p : PeRun) (k : Fin 3) :
    ({ resetRuntime v with ps := p } : Voice).getEg k = egInit (v.getEg k) := by
  simp [Voice.getEg, resetRuntime]

theorem startEnvelopes_getEg (c : Cfg) (v : Voice) (k : Fin 3) :
    (startEnvelopes c v).getEg k = (egStart c v.pe.sampleRate (v.getEg k)).1 :=
  Voice.getEg_map v _ k

/-- PE.STEP puts every envelope through EG.STEP, wherever the cursor moves (R162). -/
theorem stepEnvelopes_getEg_with (c : Cfg) (v : Voice) (p : PeRun) (k : Fin 3) :
    ({ (stepEnvelopes c v).1 with ps := p } : Voice).getEg k = (egStep c v.pe.sampleRate (v.getEg k)).eg :=
  stepEnvelopes_getEg c v k

/-! ### The move of a voice under a command -/

/-- Bank 10 when PE.INIT turns to the record: reset, with the key shift and the sample index latched (R140). -/
def PeRun.selected (ks : Int) (i : BitVec 16) : PeRun :=
  { PeRun.reset with keyshift := BitVec.ofInt 16 ks, smpIndex := i }

/-- `VoiceMove wave v i v'`: the command `i`, run against `wave`, can leave the voice `v` as `v'`. A voice also
stays as it is where the command addresses another one or has nothing to change. -/
inductive VoiceMove (wave : Memory F64) (v : Voice) : Instr → Voice → Prop where
  | stay (i : Instr) : VoiceMove wave v i v
  | write (bank : BitVec 4) (reg : BitVec 8) (r : Reg) (w : BitVec 64) :
      VoiceMove wave v (.wr bank reg) (r.write w v)
  | egInit (k : Fin 3) : VoiceMove wave v (.egInit (egBank k)) (v.setEg k (egInit (v.getEg k)))
  | egStart (k : Fin 3) :
      VoiceMove wave v (.egStart (egBank k)) (v.setEg k (egStart Config.cfg v.pe.sampleRate (v.getEg k)).1)
  | egRelease (k : Fin 3) :
      VoiceMove wave v (.egRelease (egBank k)) (v.setEg k (egRelease Config.cfg v.pe.sampleRate (v.getEg k)))
  | egStep (k : Fin 3) :
      VoiceMove wave v (.egStep (egBank k)) (v.setEg k (egStep Config.cfg v.pe.sampleRate (v.getEg k)).eg)
  | initFails (ks : Int) (i : BitVec 16) :
      VoiceMove wave v .peInit { resetRuntime v with ps := (PeRun.selected ks i).setErr }
  | initStarts (ks : Int) (i : BitVec 16) (rec : SampleRecord) (m : LoopMode) (hm : geometry rec = some m) :
      VoiceMove wave v .peInit (startEnvelopes Config.cfg
        { resetRuntime v with ps := latchRecord Config.cfg v.pe ks rec m (PeRun.selected ks i) })
  | terminate : VoiceMove wave v .peStep { v with ps := v.ps.setTerm }
  | sound (m : F64) (p : PeRun) (hp : moveCursor Config.cfg wave m v.ps = .ok p) :
      VoiceMove wave v .peStep { (stepEnvelopes Config.cfg v).1 with ps := p }
  | noteOff : VoiceMove wave v .peStop { v with eg := v.eg.map (egRelease Config.cfg v.pe.sampleRate) }

/-- `WR` stores to a register or leaves the voice alone. -/
theorem writeReg_voiceMove (wave : Memory F64) (b : Bus) (bank : BitVec 4) (reg : BitVec 8) (v : Voice) :
    VoiceMove wave v (.wr bank reg) (writeReg b bank reg v).voice := by
  unfold writeReg
  cases regAt v.bp.length bank reg with
  | none => exact .stay _
  | some r =>
    cases hr : r.access with
    | rw => simpa only [hr] using .write bank reg r b.wdata
    | ro => simpa only [hr] using .stay _

/-- `RD` leaves the voice alone. -/
@[simp] theorem readReg_voice (b : Bus) (bank : BitVec 4) (reg : BitVec 8) (v : Voice) :
    (readReg b bank reg v).voice = v := by
  unfold readReg
  cases regAt v.bp.length bank reg <;> rfl

/-- What holds of a format E command on each envelope, and of an illegal one, holds of every one. -/
theorem envelopeReply_voiceMove {wave : Memory F64} {b : Bus} {v : Voice} {f : Voice → Fin 3 → Reply}
    (mk : BitVec 4 → Instr) (e : BitVec 4) (h : ∀ k, VoiceMove wave v (mk (egBank k)) (f v k).voice) :
    VoiceMove wave v (mk e) (envelopeReply b e f v).voice := by
  unfold envelopeReply
  cases he : envIndex e with
  | none => exact .stay _
  | some k => rw [envIndex_eq_some.1 he]; exact h k

/-- All `PE.INIT` can do to its voice when it completes (R140): fail before or at the record, or start. -/
theorem peInit_voiceMove {wave : Memory F64} {srec : Memory SampleRecord} {b : Bus} {v : Voice} {r : Reply}
    (h : peInit Config.cfg srec b v = .ok r) : VoiceMove wave v .peInit r.voice := by
  simp only [peInit] at h
  split at h
  · cases h; exact .initFails (keyShift v.pe) 0#16
  · next i _ =>
    split at h
    · cases h
    · next rec _ =>
      split at h
      · cases h; exact .initFails (keyShift v.pe) i
      · next m hm => cases h; exact .initStarts (keyShift v.pe) i rec m hm

/-- All `PE.STEP` can do to its voice when it completes. -/
theorem peStep_voiceMove {wave : Memory F64} {b : Bus} {v : Voice} {r : Reply}
    (h : peStep Config.cfg wave b v = .ok r) : VoiceMove wave v .peStep r.voice := by
  obtain ⟨-, rfl⟩ | ⟨-, -, rfl⟩ | ⟨-, -, -, rfl⟩ | ⟨-, -, -, p, hp, ⟨-, rfl⟩ | ⟨-, rfl⟩⟩ := peStep_cases h
  · exact .stay _
  · exact .stay _
  · exact .terminate
  · exact .sound _ p hp
  · exact .sound _ p hp

/-- All `PE.STOP` can do to its voice. -/
theorem peStop_voiceMove (wave : Memory F64) (b : Bus) (v : Voice) :
    VoiceMove wave v .peStop (peStop Config.cfg b v).voice := by
  obtain ⟨-, e⟩ | ⟨-, -, -, e⟩ | ⟨-, -, e⟩ := peStop_cases Config.cfg b v <;> rw [e]
  · exact .stay _
  · exact .stay _
  · exact .noteOff

/-- All a command can do to the voice it addresses. -/
theorem commandReply_voiceMove {wave : Memory F64} {srec : Memory SampleRecord} {b : Bus} {i : Instr}
    {v : Voice} {r : Reply} (h : commandReply wave srec b i v = .next r) : VoiceMove wave v i r.voice := by
  cases i with
  | nop => cases h; exact .stay _
  | wr bank reg => cases h; exact writeReg_voiceMove wave b bank reg v
  | rd bank reg => cases h; rw [readReg_voice]; exact .stay _
  | egInit e => cases h; exact envelopeReply_voiceMove _ e .egInit
  | egStart e => cases h; exact envelopeReply_voiceMove _ e .egStart
  | egRelease e => cases h; exact envelopeReply_voiceMove _ e .egRelease
  | egStep e => cases h; exact envelopeReply_voiceMove _ e .egStep
  | peInit =>
    simp only [commandReply] at h
    split at h <;> cases h
    exact peInit_voiceMove ‹_›
  | peStep =>
    simp only [commandReply] at h
    split at h <;> cases h
    exact peStep_voiceMove ‹_›
  | peStop => cases h; exact peStop_voiceMove wave b v

/-- All a command can do to any voice. -/
theorem exec_voiceMove {i : Instr} {s t : State} {n : Nat} {v v' : Voice} (h : exec i s = .next t)
    (hv : s.voices[n]? = some v) (hv' : t.voices[n]? = some v') : VoiceMove s.wave v i v' := by
  obtain ⟨-, rfl⟩ | ⟨-, -, r, hr, rfl, -⟩ := exec_voice h hv hv'
  · exact .stay _
  · exact commandReply_voiceMove hr

/-! ### The machine invariant (R28, R47, R175) -/

/-- `END` and `LSTART` of a record of good geometry are the integers of R146, in the order J1 asks for. -/
theorem latchRecord_inv {k : PeConfig} {ks : Int} {i : BitVec 16} {rec : SampleRecord} {m : LoopMode}
    (hm : geometry rec = some m) : (latchRecord Config.cfg k ks rec m (PeRun.selected ks i)).Inv := by
  have hg : 1 ≤ rec.sampleLen.toNat ∧ rec.sampleLen.toNat ≤ 2 ^ 31 - 1 ∧
      rec.loopLen.toNat ≤ rec.sampleLen.toNat - 1 := by
    by_contra hn
    rw [geometry, if_neg hn] at hm
    cases hm
  have hend : (rec.sampleLen - 1#32).toInt = (rec.sampleLen.toNat : Int) - 1 := by
    rw [BitVec.toInt_eq_toNat_of_lt] <;> bv_omega
  have hls : (rec.sampleLen - rec.loopLen - 1#32).toInt =
      (rec.sampleLen.toNat : Int) - rec.loopLen.toNat - 1 := by
    rw [BitVec.toInt_eq_toNat_of_lt] <;> bv_omega
  refine PeRun.inv_of_forward ?_ rfl
  unfold PeRun.InRange
  simp only [latchRecord, hend, hls]
  have hidx : (PeRun.selected ks i).idx.toInt = -1 := rfl
  omega

theorem PeRun.selected_inv (ks : Int) (i : BitVec 16) : (PeRun.selected ks i).setErr.Inv :=
  PeRun.inv_of_forward (by simp [PeRun.InRange, PeRun.selected, PeRun.setErr, PeRun.reset]) rfl

/-- Every move of a voice keeps the voice's invariant. -/
theorem VoiceMove.inv {wave : Memory F64} {i : Instr} {v v' : Voice} {n : Nat} (h : VoiceMove wave v i v')
    (hv : v.Inv n) : v'.Inv n := by
  obtain ⟨hbp, heg, hps⟩ := hv
  have hset : ∀ (k : Fin 3) (g : Envelope), g.Inv → (v.setEg k g).Inv n := by
    refine fun k g hg => ⟨hbp, fun k' => ?_, hps⟩
    rw [Voice.getEg_setEg]
    split
    · exact hg
    · exact heg k'
  cases h with
  | stay => exact ⟨hbp, heg, hps⟩
  | write _ _ r w =>
    refine ⟨by simpa using hbp, fun k => ?_, by simpa using hps⟩
    have hk := heg k
    unfold Envelope.Inv at hk ⊢
    simpa using hk
  | egInit k => exact hset k _ (egInit_inv _)
  | egStart k => exact hset k _ (egStart_inv _ _ (heg k))
  | egRelease k => exact hset k _ (egRelease_inv _ _ (heg k))
  | egStep k => exact hset k _ (egStep_inv _ _ (heg k))
  | initFails ks j =>
    refine ⟨hbp, fun k => ?_, PeRun.selected_inv ks j⟩
    rw [resetRuntime_getEg]
    exact egInit_inv _
  | initStarts ks j rec m hm =>
    refine ⟨hbp, fun k => ?_, latchRecord_inv hm⟩
    rw [startEnvelopes_getEg, resetRuntime_getEg]
    exact egStart_inv _ _ (egInit_inv _)
  | terminate => exact ⟨hbp, heg, hps⟩
  | sound m p hp =>
    refine ⟨hbp, fun k => ?_, moveCursor_inv hps hp⟩
    rw [stepEnvelopes_getEg_with]
    exact egStep_inv _ _ (heg k)
  | noteOff =>
    refine ⟨hbp, fun k => ?_, hps⟩
    rw [Voice.getEg_map]
    exact egRelease_inv _ _ (heg k)

/-- Every command keeps the machine's invariant. -/
theorem exec_inv {i : Instr} {s t : State} (hs : s.Inv) (h : exec i s = .next t) : t.Inv := by
  obtain ⟨hlen, hvoices, hwave, hsrec⟩ := hs
  obtain ⟨ewave, esrec, -, -, elen⟩ := exec_frame h
  refine ⟨elen.trans hlen, fun v' hv' => ?_, ewave ▸ hwave, esrec ▸ hsrec⟩
  obtain ⟨n, hn, hv'⟩ := List.mem_iff_getElem.1 hv'
  have hn' : n < s.voices.length := elen ▸ hn
  exact (exec_voiceMove h (List.getElem?_eq_getElem hn') (hv' ▸ List.getElem?_eq_getElem hn)).inv
    (hvoices _ (List.getElem_mem hn'))

/-- The invariant speaks of the voices and the two memories alone. -/
theorem State.Inv.of_same {s t : State} (hs : s.Inv) (hvoices : t.voices = s.voices) (hwave : t.wave = s.wave)
    (hsrec : t.srec = s.srec) : t.Inv := by
  unfold State.Inv
  rw [hvoices, hwave, hsrec]
  exact hs

/-- Settles O49, by the cases of a step: it holds, answers an illegal word and leaves the voices alone, or runs a
command (`exec_inv`). -/
theorem stepKeepsInvariant : Obligations.StepKeepsInvariant := by
  intro s t hs h
  obtain ⟨-, rfl⟩ | ⟨x, rest, -, ⟨_, v, -, hv, rfl⟩ | ⟨i, -, hi⟩⟩ := step_next h
  · exact hs
  · exact hs.of_same (State.set_addressed (s := s.accept x rest) hv) rfl rfl
  · exact exec_inv (s := s.accept x rest) (hs.of_same rfl rfl rfl) hi

/-- Settles O48: every voice of the reset state is `Voice.reset`, forward, not finished and inside its ranges. -/
theorem invariantAfterReset : Obligations.InvariantAfterReset := by
  refine ⟨List.length_replicate, fun v hv => ?_, Memory.wf_reset⟩
  rw [List.eq_of_mem_replicate hv]
  refine ⟨List.length_replicate, fun k => Envelope.inv_of_not_fin ?_, PeRun.inv_of_forward ?_ rfl⟩
  · simp [Voice.getEg, Voice.reset, Envelope.reset, EgRun.reset]
  · simp [PeRun.InRange, Voice.reset, PeRun.reset]

/-! ### What each command leaves unchanged -/

/-- `FIN` stays set under `EG.STEP`. -/
theorem egStep_fin {c : Cfg} {rate : F64} {g : Envelope} (h : g.run.fin = true) :
    (egStep c rate g).eg.run.fin = true := by
  obtain ⟨-, e⟩ | ⟨_, -, -, e⟩ | ⟨_, -, hf, -⟩ | ⟨_, _, -, hf, -⟩ | ⟨-, hf, -⟩ | ⟨-, hf, -⟩ :=
    egStep_cases c rate g
  · rw [e]; exact h
  · rw [e]; exact h
  all_goals rw [hf] at h; cases h

@[simp] theorem egStart_fin (c : Cfg) (rate : F64) (g : Envelope) :
    (egStart c rate g).1.run.fin = g.run.fin := by
  obtain ⟨-, e⟩ | ⟨-, e⟩ := egStart_cases c rate g <;> rw [e]
  rfl

@[simp] theorem egRelease_fin (c : Cfg) (rate : F64) (g : Envelope) :
    (egRelease c rate g).run.fin = g.run.fin := by
  obtain ⟨-, e⟩ | ⟨-, e⟩ := egRelease_cases c rate g <;> rw [e]
  rfl

/-- `FIN` of envelope `k` after a write of envelope `j` that keeps it when `j` is `k`. -/
theorem Voice.setEg_fin {v : Voice} {j k : Fin 3} {g : Envelope} (hv : (v.getEg k).run.fin = true)
    (hg : j = k → g.run.fin = true) : ((v.setEg j g).getEg k).run.fin = true := by
  rw [Voice.getEg_setEg]
  split
  · next hj => exact hg hj
  · exact hv

/-- Settles O22, by the moves of a voice: but for the two commands excluded, none clears `FIN`. -/
theorem finishedNeverReverts : Obligations.FinishedNeverReverts := by
  intro i s t n v v' k h hv hv' hne hpe hf
  cases exec_voiceMove h hv hv' with
  | stay => exact hf
  | write => simpa using hf
  | egInit j => exact Voice.setEg_fin hf fun hj => absurd (hj ▸ rfl) hne
  | egStart j => exact Voice.setEg_fin hf fun hj => by rw [egStart_fin, hj, hf]
  | egRelease j => exact Voice.setEg_fin hf fun hj => by rw [egRelease_fin, hj, hf]
  | egStep j => exact Voice.setEg_fin hf fun hj => egStep_fin (hj ▸ hf)
  | initFails => exact absurd rfl hpe
  | initStarts => exact absurd rfl hpe
  | terminate => exact hf
  | sound => rw [stepEnvelopes_getEg_with]; exact egStep_fin hf
  | noteOff => rw [Voice.getEg_map, egRelease_fin, hf]

/-- An envelope replaced by one of the same configuration leaves every configuration as it was. -/
theorem Voice.setEg_conf {v : Voice} {j : Fin 3} {g : Envelope} (hg : g.conf = (v.getEg j).conf) (k : Fin 3) :
    ((v.setEg j g).getEg k).conf = (v.getEg k).conf := by
  rw [Voice.getEg_setEg]
  split
  · next hj => rw [hg, hj]
  · rfl

/-- Settles O56, by the moves of a voice: none but a register write touches a configuration register. -/
theorem onlyWriteChangesConfiguration : Obligations.OnlyWriteChangesConfiguration := by
  intro i s t n v v' h hwr hv hv'
  cases exec_voiceMove h hv hv' with
  | stay => exact ⟨rfl, rfl, fun _ => rfl⟩
  | write bank reg => exact absurd rfl (hwr bank reg)
  | egInit j => exact ⟨rfl, rfl, Voice.setEg_conf (egInit_conf _)⟩
  | egStart j => exact ⟨rfl, rfl, Voice.setEg_conf (egStart_conf _ _ _)⟩
  | egRelease j => exact ⟨rfl, rfl, Voice.setEg_conf (egRelease_conf _ _ _)⟩
  | egStep j => exact ⟨rfl, rfl, Voice.setEg_conf (egStep_conf _ _ _)⟩
  | initFails => exact ⟨rfl, rfl, fun k => by rw [resetRuntime_getEg, egInit_conf]⟩
  | initStarts =>
    exact ⟨rfl, rfl, fun k => by rw [startEnvelopes_getEg, egStart_conf, resetRuntime_getEg, egInit_conf]⟩
  | terminate => exact ⟨rfl, rfl, fun _ => rfl⟩
  | sound => exact ⟨rfl, rfl, fun k => by rw [stepEnvelopes_getEg_with, egStep_conf]⟩
  | noteOff => exact ⟨rfl, rfl, fun k => by rw [Voice.getEg_map, egRelease_conf]⟩

/-- Settles O59, by the moves of a voice: those of the other commands build on the same bank 10. -/
theorem onlyPartialCommandsChangeBankTen : Obligations.OnlyPartialCommandsChangeBankTen := by
  intro i s t n v v' h hinit hstep hv hv'
  cases exec_voiceMove h hv hv' with
  | write => exact Reg.write_ps _ _ _
  | initFails => exact absurd rfl hinit
  | initStarts => exact absurd rfl hinit
  | terminate => exact absurd rfl hstep
  | sound => exact absurd rfl hstep
  | stay | egInit | egStart | egRelease | egStep | noteOff => rfl

/-- Settles O58: `PE.STEP` keeps the latched values by `moveCursor_latched`, and every command but it and PE.INIT
keeps bank 10 whole (O59). -/
theorem latchedValuesStayAndTermIsSticky : Obligations.LatchedValuesStayAndTermIsSticky := by
  intro i s t n v v' h hinit hv hv'
  suffices hps : v.ps.SameLatched v'.ps ∧ (v.ps.term = true → v'.ps.term = true) from hps
  by_cases hstep : i = .peStep
  · subst hstep
    cases exec_voiceMove h hv hv' with
    | stay => exact ⟨.refl _, id⟩
    | terminate => exact ⟨.refl _, fun _ => rfl⟩
    | sound m p hp => exact moveCursor_latched hp
  · rw [onlyPartialCommandsChangeBankTen i s t n v v' h hinit hstep hv hv']
    exact ⟨.refl _, id⟩

end Sys2Proof.Machine

/-! ## Register access (R21, R22, R101, R102)

A register's own number against the map, its width against its port, and one law for a read after a write. -/

namespace Sys2Proof.Machine

/-! ### The register map in both directions (R21) -/

/-- A field of known value is the literal of that value. -/
theorem ofNat_of_toNat_eq {w m : Nat} {x : BitVec w} (h : x.toNat = m) : BitVec.ofNat w m = x := by
  rw [← h, BitVec.ofNat_toNat, BitVec.setWidth_eq]

theorem inRange_eq_some {n lo size : Nat} {i : Fin size} (h : inRange n lo size = some i) :
    n = lo + i.val := by
  unfold inRange at h
  split at h
  · next hn => cases h; simp only; omega
  · cases h

/-- A register found in an envelope bank has the number it was found under (R26, R27). -/
theorem egReg_address {e : Fin 3} {reg : BitVec 8} {r : Reg} (h : egReg e reg.toNat = some r) :
    r.address = (egBank e, reg) := by
  unfold egReg at h
  split at h
  · next hi => cases h; exact congrArg _ (ofNat_of_toNat_eq (inRange_eq_some hi))
  split at h
  · next hi => cases h; exact congrArg _ (ofNat_of_toNat_eq (inRange_eq_some hi))
  split at h
  · next hi => cases h; exact congrArg _ (ofNat_of_toNat_eq (inRange_eq_some hi))
  split at h <;> cases h <;> exact congrArg _ (ofNat_of_toNat_eq ‹_›)

/-- A register found in bank 8 has the number it was found under (R36..R39). -/
theorem peReg_address {reg : BitVec 8} {r : Reg} (h : peReg reg.toNat = some r) : r.address = (8#4, reg) := by
  unfold peReg at h
  split at h
  · next hi => cases h; exact congrArg _ (ofNat_of_toNat_eq (inRange_eq_some hi))
  split at h <;> cases h <;> exact congrArg _ (ofNat_of_toNat_eq ‹_›)

/-- A register found in bank 9 has the number it was found under (R42). -/
theorem bpReg_address {n : Nat} {reg : BitVec 8} {r : Reg} (h : bpReg n reg.toNat = some r) :
    r.address = (9#4, reg) := by
  unfold bpReg at h
  split at h
  · split at h <;> cases h <;> exact congrArg _ (ofNat_of_toNat_eq (by omega))
  · cases h

/-- A register found in bank 10 has the number it was found under (R43..R46). -/
theorem psReg_address {reg : BitVec 8} {r : Reg} (h : psReg reg.toNat = some r) :
    r.address = (10#4, reg) := by
  unfold psReg at h
  split at h <;> cases h <;> exact congrArg _ (ofNat_of_toNat_eq ‹_›)

/-- The register a bank and number name has them as its address. -/
theorem regAt_address {n : Nat} {bank : BitVec 4} {reg : BitVec 8} {r : Reg}
    (h : regAt n bank reg = some r) : r.address = (bank, reg) := by
  unfold regAt at h
  split at h
  · next hb => exact ofNat_of_toNat_eq hb ▸ egReg_address h
  · next hb => exact ofNat_of_toNat_eq hb ▸ egReg_address h
  · next hb => exact ofNat_of_toNat_eq hb ▸ egReg_address h
  · next hb => exact ofNat_of_toNat_eq hb ▸ peReg_address h
  · next hb => exact ofNat_of_toNat_eq hb ▸ bpReg_address h
  · next hb => exact ofNat_of_toNat_eq hb ▸ psReg_address h
  · cases h

/-- Entry `i` of a break-point table that fits bank 9 is found under its two numbers (R42). -/
theorem bpReg_key {n i : Nat} (hn : n ≤ 128) (hi : i < n) :
    bpReg n (BitVec.ofNat 8 (2 * i)).toNat = some (.bpKey i) := by
  have hreg : (BitVec.ofNat 8 (2 * i)).toNat = 2 * i := Nat.mod_eq_of_lt (by omega)
  rw [hreg, bpReg, if_pos (by omega), if_pos (by omega), Nat.mul_div_cancel_left i two_pos]

theorem bpReg_smp {n i : Nat} (hn : n ≤ 128) (hi : i < n) :
    bpReg n (BitVec.ofNat 8 (2 * i + 1)).toNat = some (.bpSmp i) := by
  have hreg : (BitVec.ofNat 8 (2 * i + 1)).toNat = 2 * i + 1 := Nat.mod_eq_of_lt (by omega)
  have hhalf : (2 * i + 1) / 2 = i := by omega
  rw [hreg, bpReg, if_pos (by omega), if_neg (by omega), hhalf]

/-- The address of a register names it. -/
theorem regAt_of_address {n : Nat} {r : Reg} (hn : n ≤ 128)
    (hr : ∀ i, r = .bpKey i ∨ r = .bpSmp i → i < n) : regAt n r.address.1 r.address.2 = some r := by
  cases r with
  | tgt e i | dur e i | shp e i => fin_cases e <;> fin_cases i <;> rfl
  | egKey e | ctlA e | ctlD e | ctlR e | phase e | cnt e | len e | entry e | cur e | fin e =>
    fin_cases e <;> rfl
  | rScale i => fin_cases i <;> rfl
  | bpKey i => exact bpReg_key hn (hr i (.inl rfl))
  | bpSmp i => exact bpReg_smp hn (hr i (.inr rfl))
  | _ => rfl

/-- Settles O11: the two directions of the register map. -/
theorem registerMapIsOneToOne : Obligations.RegisterMapIsOneToOne :=
  ⟨fun _ _ _ _ => regAt_address, fun _ _ => regAt_of_address⟩

/-! ### The 64-bit port of a register (R22) -/

theorem lowBits_zext64 {n : Nat} (x : BitVec n) (h : n ≤ 64) : lowBits n (zext64 x) = x := by
  rw [lowBits, zext64, BitVec.setWidth_setWidth_of_le x h, BitVec.setWidth_eq]

theorem lowBits_sext64 {n : Nat} (x : BitVec n) (h : n ≤ 64) : lowBits n (sext64 x) = x := by
  apply BitVec.eq_of_getLsbD_eq
  intro i hi
  rw [lowBits, sext64, BitVec.getLsbD_setWidth, BitVec.getLsbD_signExtend]
  simp [hi, hi.trans_le h]

theorem zext64_lowBits_flag64 (b : Bool) : zext64 (lowBits 1 (flag64 b)) = flag64 b := by
  cases b <;> rfl

theorem zext64_lowBits_64 (w : BitVec 64) : zext64 (lowBits 64 w) = w := rfl

/-- What a register of `r`'s width and kind reads as when it holds the low bits of `w` (R22). -/
def Reg.extended (r : Reg) (w : BitVec 64) : BitVec 64 :=
  if r.signed then sext64 (lowBits r.width w) else zext64 (lowBits r.width w)

theorem Reg.width_le (r : Reg) : r.width ≤ 64 := by
  cases r <;> simp [Reg.width]

/-- Every value read is the extension of its own low bits: by sign, by zeros, or the whole 64 bits. -/
theorem Reg.extended_read (r : Reg) (v : Voice) : r.extended (r.read v) = r.read v := by
  have hw := r.width_le
  cases r with
  | egKey | ksCoarse | ksMaster | ksPart | idx | keyshift | keydiff | endIdx | lstart =>
    exact congrArg sext64 (lowBits_sext64 _ hw)
  | dur | shp | ctlA | ctlD | ctlR | phase | cnt | len | key | flags | playKey | volPartial | volDrum | ampCtl
  | pan | bpKey | bpSmp | smpIndex | lmode | base | svol =>
    exact congrArg zext64 (lowBits_zext64 _ hw)
  | fin | dir | term | err => exact zext64_lowBits_flag64 _
  | _ => exact zext64_lowBits_64 _

/-- Settles O9: `RD` only answers, and what it answers is the extension of its low bits. -/
theorem readAnswersRegister : Obligations.ReadAnswersRegister := by
  refine ⟨fun s v bank reg r hv hr => ?_, fun r v => (r.extended_read v).symm⟩
  rw [← State.answeredThrough_same hv, exec_addressed _ hv]
  simp [commandReply, readReg, hr]

/-! ### A read after a write (R101) -/

/-- A break-point entry found in bank 9 is one of the table's. -/
theorem bpReg_lt {n m i : Nat} {r : Reg} (h : bpReg n m = some r) (hr : r = .bpKey i ∨ r = .bpSmp i) :
    i < n := by
  unfold bpReg at h
  split at h
  · split at h <;> cases h <;> rcases hr with hr | hr <;> cases hr <;> omega
  · cases h

/-- A break-point entry that a bank and number name is one of the table's: only bank 9 names any. -/
theorem regAt_bp_lt {n i : Nat} {bank : BitVec 4} {reg : BitVec 8} {r : Reg} (h : regAt n bank reg = some r)
    (hr : r = .bpKey i ∨ r = .bpSmp i) : i < n := by
  have hbank : bank = 9#4 := by
    have ha := congrArg Prod.fst (regAt_address h)
    rcases hr with rfl | rfl <;> exact ha.symm
  subst hbank
  exact bpReg_lt h hr

/-- After a write of an RW register there is, it reads as the extension of the low bits written, and every other
register as before. -/
theorem Reg.read_write {r : Reg} {v : Voice} (w : BitVec 64) (hrw : r.access = .rw)
    (hbp : ∀ i, r = .bpKey i ∨ r = .bpSmp i → i < v.bp.length) (r' : Reg) :
    r'.read (r.write w v) = if r' = r then r.extended w else r'.read v := by
  cases r with
  | tgt e i | dur e i | shp e i | egKey e | ctlA e | ctlD e | ctlR e =>
    cases r' with
    | tgt e' | dur e' | shp e' | egKey e' | ctlA e' | ctlD e' | ctlR e' =>
      simp only [Reg.read, Reg.write, Voice.mapEgConf_conf]
      by_cases he : e = e'
      · subst he
        simp [Reg.extended, Reg.signed, Reg.width, zext64_lowBits_64, Vector.getElem_set, Fin.ext_iff, eq_comm,
          apply_ite zext64]
      · simp [he, Ne.symm he]
    | phase | cnt | len | entry | cur | fin => simp [Reg.read, Reg.write]
    | _ => rfl
  | rScale i =>
    cases r' with
    | rScale j =>
      simp [Reg.read, Reg.write, Vector.getElem_set, Fin.ext_iff, eq_comm, Reg.extended, Reg.signed, Reg.width,
        zext64_lowBits_64]
    | _ => rfl
  | bpKey i | bpSmp i =>
    have hi : i < v.bp.length := hbp i (by simp)
    cases r' with
    | bpKey | bpSmp =>
      simp [Reg.read, Reg.write, Voice.mapBp_entry, hi, Reg.extended, Reg.signed, Reg.width, eq_comm,
        apply_ite BpEntry.key, apply_ite BpEntry.smp, apply_ite zext64]
    | _ => rfl
  | sampleRate | nativeRate | key | flags | ksCoarse | ksMaster | ksPart | playKey | kfMult | pCoarseCents
  | pFineCents | rFinetune | rTune | rBend | volPartial | volDrum | ampCtl | pan => cases r' <;> rfl
  | _ => cases hrw

/-- Settles O8, by the law of a read after a write. -/
theorem writeStoresLowBits : Obligations.WriteStoresLowBits := by
  intro s v bank reg r hv hr hrw
  have hread := Reg.read_write s.bus.wdata hrw fun _ => regAt_bp_lt hr
  refine ⟨r.write s.bus.wdata v, ?_, ?_, fun r' hne => ?_, r.write_bp_length _ v⟩
  · rw [exec_addressed _ hv]
    simp [commandReply, writeReg, hr, hrw]
  · rw [hread, if_pos rfl]
    rfl
  · rw [hread, if_neg hne]

end Sys2Proof.Machine

/-! ## The memories and the stops (R60..R63, R70, R80)

Where a command stops, read off the reply it computes, that no step writes a memory, and that commands to
different voices do not see each other. -/

namespace Sys2Proof.Machine

/-! ### `PE.INIT` of an index without a record (R63) -/

/-- `SrecRead` stops for one reason: the platform has no record of the index. -/
theorem srecRead_eq_error {srec : Memory SampleRecord} {i : BitVec 16} {r : Refusal} :
    srecRead srec i = .error r ↔ r = .srecUnbacked ∧ Memory.read srec i.toNat = none := by
  unfold srecRead
  cases Memory.read srec i.toNat with
  | none => simp [eq_comm]
  | some rec => simp

/-- The index of a selected break-point that is set is the one resolved (R144). -/
theorem resolveSample_of_selected {c : Cfg} {ak : Int} {bp : List BpEntry} {b : BpEntry}
    (hsel : selectBreakpoint c ak bp = some b) (hset : b.smp ≠ c.smpUnset) :
    resolveSample c ak bp = some b.smp := by
  simp [resolveSample, hsel, hset]

/-- `PE.INIT` stops exactly where the read of the record of its resolved index does. -/
theorem peInit_eq_error {c : Cfg} {srec : Memory SampleRecord} {b : Bus} {v : Voice} {r : Refusal} :
    peInit c srec b v = .error r ↔
      ∃ i, resolveSample c ((v.pe.key.toNat : Int) + keyShift v.pe) v.bp = some i ∧
        srecRead srec i = .error r := by
  simp only [peInit]
  cases resolveSample c ((v.pe.key.toNat : Int) + keyShift v.pe) v.bp with
  | none => simp
  | some i =>
    cases hi : srecRead srec i with
    | error f => simp [hi]
    | ok rec => cases hg : geometry rec <;> simp [hi, hg]

/-- Settles O32: the index resolved is the break-point's, and its read stops `PE.INIT`. -/
theorem peInitStopsOnUnbackedRecord : Obligations.PeInitStopsOnUnbackedRecord := by
  intro s v b hv hsel hset hread
  have hstop : peInit Config.cfg s.srec s.bus v = .error .srecUnbacked :=
    peInit_eq_error.2 ⟨b.smp, resolveSample_of_selected hsel hset, srecRead_eq_error.2 ⟨rfl, hread⟩⟩
  rw [exec_addressed _ hv]
  simp only [commandReply, hstop]

/-! ### Where a command stops (R62, R63, R80) -/

/-- Of the replies only that of `PE.STEP`, which reads WAVE, can be a fault. -/
theorem commandReply_fault {wave : Memory F64} {srec : Memory SampleRecord} {b : Bus} {i : Instr} {v : Voice}
    {f : Fault} (h : commandReply wave srec b i v = .fault f) : i = .peStep := by
  cases i with
  | peStep => rfl
  | peInit => simp only [commandReply] at h; split at h <;> cases h
  | _ => cases h

/-- Of the replies only that of `PE.INIT`, which reads SREC, can be a refusal. -/
theorem commandReply_refused {wave : Memory F64} {srec : Memory SampleRecord} {b : Bus} {i : Instr}
    {v : Voice} {r : Refusal} (h : commandReply wave srec b i v = .refused r) :
    r = .srecUnbacked ∧ i = .peInit := by
  cases i with
  | peInit =>
    simp only [commandReply] at h
    split at h <;> cases h
    next hstop =>
      obtain ⟨j, -, hj⟩ := peInit_eq_error.1 hstop
      exact ⟨(srecRead_eq_error.1 hj).1, rfl⟩
  | peStep => simp only [commandReply] at h; split at h <;> cases h
  | _ => cases h

/-- A command that faults does so in the reply on a voice there is. -/
theorem exec_fault {i : Instr} {s : State} {f : Fault} (h : exec i s = .fault f) :
    ∃ v, s.addressed = some v ∧ commandReply s.wave s.srec s.bus i v = .fault f := by
  cases hv : s.addressed with
  | none => rw [exec_unaddressed i hv] at h; cases h
  | some v =>
    rw [exec_addressed i hv] at h
    split at h <;> cases h
    exact ⟨v, rfl, ‹_›⟩

/-- A command is refused for want of the voice, or in the reply on a voice there is. -/
theorem exec_refused {i : Instr} {s : State} {r : Refusal} (h : exec i s = .refused r) :
    (r = .voiceOutOfRange ∧ s.addressed = none) ∨
    ∃ v, s.addressed = some v ∧ commandReply s.wave s.srec s.bus i v = .refused r := by
  cases hv : s.addressed with
  | none => rw [exec_unaddressed i hv] at h; cases h; exact .inl ⟨rfl, rfl⟩
  | some v =>
    rw [exec_addressed i hv] at h
    split at h <;> cases h
    exact .inr ⟨v, rfl, ‹_›⟩

/-- Settles O52: a stop is the missing voice or the stop of a reply. -/
theorem stopsOnlyWhereDeclared : Obligations.StopsOnlyWhereDeclared := by
  refine fun i s => ⟨fun f h => ?_, fun r h => ?_, exec_unaddressed i⟩
  · obtain ⟨v, -, hreply⟩ := exec_fault h
    exact commandReply_fault hreply
  · obtain hmissing | ⟨v, -, hreply⟩ := exec_refused h
    · exact .inl hmissing
    · exact .inr (commandReply_refused hreply)

/-! ### No step writes a memory (R60, R61, R70) -/

/-- The two memories after a step are those before it. -/
theorem step_memories {s t : State} (h : step s = .next t) : t.wave = s.wave ∧ t.srec = s.srec := by
  obtain ⟨-, rfl⟩ | ⟨x, rest, -, ⟨_, v, -, -, rfl⟩ | ⟨i, -, hi⟩⟩ := step_next h
  · exact ⟨rfl, rfl⟩
  · exact ⟨rfl, rfl⟩
  · obtain ⟨hwave, hsrec, -⟩ := exec_frame hi
    exact ⟨hwave, hsrec⟩

/-- Settles O53: the memories themselves are unchanged, so every read of them is. -/
theorem stepNeverWritesMemory : Obligations.StepNeverWritesMemory := by
  intro s t h
  obtain ⟨hwave, hsrec⟩ := step_memories h
  exact ⟨fun a => by rw [hwave], fun i => by rw [hsrec]⟩

/-! ### Commands to different voices (R214) -/

/-- A command whose reply on the addressed voice completes, completes with it. -/
theorem exec_of_reply {i : Instr} {s : State} {v : Voice} {r : Reply} (hv : s.addressed = some v)
    (hr : commandReply s.wave s.srec s.bus i v = .next r) : exec i s = .next (s.complete r) := by
  rw [exec_addressed i hv, hr]

/-- A command to voice `b.voice` finds it as it was before a command to another voice. -/
theorem addressed_complete_of_ne {s : State} {b : Bus} (hne : s.bus.voice ≠ b.voice) (r : Reply) :
    ({ s.complete r with bus := b } : State).addressed = ({ s with bus := b } : State).addressed :=
  List.getElem?_set_ne hne

/-- Settles O55: a reply depends on the memories, the command's own ports and its voice, none of which the other
command changes, and the stores to two different voices commute. -/
theorem commandsToDifferentVoicesCommute : Obligations.CommandsToDifferentVoicesCommute := by
  intro i j bi bj s t1 t12 hne hi hj
  obtain ⟨v, ri, hv, hri, rfl⟩ := exec_next hi
  obtain ⟨w, rj, hw, hrj, rfl⟩ := exec_next hj
  have hw' : ({ s with bus := bj } : State).addressed = some w :=
    (addressed_complete_of_ne (s := { s with bus := bi }) hne ri).symm.trans hw
  have hv' : ({ ({ s with bus := bj } : State).complete rj with bus := bi } : State).addressed = some v :=
    (addressed_complete_of_ne (s := { s with bus := bj }) hne.symm rj).trans hv
  exact ⟨_, _, exec_of_reply hw' hrj, exec_of_reply hv' hri, List.set_comm _ _ hne.symm, rfl, rfl, rfl, rfl⟩

end Sys2Proof.Machine

/-! ## Command words (R82..R86)

A word is its four fields. `decode_eq_ok` says once which fields decode to which command; both round trips are read
off it. -/

namespace Sys2Proof

/-! ### The fields of a word -/

/-- The four fields of `w` are those of command `i`: its opcode, SEL and REG, and zero (R82, R83). -/
def HasFieldsOf (w : CmdWord) (i : Instr) : Prop :=
  opField w = opcode i ∧ selField w = selOf i ∧ regField w = regOf i ∧ zeroField w = 0#16

theorem encode_hasFieldsOf (i : Instr) : HasFieldsOf (encode i) i := fields_of_append _ _ _

/-- A word is its four fields put together: they cover all 32 bits (R82). -/
theorem append_fields (w : CmdWord) : opField w ++ (selField w ++ (regField w ++ zeroField w)) = w := by
  have hreg : regField w ++ zeroField w = w.extractLsb' 0 24 :=
    BitVec.extractLsb'_append_extractLsb'_eq_extractLsb' rfl
  have hsel : selField w ++ w.extractLsb' 0 24 = w.extractLsb' 0 28 :=
    BitVec.extractLsb'_append_extractLsb'_eq_extractLsb' rfl
  have hop : opField w ++ w.extractLsb' 0 28 = w.extractLsb' 0 32 :=
    BitVec.extractLsb'_append_extractLsb'_eq_extractLsb' rfl
  rw [hreg, hsel, hop, BitVec.extractLsb'_eq_self]

/-! ### What decodes, format by format (R83, R86) -/

theorem decodeN_eq_ok {w : CmdWord} {i j : Instr} :
    decodeN w i = .ok j ↔ selField w = 0#4 ∧ regField w = 0#8 ∧ i = j := by
  unfold decodeN
  split_ifs <;> simp_all

theorem decodeE_eq_ok {w : CmdWord} {mk : BitVec 4 → Instr} {j : Instr} :
    decodeE w mk = .ok j ↔
      legalEnvelope (selField w) = true ∧ regField w = 0#8 ∧ mk (selField w) = j := by
  unfold decodeE
  split_ifs <;> simp_all

theorem decodeN_eq_error {w : CmdWord} {i : Instr} :
    (∃ e, decodeN w i = .error e) ↔ selField w ≠ 0#4 ∨ regField w ≠ 0#8 := by
  unfold decodeN
  split_ifs <;> simp_all

theorem legalEnvelope_eq_false {e : BitVec 4} : legalEnvelope e = false ↔ 2#4 < e := by
  simp [legalEnvelope, BitVec.lt_def]

theorem decodeE_eq_error {w : CmdWord} {mk : BitVec 4 → Instr} :
    (∃ e, decodeE w mk = .error e) ↔ 2#4 < selField w ∨ regField w ≠ 0#8 := by
  rw [← legalEnvelope_eq_false]
  unfold decodeE
  split_ifs <;> simp_all

/-! ### The decoder against the encoder (R82, R85) -/

theorem hasFieldsOf_of_decode {w : CmdWord} {i : Instr} (h : decode w = .ok i) :
    HasFieldsOf w i ∧ i.wf = true := by
  unfold decode at h
  split_ifs at h with hz
  rw [not_not] at hz
  have hop {n : Nat} (hn : (opField w).toNat = n) : opField w = BitVec.ofNat 4 n := by
    rw [← hn, BitVec.ofNat_toNat, BitVec.setWidth_eq]
  split at h
  case h_2 hn | h_3 hn => cases h; exact ⟨⟨hop hn, rfl, rfl, hz⟩, rfl⟩
  case h_1 hn | h_8 hn | h_9 hn | h_10 hn =>
    obtain ⟨hsel, hreg, rfl⟩ := decodeN_eq_ok.1 h
    exact ⟨⟨hop hn, hsel, hreg, hz⟩, rfl⟩
  case h_4 hn | h_5 hn | h_6 hn | h_7 hn =>
    obtain ⟨hsel, hreg, rfl⟩ := decodeE_eq_ok.1 h
    exact ⟨⟨hop hn, rfl, hreg, hz⟩, hsel⟩
  case h_11 => cases h

theorem decode_of_hasFieldsOf {w : CmdWord} {i : Instr} (h : HasFieldsOf w i) (hi : i.wf = true) :
    decode w = .ok i := by
  obtain ⟨hop, hsel, hreg, hz⟩ := h
  unfold decode
  rw [if_neg (not_not.2 hz), hop]
  cases i with
  | nop | peInit | peStep | peStop => exact decodeN_eq_ok.2 ⟨hsel, hreg, rfl⟩
  | wr bank reg => exact congrArg Except.ok (congrArg₂ Instr.wr hsel hreg)
  | rd bank reg => exact congrArg Except.ok (congrArg₂ Instr.rd hsel hreg)
  | egInit e | egStart e | egRelease e | egStep e =>
    exact decodeE_eq_ok.2 ⟨(congrArg legalEnvelope hsel).trans hi, hreg, congrArg _ hsel⟩

/-- A word decodes to a command exactly when it has that command's fields and the command is well formed. -/
theorem decode_eq_ok {w : CmdWord} {i : Instr} :
    decode w = .ok i ↔ HasFieldsOf w i ∧ i.wf = true :=
  ⟨hasFieldsOf_of_decode, fun ⟨hw, hi⟩ => decode_of_hasFieldsOf hw hi⟩

/-- Settles O2: the word of a command has the command's fields. -/
theorem decodeInvertsEncode : Obligations.DecodeInvertsEncode :=
  fun i hi => decode_eq_ok.2 ⟨encode_hasFieldsOf i, hi⟩

/-- Settles O3: a word that decodes has the fields of its command, and a word is its fields. -/
theorem encodeInvertsDecode : Obligations.EncodeInvertsDecode := by
  intro w i h
  obtain ⟨⟨hop, hsel, hreg, hz⟩, hi⟩ := decode_eq_ok.1 h
  refine ⟨?_, hi⟩
  rw [encode, ← hop, ← hsel, ← hreg, ← hz, append_fields]

/-- Settles O1: each word is the encoding of its command. -/
theorem tableWordsDecode : Obligations.TableWordsDecode := by
  have h := decodeInvertsEncode
  exact ⟨h .nop rfl, h (.wr 2#4 0x08#8) rfl, h (.rd 10#4 0x02#8) rfl, h (.egInit 1#4) rfl, h (.egStart 2#4) rfl,
    h (.egRelease 0#4) rfl, h (.egStep 2#4) rfl, h .peInit rfl, h .peStep rfl, h .peStop rfl⟩

/-! ### Illegal words (R86) -/

/-- R86: a word is illegal by its opcode, by its ZERO field, or by the operand fields of its format. -/
theorem decode_eq_error {w : CmdWord} :
    (∃ e, decode w = .error e) ↔
      ((opField w = 0x3#4 ∨ 0xB#4 ≤ opField w) ∨ zeroField w ≠ 0#16 ∨
       ((opField w = 0x0#4 ∨ opField w = 0x8#4 ∨ opField w = 0x9#4 ∨ opField w = 0xA#4) ∧
        (selField w ≠ 0#4 ∨ regField w ≠ 0#8)) ∨
       ((0x4#4 ≤ opField w ∧ opField w ≤ 0x7#4) ∧ (2#4 < selField w ∨ regField w ≠ 0#8))) := by
  unfold decode
  split_ifs with hz
  · simp [hz]
  rw [not_not] at hz
  simp only [hz, ← BitVec.toNat_inj, BitVec.le_def, BitVec.toNat_ofNat]
  split
  case h_2 hn | h_3 hn => simp [hn]
  case h_1 hn | h_8 hn | h_9 hn | h_10 hn => simp [hn, decodeN_eq_error]
  case h_4 hn | h_5 hn | h_6 hn | h_7 hn => simp [hn, decodeE_eq_error]
  case h_11 =>
    simp only [imp_false] at *
    exact iff_of_true ⟨_, rfl⟩ (.inl (by omega))

end Sys2Proof

namespace Sys2Proof.Machine

/-- R86: an illegal word at the head of the queue is answered on the state that accepted it. -/
theorem step_of_decode_error {s : State} {t : Transfer} {rest : List Transfer} {e : IllegalWord}
    (hp : s.pending = t :: rest) (hd : decode t.cmd = .error e) : step s = (s.accept t rest).illegal := by
  unfold step
  rw [hp]
  simp only [hd]

/-- R86: an illegal command to a voice there is only answers. -/
theorem State.illegal_addressed {s : State} {v : Voice} (hv : s.addressed = some v) :
    s.illegal = .next { s with
      answer := { rdata := 0#64, mixL := s.bus.mixL, mixR := s.bus.mixR,
                  term := v.ps.term || v.ps.err, diag := .illegalCmd } } := by
  rw [State.illegal, State.onVoice_some hv, State.complete_report, State.answeredThrough_same hv]

/-- Settles O4: R86's list of illegal words, and the one answer to all of them. -/
theorem illegalWordsAnswered : Obligations.IllegalWordsAnswered := by
  refine ⟨fun _ => decode_eq_error, fun s t rest v e hp hd hv => ?_⟩
  have hv' : (s.accept t rest).addressed = some v := hv
  exact ⟨_, (step_of_decode_error hp hd).trans (State.illegal_addressed hv'), rfl, rfl, rfl, rfl, rfl, rfl, rfl⟩

/-! ### A command placed by the host (R80, R81) -/

/-- Settles O6: the word placed decodes to its command, and the state that accepts it is the one it was placed in. -/
theorem placedCommandRunsNext : Obligations.PlacedCommandRunsNext := by
  intro s i hi
  have hword : BitVec.ofNat 32 ((encode i).toNat % 2 ^ 32) = encode i := by
    rw [Nat.mod_eq_of_lt (encode i).isLt, BitVec.ofNat_toNat, BitVec.setWidth_eq]
  have hd : decode (BitVec.ofNat 32 ((encode i).toNat % 2 ^ 32)) = .ok i :=
    (congrArg decode hword).trans (decodeInvertsEncode i hi)
  exact step_of_decode_ok (s := s.withFetchWord 32 (encode i).toNat) (t := { cmd := _, bus := s.bus }) rfl hd

end Sys2Proof.Machine

/-! ## The `EG.CONFIG` pseudo-instruction (R88, R101)

Its sixteen `WR`s as one list of registers and values: each is a change of one envelope's configuration, and together
they set all of it but the controllers. -/

namespace Sys2Proof.Machine

/-! ### The writes of the expansion -/

/-- The register writes of one ramp in `EG.CONFIG`, as `rampTransfers` presents them. -/
def rampWrites (e : Fin 3) (t : Vector F64 5) (d : Vector (BitVec 7) 5) (sh : Vector (BitVec 1) 5) (i : Fin 5) :
    List (Reg × BitVec 64) :=
  [(.tgt e i, t[i]), (.dur e i, zext64 d[i]), (.shp e i, zext64 sh[i])]

/-- The register writes of `EG.CONFIG`: the five ramps in order, then the key (R88). -/
def configWrites (e : Fin 3) (t : Vector F64 5) (d : Vector (BitVec 7) 5) (sh : Vector (BitVec 1) 5)
    (k : BitVec 8) : List (Reg × BitVec 64) :=
  (List.finRange 5).flatMap (rampWrites e t d sh) ++ [(.egKey e, zext64 k)]

theorem assemble_egConfig (n : Nat) (e : Fin 3) (t : Vector F64 5) (d : Vector (BitVec 7) 5)
    (sh : Vector (BitVec 1) 5) (k : BitVec 8) :
    assemble n (.egConfig e t d sh k) =
      (configWrites e t d sh k).map fun p => wrTransfer n p.1.address p.2 := rfl

/-- What an envelope's bank names does not depend on the size of the break-point table (R21). -/
theorem regAt_egBank (m : Nat) (e : Fin 3) (reg : BitVec 8) :
    regAt m (egBank e) reg = egReg e reg.toNat := by
  fin_cases e <;> rfl

theorem egBank_ne_bpBank (e : Fin 3) : egBank e ≠ 9#4 := by
  revert e
  decide

/-- A register of an envelope's bank is found under its address whatever the break-point table holds. -/
theorem regAt_of_egBank {r : Reg} {e : Fin 3} (m : Nat) (hr : r.address.1 = egBank e) :
    regAt m r.address.1 r.address.2 = some r := by
  have hbp (i : Nat) (h : r = .bpKey i ∨ r = .bpSmp i) : i < 0 := by
    rcases h with rfl | rfl <;> exact absurd hr.symm (egBank_ne_bpBank e)
  have h0 := regAt_of_address (Nat.zero_le 128) hbp
  rw [hr, regAt_egBank] at h0 ⊢
  exact h0

/-- Every register `EG.CONFIG` writes is an RW register of the envelope's bank. -/
theorem configWrites_writable {e : Fin 3} {t : Vector F64 5} {d : Vector (BitVec 7) 5} {sh : Vector (BitVec 1) 5}
    {k : BitVec 8} {p : Reg × BitVec 64} (hp : p ∈ configWrites e t d sh k) :
    p.1.access = .rw ∧ p.1.address.1 = egBank e := by
  simp only [configWrites, rampWrites, List.mem_append, List.mem_flatMap, List.mem_cons, List.not_mem_nil,
    or_false] at hp
  rcases hp with ⟨i, -, rfl | rfl | rfl⟩ | rfl <;> exact ⟨rfl, rfl⟩

/-! ### The configuration they leave -/

theorem Voice.mapEgConf_mapEgConf (v : Voice) (e : Fin 3) (f g : EgConfig → EgConfig) :
    (v.mapEgConf e f).mapEgConf e g = v.mapEgConf e fun c => g (f c) := by
  simp [Voice.mapEgConf, Voice.setEg, Voice.getEg]

/-- The vector `z` with the element at `i` copied from `y`. -/
def copyAt {α : Type} {n : Nat} (y z : Vector α n) (i : Fin n) : Vector α n := z.set i y[i]

theorem getElem_copyAt {α : Type} {n : Nat} (y z : Vector α n) (i j : Fin n) :
    (copyAt y z i)[j] = if j = i then y[j] else z[j] := by
  by_cases hij : j = i
  · subst hij; simp [copyAt]
  · simp [copyAt, hij, Vector.getElem_set_ne _ _ (Fin.val_ne_of_ne (Ne.symm hij))]

theorem getElem_foldl_copyAt {α : Type} {n : Nat} (y z : Vector α n) (l : List (Fin n)) (j : Fin n) :
    (l.foldl (copyAt y) z)[j] = if j ∈ l then y[j] else z[j] := by
  induction l generalizing z with
  | nil => simp
  | cons i l ih =>
    rw [List.foldl_cons, ih, getElem_copyAt]
    by_cases hij : j = i <;> simp [hij]

/-- Copying every element leaves a copy. -/
theorem foldl_copyAt_finRange {α : Type} {n : Nat} (y z : Vector α n) :
    (List.finRange n).foldl (copyAt y) z = y := by
  apply Vector.ext
  intro j hj
  have h := getElem_foldl_copyAt y z (List.finRange n) ⟨j, hj⟩
  rwa [if_pos (List.mem_finRange _)] at h

/-- The configuration with the three arrays' elements of ramp `i` replaced. -/
def EgConfig.setRamp (t : Vector F64 5) (d : Vector (BitVec 7) 5) (sh : Vector (BitVec 1) 5) (c : EgConfig)
    (i : Fin 5) : EgConfig :=
  { c with tgt := copyAt t c.tgt i, dur := copyAt d c.dur i, shp := copyAt sh c.shp i }

theorem foldl_rampWrites (v : Voice) (e : Fin 3) (t : Vector F64 5) (d : Vector (BitVec 7) 5)
    (sh : Vector (BitVec 1) 5) (i : Fin 5) :
    (rampWrites e t d sh i).foldl (fun w p => p.1.write p.2 w) v =
      v.mapEgConf e fun c => c.setRamp t d sh i := by
  simp [rampWrites, Reg.write, Voice.mapEgConf_mapEgConf, lowBits_zext64, EgConfig.setRamp, copyAt]

theorem foldl_mapEgConf {α : Type} (v : Voice) (e : Fin 3) (f : EgConfig → α → EgConfig) (l : List α) :
    l.foldl (fun w x => w.mapEgConf e fun c => f c x) v = v.mapEgConf e fun c => l.foldl f c := by
  induction l generalizing v with
  | nil => exact (v.setEg_getEg e).symm
  | cons x l ih =>
    rw [List.foldl_cons, ih, Voice.mapEgConf_mapEgConf]
    rfl

theorem foldl_setRamp (c : EgConfig) (t : Vector F64 5) (d : Vector (BitVec 7) 5) (sh : Vector (BitVec 1) 5)
    (l : List (Fin 5)) :
    l.foldl (EgConfig.setRamp t d sh) c =
      { c with
        tgt := l.foldl (copyAt t) c.tgt
        dur := l.foldl (copyAt d) c.dur
        shp := l.foldl (copyAt sh) c.shp } := by
  induction l generalizing c with
  | nil => rfl
  | cons i l ih => rw [List.foldl_cons, ih]; rfl

/-- The writes of `EG.CONFIG` set the targets, durations, shapes and key of the envelope, and nothing else. -/
theorem foldl_configWrites (v : Voice) (e : Fin 3) (t : Vector F64 5) (d : Vector (BitVec 7) 5)
    (sh : Vector (BitVec 1) 5) (k : BitVec 8) :
    (configWrites e t d sh k).foldl (fun w p => p.1.write p.2 w) v =
      v.mapEgConf e fun c => { c with tgt := t, dur := d, shp := sh, key := k } := by
  rw [configWrites, List.foldl_append, List.foldl_flatMap]
  simp only [foldl_rampWrites, foldl_mapEgConf v e (EgConfig.setRamp t d sh), foldl_setRamp, foldl_copyAt_finRange]
  simp [Reg.write, Voice.mapEgConf_mapEgConf, lowBits_zext64]

/-- Settles O60: the expansion is a queue of `WR`s of RW registers, which runs to its end with the writes applied. -/
theorem egConfigConfiguresEnvelope : Obligations.EgConfigConfiguresEnvelope := by
  intro s n v e t d sh k hv hp
  have hw (p : Reg × BitVec 64) (hmem : p ∈ configWrites e t d sh k) :
      p.1.access = .rw ∧ ∀ m, regAt m p.1.address.1 p.1.address.2 = some p.1 := by
    obtain ⟨hrw, hbank⟩ := configWrites_writable hmem
    exact ⟨hrw, fun m => regAt_of_egBank m hbank⟩
  obtain ⟨u, hrun, hpend, hvoices⟩ := run_writes n _ hw hv (hp.trans (assemble_egConfig n e t d sh k))
  exact ⟨rfl, u, hrun, hpend, by rw [hvoices, foldl_configWrites]; rfl⟩

end Sys2Proof.Machine

/-! ## What a register access leaves alone (R74, R100, R101, R103)

Which bank and number hold no register, which registers are read-only, the answer of a command that leaves its
voice alone, and that a write reaches no runtime register. -/

namespace Sys2Proof.Machine

/-! ### The holes of the register map (R103) -/

theorem inRange_eq_none {n lo size : Nat} : inRange n lo size = none ↔ ¬ (lo ≤ n ∧ n - lo < size) := by
  unfold inRange
  split <;> simp [*]

/-- The numbers of an envelope bank that hold no register (R26, R27). -/
theorem egReg_eq_none {e : Fin 3} {n : Nat} :
    egReg e n = none ↔
      ¬ (n ≤ 0x04 ∨ (0x08 ≤ n ∧ n ≤ 0x0C) ∨ (0x10 ≤ n ∧ n ≤ 0x14) ∨ (0x18 ≤ n ∧ n ≤ 0x1B) ∨
         (0x20 ≤ n ∧ n ≤ 0x25)) := by
  unfold egReg
  split
  · next i hi => have := inRange_eq_some hi; exact iff_of_false nofun (by omega)
  next h1 =>
  split
  · next i hi => have := inRange_eq_some hi; exact iff_of_false nofun (by omega)
  next h2 =>
  split
  · next i hi => have := inRange_eq_some hi; exact iff_of_false nofun (by omega)
  next h3 =>
  rw [inRange_eq_none] at h1 h2 h3
  split
  case h_11 => simp only [imp_false, true_iff] at *; omega
  all_goals exact iff_of_false nofun (by omega)

/-- The numbers of bank 8 that hold no register (R36..R39). -/
theorem peReg_eq_none {n : Nat} :
    peReg n = none ↔
      ¬ (n ≤ 0x0A ∨ (0x10 ≤ n ∧ n ≤ 0x12) ∨ (0x20 ≤ n ∧ n ≤ 0x2B) ∨ (0x30 ≤ n ∧ n ≤ 0x33)) := by
  unfold peReg
  split
  · next i hi => have := inRange_eq_some hi; exact iff_of_false nofun (by omega)
  next h1 =>
  rw [inRange_eq_none] at h1
  split
  case h_19 => simp only [imp_false, true_iff] at *; omega
  all_goals exact iff_of_false nofun (by omega)

/-- The numbers of bank 9 that hold no register (R42). -/
theorem bpReg_eq_none {m n : Nat} : bpReg m n = none ↔ 2 * m ≤ n := by
  unfold bpReg
  split_ifs <;> simp <;> omega

/-- The numbers of bank 10 that hold no register (R43..R46). -/
theorem psReg_eq_none {n : Nat} : psReg n = none ↔ ¬ (n ≤ 0x0E ∨ (0x10 ≤ n ∧ n ≤ 0x17)) := by
  unfold psReg
  split
  case h_24 => simp only [imp_false, true_iff] at *; omega
  all_goals exact iff_of_false nofun (by omega)

/-- The pairs `(bank, reg)` that hold no register (R103). -/
theorem regAt_eq_none {n : Nat} {bank : BitVec 4} {reg : BitVec 8} :
    regAt n bank reg = none ↔
      ((3 ≤ bank.toNat ∧ bank.toNat ≤ 7) ∨ 11 ≤ bank.toNat ∨
       (bank.toNat ≤ 2 ∧
        ¬ (reg.toNat ≤ 0x04 ∨ (0x08 ≤ reg.toNat ∧ reg.toNat ≤ 0x0C) ∨
           (0x10 ≤ reg.toNat ∧ reg.toNat ≤ 0x14) ∨ (0x18 ≤ reg.toNat ∧ reg.toNat ≤ 0x1B) ∨
           (0x20 ≤ reg.toNat ∧ reg.toNat ≤ 0x25))) ∨
       (bank.toNat = 8 ∧
        ¬ (reg.toNat ≤ 0x0A ∨ (0x10 ≤ reg.toNat ∧ reg.toNat ≤ 0x12) ∨
           (0x20 ≤ reg.toNat ∧ reg.toNat ≤ 0x2B) ∨ (0x30 ≤ reg.toNat ∧ reg.toNat ≤ 0x33))) ∨
       (bank.toNat = 9 ∧ 2 * n ≤ reg.toNat) ∨
       (bank.toNat = 10 ∧ ¬ (reg.toNat ≤ 0x0E ∨ (0x10 ≤ reg.toNat ∧ reg.toNat ≤ 0x17)))) := by
  unfold regAt
  split
  case h_1 hb | h_2 hb | h_3 hb => rw [egReg_eq_none]; omega
  case h_4 hb => rw [peReg_eq_none]; omega
  case h_5 hb => rw [bpReg_eq_none]; omega
  case h_6 hb => rw [psReg_eq_none]; omega
  case h_7 => simp only [imp_false, true_iff] at *; omega

/-! ### The read-only registers (R103) -/

/-- By its own number: a register is read-only in 0x20..0x25 of an envelope bank and anywhere in bank 10. -/
theorem Reg.access_eq_ro (r : Reg) :
    r.access = .ro ↔
      (r.address.1.toNat ≤ 2 ∧ 0x20 ≤ r.address.2.toNat ∧ r.address.2.toNat ≤ 0x25) ∨
        r.address.1.toNat = 10 := by
  cases r with
  | tgt e i | dur e i | shp e i => fin_cases e <;> fin_cases i <;> decide
  | egKey e | ctlA e | ctlD e | ctlR e | phase e | cnt e | len e | entry e | cur e | fin e =>
    revert e; decide
  | rScale i => revert i; decide
  | bpKey i | bpSmp i => exact iff_of_false nofun (by simp [Reg.address])
  | _ => decide

/-! ### The answer of a command that leaves its voice alone -/

/-- A command whose reply is a value and a report on the voice as it was changes the answer alone (R80). -/
theorem exec_of_answer {i : Instr} {s : State} {v : Voice} {x : BitVec 64} {d : Diag} (hv : s.addressed = some v)
    (hr : commandReply s.wave s.srec s.bus i v = .next (s.bus.reply v x d)) :
    exec i s = .next { s with
      answer := { rdata := x, mixL := s.bus.mixL, mixR := s.bus.mixR,
                  term := v.ps.term || v.ps.err, diag := d } } := by
  rw [exec_of_reply hv hr, State.complete_reply, State.answeredThrough_same hv]

/-- Settles O7: the word 0 is NOP's, whose reply is the voice as it was with nothing to report. -/
theorem nopOnlyAnswers : Obligations.NopOnlyAnswers :=
  ⟨decodeInvertsEncode .nop rfl, fun _ _ hv => exec_of_answer hv rfl⟩

/-- R103: a `WR` of no register or of a read-only one is reported and stores nothing. -/
theorem writeReg_of_not_rw {bank : BitVec 4} {reg : BitVec 8} {v : Voice} (b : Bus)
    (h : ∀ r, regAt v.bp.length bank reg = some r → r.access = .ro) :
    writeReg b bank reg v = b.report v .badReg := by
  unfold writeReg
  cases hr : regAt v.bp.length bank reg with
  | none => rfl
  | some r => simp only [h r hr]

/-- R103: an `RD` of no register is reported. -/
theorem readReg_of_none {bank : BitVec 4} {reg : BitVec 8} {v : Voice} (b : Bus)
    (h : regAt v.bp.length bank reg = none) : readReg b bank reg v = b.report v .badReg := by
  unfold readReg
  rw [h]

/-- Settles O10: the holes bank by bank, the access class by a register's own number, and the BAD_REG answer. -/
theorem badRegisterAccess : Obligations.BadRegisterAccess := by
  refine ⟨fun _ _ _ => regAt_eq_none, fun n bank reg r hr => ?_, fun s v bank reg hv hro => ?_,
    fun s v bank reg hv hr => ?_, fun s v hs hv => ?_, rfl⟩
  · rw [r.access_eq_ro, regAt_address hr]
  · exact exec_of_answer hv (congrArg Host.Outcome.next (writeReg_of_not_rw s.bus hro))
  · exact exec_of_answer hv (congrArg Host.Outcome.next (readReg_of_none s.bus hr))
  · obtain ⟨-, hvoices, -, -⟩ := hs
    obtain ⟨hbp, -, -⟩ := hvoices v (List.mem_of_getElem? hv)
    exact hbp

/-! ### A write and the runtime registers (R74, R101) -/

/-- Settles O57, by the moves of a voice: a `WR` leaves it alone or writes a register, and no write reaches a
runtime register. -/
theorem writeNeverChangesRuntime : Obligations.WriteNeverChangesRuntime := by
  intro bank reg s t n v v' h hv hv'
  cases exec_voiceMove h hv hv' with
  | stay => exact ⟨rfl, fun _ => rfl⟩
  | write _ _ r w => exact ⟨r.write_ps w v, r.write_run w v⟩

end Sys2Proof.Machine

/-! ## The envelope commands (R111..R125, R128)

Each command on its envelope as one equation (`exec_egInit` to `exec_egStep`), each call of `EG.STEP` as one equation
per case of R118, and what each can do to `PHASE`; the statements about the commands are read off these. -/

namespace Sys2Proof.Machine

/-! ### The words and the replies of the envelope commands (R83, R84) -/

/-- The fields of a format E word as a number: the opcode in bits 31:28, the envelope in bits 27:24. -/
theorem append_egBank (op : BitVec 4) (k : Fin 3) :
    op ++ (egBank k ++ (0#8 ++ 0#16)) = BitVec.ofNat 32 (op.toNat * 0x10000000 + k.val * 0x1000000) := by
  revert op k
  decide

/-- R84: the word of a well-formed command of envelope `k`, as a number. -/
theorem decode_envelopeWord {i : Instr} {k : Fin 3} {op : Nat} (hi : i.wf = true) (hsel : selOf i = egBank k)
    (hreg : regOf i = 0#8) (hop : (opcode i).toNat = op) :
    decode (BitVec.ofNat 32 (op * 0x10000000 + k.val * 0x1000000)) = .ok i := by
  have hword : encode i = BitVec.ofNat 32 (op * 0x10000000 + k.val * 0x1000000) := by
    rw [encode, hsel, hreg, append_egBank, hop]
  rw [← hword]
  exact decodeInvertsEncode i hi

theorem legalEnvelope_egBank (k : Fin 3) : legalEnvelope (egBank k) = true := by
  revert k
  decide

section
variable {s : State} {v : Voice} (hv : s.addressed = some v) (k : Fin 3)
include hv

theorem exec_egInit :
    exec (.egInit (egBank k)) s = .next (s.answeredThrough (v.setEg k (egInit (v.getEg k))) 0#64 .none) :=
  (s.onEnvelope_egBank k _).trans (State.onVoice_some hv _)

theorem exec_egStart :
    exec (.egStart (egBank k)) s = .next (s.answeredThrough
      (v.setEg k (egStart Config.cfg v.pe.sampleRate (v.getEg k)).1) 0#64
      (egStart Config.cfg v.pe.sampleRate (v.getEg k)).2) :=
  (s.onEnvelope_egBank k _).trans (State.onVoice_some hv _)

theorem exec_egRelease :
    exec (.egRelease (egBank k)) s = .next (s.answeredThrough
      (v.setEg k (egRelease Config.cfg v.pe.sampleRate (v.getEg k))) 0#64 .none) :=
  (s.onEnvelope_egBank k _).trans (State.onVoice_some hv _)

theorem exec_egStep :
    exec (.egStep (egBank k)) s = .next (s.answeredThrough
      (v.setEg k (egStep Config.cfg v.pe.sampleRate (v.getEg k)).eg)
      (egStep Config.cfg v.pe.sampleRate (v.getEg k)).value
      (egStep Config.cfg v.pe.sampleRate (v.getEg k)).diag) :=
  (s.onEnvelope_egBank k _).trans (State.onVoice_some hv _)

end

/-! ### The cases of the calls (R113, R114, R118) -/

section
variable (c : Cfg) (rate : F64) {g : Envelope}

theorem egStart_of_off (h : g.run.phase = .off) :
    egStart c rate g = (enterPhase c rate g .attack, .none) := by
  unfold egStart
  rw [h]

theorem egStart_of_ne_off (h : g.run.phase ≠ .off) : egStart c rate g = (g, .egBadStart) := by
  obtain ⟨hoff, -⟩ | ⟨-, e⟩ := egStart_cases c rate g
  · exact absurd hoff h
  · exact e

theorem egRelease_of_release (h : g.run.phase = .ramp .release) : egRelease c rate g = g := if_pos h

theorem egRelease_of_ne_release (h : g.run.phase ≠ .ramp .release) :
    egRelease c rate g = enterPhase c rate g .release := if_neg h

theorem egStep_of_off (h : g.run.phase = .off) :
    egStep c rate g = { eg := g, value := F64.zero, diag := .egOffCall } := by
  unfold egStep
  rw [h]

theorem egStep_of_fin (h : g.run.phase ≠ .off) (hf : g.run.fin = true) :
    egStep c rate g = { eg := g, value := F64.zero, diag := .none } := by
  cases hp : g.run.phase with
  | off => exact absurd hp h
  | ramp r => simp [egStep, hp, hf]

theorem egStep_of_inside {r : Ramp} (hp : g.run.phase = .ramp r) (hf : g.run.fin = false)
    (hc : g.run.cnt.toNat ≤ g.run.len.toNat) : egStep c rate g = egCompute c g r := by
  have hc' : ¬ g.run.len < g.run.cnt := Nat.not_lt.2 hc
  simp [egStep, hp, hf, hc']

theorem egStep_of_elapsed {r : Ramp} (hp : g.run.phase = .ramp r) (hf : g.run.fin = false)
    (hc : g.run.len.toNat < g.run.cnt.toNat) : egStep c rate g = egAdvance c rate g r := by
  have hc' : g.run.len < g.run.cnt := hc
  simp [egStep, hp, hf, hc']

/-- R117: where there is a next ramp, the call enters it and computes its first value. -/
theorem egAdvance_of_nextRamp {r r' : Ramp} (h : NextRamp g r r') :
    egAdvance c rate g r = egCompute c (enterPhase c rate g r') r' := by
  cases h with
  | hold | decay | sustain => rfl
  | release ht => exact if_pos ht

theorem egAdvance_sustain_held (ht : F64.eq g.conf.tgt[3] F64.zero = false) :
    egAdvance c rate g .sustain = holdSustain g := if_neg fun h => Bool.noConfusion (ht.symm.trans h)

/-- The natural transitions of R117 as the table of R111 lists them. -/
theorem nextRamp_iff {r r' : Ramp} :
    NextRamp g r r' ↔
      (r = .attack ∧ r' = .hold) ∨ (r = .hold ∧ r' = .decay) ∨ (r = .decay ∧ r' = .sustain) ∨
      (r = .sustain ∧ r' = .release ∧ F64.eq g.conf.tgt[3] F64.zero = true) := by
  constructor
  · intro h
    cases h <;> simp [*]
  · rintro (⟨rfl, rfl⟩ | ⟨rfl, rfl⟩ | ⟨rfl, rfl⟩ | ⟨rfl, rfl, ht⟩)
    exacts [.hold, .decay, .sustain, .release ht]

end

/-! ### The statements about one command (R112..R125) -/

/-- Settles O12: the word is the command's, and `EgRun.reset` is the record the statement writes out. -/
theorem egInitResetsRuntime : Obligations.EgInitResetsRuntime :=
  ⟨fun k => decode_envelopeWord (op := 4) (i := .egInit (egBank k)) (legalEnvelope_egBank k) rfl rfl rfl,
    fun _ _ k hv => exec_egInit hv k⟩

/-- Settles O13, by the two cases of `EG.START`. -/
theorem egStartEntersAttack : Obligations.EgStartEntersAttack := by
  refine ⟨fun k => decode_envelopeWord (op := 5) (i := .egStart (egBank k)) (legalEnvelope_egBank k) rfl rfl rfl,
    fun s v k hv hp => ?_, fun s v k hv hp => ?_, rfl⟩
  · rw [exec_egStart hv, egStart_of_off _ _ hp]
    rfl
  · rw [exec_egStart hv, egStart_of_ne_off _ _ hp, Voice.setEg_getEg, State.answeredThrough_same hv]

/-- Settles O14, by the two cases of `EG.RELEASE`. -/
theorem egReleaseEntersRelease : Obligations.EgReleaseEntersRelease := by
  refine ⟨fun k => decode_envelopeWord (op := 6) (i := .egRelease (egBank k)) (legalEnvelope_egBank k) rfl rfl rfl,
    fun s v k hv hp => ?_, fun s v k hv hp => ?_⟩
  · rw [exec_egRelease hv, egRelease_of_ne_release _ _ hp]
    rfl
  · rw [exec_egRelease hv, egRelease_of_release _ _ hp, Voice.setEg_getEg, State.answeredThrough_same hv]

/-- Settles O15: both early returns of R118 leave the voice alone. -/
theorem egStepOffOrFinished : Obligations.EgStepOffOrFinished := by
  refine ⟨fun s v k hv hp => ?_, fun s v k hv hp hf => ?_, rfl⟩
  · rw [exec_egStep hv, egStep_of_off _ _ hp, Voice.setEg_getEg, State.answeredThrough_same hv]
    rfl
  · rw [exec_egStep hv, egStep_of_fin _ _ hp hf, Voice.setEg_getEg, State.answeredThrough_same hv]
    rfl

/-- An envelope after the computing end of a call in ramp `r`, field by field (R118, R124). -/
theorem egCompute_eg (c : Cfg) {g : Envelope} {r : Ramp} (hp : g.run.phase = .ramp r) (hf : g.run.fin = false) :
    (egCompute c g r).eg =
      { conf := g.conf
        run := { phase := .ramp r, cnt := BitVec.ofNat 32 (min (g.run.cnt.toNat + 1) (2 ^ 32 - 1)),
                 len := g.run.len, entry := g.run.entry, cur := egValue c g r, fin := false } } := by
  rw [← satinc_eq, ← hp, ← hf]
  rfl

/-- Settles O16: the call is the computing end, and the value the statement writes out is `egValue`. -/
theorem egStepInsideRamp : Obligations.EgStepInsideRamp := by
  intro s v k r hv hp hf hc g tg prog prog' x
  have hx : egValue Config.cfg g r = x := rfl
  rw [exec_egStep hv, egStep_of_inside _ _ hp hf hc, egCompute_eg _ hp hf, egCompute_value, hx, egCompute_diag]

/-- Settles O17: the call enters the next ramp and is the computing end there, at count 0. -/
theorem egStepEntersNextRamp : Obligations.EgStepEntersNextRamp := by
  intro s v k r r' hv hp hf hc hnext g entered x
  have hentered : enterPhase Config.cfg v.pe.sampleRate g r' = { conf := g.conf, run := entered } := by
    unfold enterPhase
    simp only [hf, g, entered]
  rw [exec_egStep hv, egStep_of_elapsed _ _ hp hf hc, egAdvance_of_nextRamp _ _ (nextRamp_iff.2 hnext), hentered]
  rfl

/-- Settles O18: a held Sustain. -/
theorem egStepHoldsSustain : Obligations.EgStepHoldsSustain := by
  intro s v k hv hp hf hc ht
  rw [exec_egStep hv, egStep_of_elapsed _ _ hp hf hc, egAdvance_sustain_held _ _ ht, ← satinc_eq]
  rfl

/-- Settles O19: the finish of Release, and the early returns of the three commands on a finished envelope. -/
theorem egStepFinishesRelease : Obligations.EgStepFinishesRelease := by
  refine ⟨fun s v k hv hp hf hc => ?_, fun s v k hv hp hf => ?_⟩
  · rw [exec_egStep hv, egStep_of_elapsed _ _ hp hf hc]
    rfl
  · have hoff : (v.getEg k).run.phase ≠ .off := by rw [hp]; nofun
    refine ⟨?_, ?_, ?_⟩
    · rw [exec_egStep hv, egStep_of_fin _ _ hoff hf, Voice.setEg_getEg]
      rfl
    · rw [exec_egRelease hv, egRelease_of_release _ _ hp, Voice.setEg_getEg]
    · rw [exec_egStart hv, egStart_of_ne_off _ _ hoff, Voice.setEg_getEg]

/-! ### An envelope command is local to its envelope (R128) -/

/-- R128: an envelope command replaces its envelope and answers by one function of `PE.SAMPLE_RATE` and the
envelope. -/
theorem exec_envelopeCommand {i : Instr} {k : Fin 3}
    (hi : i = .egInit (egBank k) ∨ i = .egStart (egBank k) ∨ i = .egRelease (egBank k) ∨ i = .egStep (egBank k)) :
    ∃ call : F64 → Envelope → EgResult, ∀ (s : State) (v : Voice), s.addressed = some v →
      exec i s = .next (s.answeredThrough (v.setEg k (call v.pe.sampleRate (v.getEg k)).eg)
        (call v.pe.sampleRate (v.getEg k)).value (call v.pe.sampleRate (v.getEg k)).diag) := by
  obtain rfl | rfl | rfl | rfl := hi
  · exact ⟨fun _ g => ⟨egInit g, 0#64, .none⟩, fun _ _ hv => exec_egInit hv k⟩
  · exact ⟨fun rate g => ⟨(egStart Config.cfg rate g).1, 0#64, (egStart Config.cfg rate g).2⟩,
      fun _ _ hv => exec_egStart hv k⟩
  · exact ⟨fun rate g => ⟨egRelease Config.cfg rate g, 0#64, .none⟩, fun _ _ hv => exec_egRelease hv k⟩
  · exact ⟨egStep Config.cfg, fun _ _ hv => exec_egStep hv k⟩

/-- The voice a command addressed is the one it answered through. -/
theorem State.answeredThrough_addressed {s : State} {v : Voice} (hv : s.addressed = some v) (w : Voice)
    (x : BitVec 64) (d : Diag) : (s.answeredThrough w x d).addressed = some w :=
  State.complete_addressed hv (s.bus.reply w x d)

/-- Settles O23: both states call the same function on the same envelope and rate. -/
theorem envelopeCommandsAreLocal : Obligations.EnvelopeCommandsAreLocal := by
  intro k i s1 s2 t1 t2 v1 v2 v1' v2' hi hv1 hv2 hg hrate ht1 ht2 hv1' hv2'
  obtain ⟨call, hcall⟩ := exec_envelopeCommand hi
  rw [hcall s1 v1 hv1] at ht1
  rw [hcall s2 v2 hv2] at ht2
  cases ht1
  cases ht2
  rw [State.answeredThrough_addressed hv1] at hv1'
  rw [State.answeredThrough_addressed hv2] at hv2'
  cases hv1'
  cases hv2'
  refine ⟨?_, ?_, ?_, fun k' hk' => Voice.getEg_setEg_ne v1 _ hk'.symm, rfl, rfl, rfl⟩
  · rw [Voice.getEg_setEg_same, Voice.getEg_setEg_same, hg, hrate]
  all_goals simp only [State.answeredThrough, State.answered, hg, hrate]

/-! ### What can change `PHASE` (R111) -/

/-- `EG.START` keeps `PHASE` or takes it from Off to Attack. -/
theorem egStart_phase (c : Cfg) (rate : F64) (g : Envelope) :
    (egStart c rate g).1.run.phase = g.run.phase ∨
    (g.run.phase = .off ∧ (egStart c rate g).1.run.phase = .ramp .attack) := by
  obtain ⟨hoff, e⟩ | ⟨-, e⟩ := egStart_cases c rate g <;> rw [e]
  · exact .inr ⟨hoff, rfl⟩
  · exact .inl rfl

/-- `EG.RELEASE` keeps `PHASE` or takes it from another phase to Release. -/
theorem egRelease_phase (c : Cfg) (rate : F64) (g : Envelope) :
    (egRelease c rate g).run.phase = g.run.phase ∨
    (g.run.phase ≠ .ramp .release ∧ (egRelease c rate g).run.phase = .ramp .release) := by
  obtain ⟨-, e⟩ | ⟨hne, e⟩ := egRelease_cases c rate g <;> rw [e]
  · exact .inl rfl
  · exact .inr ⟨hne, rfl⟩

/-- `EG.STEP` keeps `PHASE` or, past the ramp's length, takes it to the next ramp. -/
theorem egStep_phase (c : Cfg) (rate : F64) (g : Envelope) :
    (egStep c rate g).eg.run.phase = g.run.phase ∨
    (g.run.len.toNat < g.run.cnt.toNat ∧
      ((g.run.phase = .ramp .attack ∧ (egStep c rate g).eg.run.phase = .ramp .hold) ∨
       (g.run.phase = .ramp .hold ∧ (egStep c rate g).eg.run.phase = .ramp .decay) ∨
       (g.run.phase = .ramp .decay ∧ (egStep c rate g).eg.run.phase = .ramp .sustain) ∨
       (g.run.phase = .ramp .sustain ∧ (egStep c rate g).eg.run.phase = .ramp .release ∧
        F64.eq g.conf.tgt[3] F64.zero = true))) := by
  obtain ⟨-, e⟩ | ⟨_, -, -, e⟩ | ⟨_, -, -, -, e⟩ | ⟨r, r', hp, -, hc, hnext, e⟩ | ⟨-, -, -, -, e⟩ |
    ⟨-, -, -, e⟩ := egStep_cases c rate g <;> rw [e]
  case inr.inr.inr.inl =>
    rw [egCompute_phase, enterPhase_phase, hp]
    simpa only [Phase.ramp.injEq] using .inr ⟨hc, nextRamp_iff.1 hnext⟩
  all_goals exact .inl rfl

/-- An envelope after a write of one: the envelope written, or one that stays as it was. -/
theorem Voice.getEg_setEg_cases (v : Voice) (j k : Fin 3) (g : Envelope) :
    (j = k ∧ (v.setEg j g).getEg k = g) ∨ (v.setEg j g).getEg k = v.getEg k := by
  by_cases h : j = k
  · subst h; exact .inl ⟨rfl, v.getEg_setEg_same j g⟩
  · exact .inr (v.getEg_setEg_ne g h)

/-- Settles O21, by the moves of a voice: each puts an envelope through the pseudocode of one envelope command,
through none, or, in PE.INIT, through those of `EG.INIT` and `EG.START`. -/
theorem phaseTransitionsAreTheTable : Obligations.PhaseTransitionsAreTheTable := by
  intro i s t n v v' k h hv hv'
  dsimp only
  cases exec_voiceMove h hv hv' with
  | stay | terminate => exact .inl rfl
  | write _ _ r w => exact .inl (by rw [Reg.write_run])
  | egInit j =>
    obtain ⟨rfl, e⟩ | e := v.getEg_setEg_cases j k (egInit (v.getEg j)) <;> rw [e]
    · exact .inr (.inl ⟨rfl, .inl rfl⟩)
    · exact .inl rfl
  | egStart j =>
    obtain ⟨rfl, e⟩ | e := v.getEg_setEg_cases j k (egStart Config.cfg v.pe.sampleRate (v.getEg j)).1 <;> rw [e]
    · exact (egStart_phase _ _ _).imp_right fun ⟨hoff, hattack⟩ => .inr (.inl ⟨hoff, hattack, rfl⟩)
    · exact .inl rfl
  | egRelease j =>
    obtain ⟨rfl, e⟩ | e := v.getEg_setEg_cases j k (egRelease Config.cfg v.pe.sampleRate (v.getEg j)) <;> rw [e]
    · exact (egRelease_phase _ _ _).imp_right fun ⟨hne, hrel⟩ =>
        .inr (.inr (.inr (.inr ⟨hne, hrel, .inl rfl⟩)))
    · exact .inl rfl
  | egStep j =>
    obtain ⟨rfl, e⟩ | e := v.getEg_setEg_cases j k (egStep Config.cfg v.pe.sampleRate (v.getEg j)).eg <;> rw [e]
    · exact (egStep_phase _ _ _).imp_right fun hnext => .inr (.inr (.inr (.inl ⟨.inl rfl, hnext⟩)))
    · exact .inl rfl
  | initFails =>
    rw [resetRuntime_getEg]
    exact .inr (.inl ⟨rfl, .inr rfl⟩)
  | initStarts =>
    rw [startEnvelopes_getEg, resetRuntime_getEg]
    exact .inr (.inr (.inr (.inl ⟨rfl, rfl⟩)))
  | sound =>
    rw [stepEnvelopes_getEg_with]
    exact (egStep_phase _ _ _).imp_right fun hnext => .inr (.inr (.inr (.inl ⟨.inr rfl, hnext⟩)))
  | noteOff =>
    rw [Voice.getEg_map]
    exact (egRelease_phase _ _ _).imp_right fun ⟨hne, hrel⟩ => .inr (.inr (.inr (.inr ⟨hne, hrel, .inr rfl⟩)))

end Sys2Proof.Machine

/-! ## The phase length and the value of a ramp (R119..R122, R127)

The seconds of a phase as a base that rises with the duration times a factor that falls with the key, and the blend of
a ramp at the two ends of its progress. -/

namespace Sys2Proof.Machine

/-! ### The length in samples (R119) -/

/-- A count that is finite and rounds into the u32 `LEN` is stored as it rounds. -/
theorem lengthOf_toNat {x : F64} (hfin : F64.isFinite x = true) (h0 : 0 ≤ F64.rha x)
    (h1 : F64.rha x < 2 ^ 32) : ((lengthOf x).toNat : Int) = F64.rha x := by
  have hfits : (F64.isFinite x && decide (0 ≤ F64.rha x) && decide (F64.rha x < 2 ^ 32)) = true := by
    simp only [hfin, h0, h1, decide_true, Bool.and_self]
  rw [lengthOf, if_pos hfits, BitVec.toNat_ofInt]
  omega

/-- Settles O20: the duration and the product of the statement are the model's, and the product fits. -/
theorem phaseLengthFormula : Obligations.PhaseLengthFormula := by
  intro rate k r off d t t' hfin h0 h1
  have hd : effectiveDuration k r = d := by
    rw [effectiveDuration, clampInt_eq _ _ _ (by decide)]
    cases r <;> rfl
  have hlen : phaseLength Config.cfg rate k r = lengthOf (F64.mul t' rate) := by
    rw [phaseLength, hd]
    rfl
  rw [hlen]
  exact lengthOf_toNat hfin h0 h1

/-! ### The order of binary64 under subtraction and multiplication -/

theorem F64.le_self {x : F64} (h : F64.isNaN x = false) : F64.le x x = true :=
  le_iff_key.2 ⟨h, h, le_rfl⟩

theorem isFinite_iff_key {x : F64} : F64.isFinite x = true ↔ (F64.key x).natAbs < F64.infMag := by
  have hkey : (F64.key x).natAbs = F64.mag x := by unfold F64.key; split <;> omega
  rw [hkey, F64.isFinite, decide_eq_true_eq]

/-- A number between two finite ones is finite. -/
theorem isFinite_of_le_of_le {a x b : F64} (ha : F64.isFinite a = true) (hb : F64.isFinite b = true)
    (hax : F64.le a x = true) (hxb : F64.le x b = true) : F64.isFinite x = true := by
  obtain ⟨-, -, hax⟩ := le_iff_key.1 hax
  obtain ⟨-, -, hxb⟩ := le_iff_key.1 hxb
  rw [isFinite_iff_key] at *
  omega

theorem toRat_neg (x : F64) : F64.toRat (F64.neg x) = -F64.toRat x := by
  rw [toRat_eq, toRat_eq, mag_neg, sign_neg]
  cases F64.sign x <;> simp

/-- A difference of finite numbers is a number, the exact difference rounded. -/
theorem key_sub {a b : F64} (ha : F64.isFinite a = true) (hb : F64.isFinite b = true) :
    F64.isNaN (F64.sub a b) = false ∧
      F64.key (F64.sub a b) =
        F64.key (F64.ofRat (decide (F64.toRat a - F64.toRat b < 0)) (F64.toRat a - F64.toRat b)) := by
  simp only [F64.sub, F64.sumOr, isNaN_neg, isInf_neg, not_isNaN_of_isFinite ha, not_isNaN_of_isFinite hb,
    not_isInf_of_isFinite ha, not_isInf_of_isFinite hb, Bool.or_self, Bool.false_eq_true, if_false, toRat_neg,
    ← sub_eq_add_neg]
  split
  · next h0 => rw [h0]; unfold F64.key; simp [F64.isNaN, roundMag]
  · exact ⟨isNaN_ofRat _ _, rfl⟩

/-- Subtracting the larger of two finite numbers gives the smaller difference. -/
theorem sub_antitone {a x y : F64} (ha : F64.isFinite a = true) (hx : F64.isFinite x = true)
    (hy : F64.isFinite y = true) (h : F64.le x y = true) : F64.le (F64.sub a y) (F64.sub a x) = true := by
  obtain ⟨-, -, hk⟩ := le_iff_key.1 h
  have hq : F64.toRat a - F64.toRat y ≤ F64.toRat a - F64.toRat x :=
    sub_le_sub_left ((toRat_le_iff x y).2 hk) _
  obtain ⟨nx, kx⟩ := key_sub ha hx
  obtain ⟨ny, ky⟩ := key_sub ha hy
  rw [le_iff_key, kx, ky]
  exact ⟨ny, nx, key_ofRat_mono (by simp) (fun h => by simpa using h.le) (by simp)
    (fun h => by simpa using h.le) hq⟩

theorem mul_comm_of_isFinite {a b : F64} (ha : F64.isFinite a = true) (hb : F64.isFinite b = true) :
    F64.mul a b = F64.mul b a := by
  simp [F64.mul, not_isNaN_of_isFinite ha, not_isNaN_of_isFinite hb, not_isInf_of_isFinite ha,
    not_isInf_of_isFinite hb, mul_comm (F64.toRat a), Bool.xor_comm (F64.sign a)]

/-- An infinity times a positive number is the infinity. -/
theorem mul_of_isInf {x a : F64} (hx : F64.isInf x = true) (ha : F64.isFinite a = true)
    (hpos : 0 < F64.toRat a) : F64.mul x a = F64.ofSignMag (F64.sign x) F64.infMag := by
  simp [F64.mul, hx, not_isNaN_of_isInf hx, not_isNaN_of_isFinite ha, not_isInf_of_isFinite ha, isZero_of_pos hpos,
    isZero_of_isInf hx, (sign_of_toRat a).2 hpos]

/-- Multiplying a positive number, infinity included, by the larger of two positive numbers gives the larger
product. -/
theorem mul_mono_right {x a b : F64} (hx : F64.lt F64.zero x = true) (ha : F64.isFinite a = true)
    (hb : F64.isFinite b = true) (hpos : 0 < F64.toRat a) (h : F64.le a b = true) :
    F64.le (F64.mul x a) (F64.mul x b) = true := by
  obtain ⟨-, -, hab⟩ := le_iff_key.1 h
  have hpos' : 0 < F64.toRat b := hpos.trans_le ((toRat_le_iff a b).2 hab)
  simp only [F64.lt, Bool.and_eq_true, Bool.not_eq_true', decide_eq_true_eq] at hx
  obtain ⟨⟨-, hnan⟩, hkey⟩ := hx
  obtain hfin | hinf := isFinite_or_isInf hnan
  · have hx0 : 0 < F64.toRat x := by
      have h0 := (toRat_lt_iff F64.zero x).2 hkey
      rwa [toRat_of_mag_zero rfl] at h0
    rw [mul_comm_of_isFinite hfin ha, mul_comm_of_isFinite hfin hb]
    exact mul_monotone hfin hx0 h
  · rw [mul_of_isInf hinf ha hpos, mul_of_isInf hinf hb hpos']
    exact F64.le_self (not_isNaN_of_isInf (isInf_ofSignMag _).1)

theorem ofInt_le {i j : Int} (hi : i.natAbs < 2 ^ 53) (hj : j.natAbs < 2 ^ 53) (h : i ≤ j) :
    F64.le (F64.ofInt i) (F64.ofInt j) = true := by
  obtain ⟨fi, ri⟩ := toRat_ofInt hi
  obtain ⟨fj, rj⟩ := toRat_ofInt hj
  refine le_iff_key.2 ⟨not_isNaN_of_isFinite fi, not_isNaN_of_isFinite fj, (toRat_le_iff _ _).1 ?_⟩
  rw [ri, rj]
  exact_mod_cast h

/-! ### The seconds of a phase (R119, R127) -/

/-- The seconds of a duration before the key scales them: `pow2(d / 18.0) / 5.45 - 0.183` (R119). -/
def baseSeconds (p2 : F64 → F64) (d : Int) : F64 :=
  F64.sub (F64.div (p2 (F64.div (F64.ofInt d) (F64.lit 18 1))) (F64.lit 545 100)) (F64.lit 183 1000)

/-- The factor of a key from 0: `1.0 - KEY / 128.0` (R119). -/
def keyFactor (key : Int) : F64 := F64.sub F64.one (F64.div (F64.ofInt key) (F64.lit 128 1))

theorem phaseSeconds_of_nonneg (p2 : F64 → F64) (d : Int) {key : Int} (h : 0 ≤ key) :
    phaseSeconds p2 d key = F64.mul (baseSeconds p2 d) (keyFactor key) := if_pos h

theorem phaseSeconds_of_neg (p2 : F64 → F64) (d : Int) {key : Int} (h : key < 0) :
    phaseSeconds p2 d key = baseSeconds p2 d := if_neg (not_le.2 h)

/-- Every operation of the base is monotone (P4 for `pow2`). -/
theorem baseSeconds_mono {p2 : F64 → F64} (hp2 : ∀ x y, F64.le x y = true → F64.le (p2 x) (p2 y) = true)
    {d e : Int} (h0 : 0 ≤ d) (hde : d ≤ e) (h1 : e ≤ 127) :
    F64.le (baseSeconds p2 d) (baseSeconds p2 e) = true := by
  have h18 : F64.isFinite (F64.lit 18 1) = true ∧ 0 < F64.toRat (F64.lit 18 1) := by decide +kernel
  have h545 : F64.isFinite (F64.lit 545 100) = true ∧ 0 < F64.toRat (F64.lit 545 100) := by decide +kernel
  have h183 : F64.isFinite (F64.lit 183 1000) = true := by decide +kernel
  have hint : F64.le (F64.ofInt d) (F64.ofInt e) = true := ofInt_le (by omega) (by omega) hde
  exact sub_monotone h183 (div_monotone h545.1 h545.2 (hp2 _ _ (div_monotone h18.1 h18.2 hint)))

/-- The base is positive, since it is at duration 0 (P1). -/
theorem baseSeconds_pos {p2 : F64 → F64} (hp2 : ∀ x y, F64.le x y = true → F64.le (p2 x) (p2 y) = true)
    (hone : p2 F64.zero = F64.one) {d : Int} (h0 : 0 ≤ d) (h1 : d ≤ 127) :
    F64.lt F64.zero (baseSeconds p2 d) = true := by
  have hzero : F64.div (F64.ofInt 0) (F64.lit 18 1) = F64.zero := by decide +kernel
  have hpos : 0 < F64.key (F64.sub (F64.div F64.one (F64.lit 545 100)) (F64.lit 183 1000)) := by decide +kernel
  have hmono := baseSeconds_mono hp2 le_rfl h0 h1
  rw [baseSeconds, hzero, hone] at hmono
  obtain ⟨-, hnan, hkey⟩ := le_iff_key.1 hmono
  have hz : F64.isNaN F64.zero = false ∧ F64.key F64.zero = 0 := by decide
  simp only [F64.lt, hz, hnan, Bool.not_false, Bool.and_self, Bool.true_and, decide_eq_true_eq]
  exact hpos.trans_le hkey

/-- The quotient `KEY / 128.0` rises with the key. -/
theorem keyQuotient_mono {k l : Int} (h0 : 0 ≤ k) (hkl : k ≤ l) (h1 : l ≤ 127) :
    F64.le (F64.div (F64.ofInt k) (F64.lit 128 1)) (F64.div (F64.ofInt l) (F64.lit 128 1)) = true := by
  have h128 : F64.isFinite (F64.lit 128 1) = true ∧ 0 < F64.toRat (F64.lit 128 1) := by decide +kernel
  exact div_monotone h128.1 h128.2 (ofInt_le (by omega) (by omega) hkl)

theorem isFinite_keyQuotient {k : Int} (h0 : 0 ≤ k) (h1 : k ≤ 127) :
    F64.isFinite (F64.div (F64.ofInt k) (F64.lit 128 1)) = true := by
  have hlow : F64.isFinite (F64.div (F64.ofInt 0) (F64.lit 128 1)) = true := by decide +kernel
  have hhigh : F64.isFinite (F64.div (F64.ofInt 127) (F64.lit 128 1)) = true := by decide +kernel
  exact isFinite_of_le_of_le hlow hhigh (keyQuotient_mono le_rfl h0 h1) (keyQuotient_mono h0 h1 le_rfl)

theorem isFinite_one : F64.isFinite F64.one = true := by decide +kernel

/-- The factor falls as the key rises. -/
theorem keyFactor_antitone {k l : Int} (h0 : 0 ≤ k) (hkl : k ≤ l) (h1 : l ≤ 127) :
    F64.le (keyFactor l) (keyFactor k) = true :=
  sub_antitone isFinite_one (isFinite_keyQuotient h0 (hkl.trans h1)) (isFinite_keyQuotient (h0.trans hkl) h1)
    (keyQuotient_mono h0 hkl h1)

/-- The factor lies between those of the keys 127 and 0, which are positive and finite. -/
theorem keyFactor_pos {k : Int} (h0 : 0 ≤ k) (h1 : k ≤ 127) :
    F64.isFinite (keyFactor k) = true ∧ 0 < F64.toRat (keyFactor k) := by
  have hlow : F64.isFinite (keyFactor 127) = true ∧ 0 < F64.toRat (keyFactor 127) := by decide +kernel
  have hhigh : F64.isFinite (keyFactor 0) = true := by decide +kernel
  have hle := keyFactor_antitone h0 h1 le_rfl
  obtain ⟨-, -, hkey⟩ := le_iff_key.1 hle
  exact ⟨isFinite_of_le_of_le hlow.1 hhigh hle (keyFactor_antitone le_rfl h0 h1),
    hlow.2.trans_le ((toRat_le_iff _ _).2 hkey)⟩

/-- Settles O24: the base rises with the duration, and a key from 0 multiplies it by a positive number. -/
theorem secondsNeverFallWithDuration : Obligations.SecondsNeverFallWithDuration := by
  intro p2 hp2 d1 d2 key h0 h12 h127 _ hkey
  have hbase := baseSeconds_mono hp2 h0 h12 h127
  rcases lt_or_ge key 0 with hneg | hnonneg
  · rwa [phaseSeconds_of_neg _ _ hneg, phaseSeconds_of_neg _ _ hneg]
  · obtain ⟨hfin, hpos⟩ := keyFactor_pos hnonneg hkey
    rw [phaseSeconds_of_nonneg _ _ hnonneg, phaseSeconds_of_nonneg _ _ hnonneg]
    exact mul_monotone hfin hpos hbase

/-- Settles O25: the factor falls as the key rises, and it multiplies a positive base. -/
theorem secondsNeverRiseWithKey : Obligations.SecondsNeverRiseWithKey := by
  intro p2 hp2 hone d k1 k2 hd0 hd1 h0 h12 h127
  obtain ⟨hfin1, -⟩ := keyFactor_pos h0 (h12.trans h127)
  obtain ⟨hfin2, hpos2⟩ := keyFactor_pos (h0.trans h12) h127
  rw [phaseSeconds_of_nonneg _ _ h0, phaseSeconds_of_nonneg _ _ (h0.trans h12)]
  exact mul_mono_right (baseSeconds_pos hp2 hone hd0 hd1) hfin2 hfin1 hpos2 (keyFactor_antitone h0 h12 h127)

/-! ### The two ends of a ramp (R121, R122, R127) -/

/-- A ramp of non-zero length blends by its progress, or by the logarithm of it. -/
theorem egValue_of_len_ne_zero (c : Cfg) {g : Envelope} (r : Ramp) (h : g.run.len ≠ 0#32) :
    egValue c g r = egBlend g.run g.conf.tgt[r.index] (egProgress g.run) ∨
    egValue c g r = egBlend g.run g.conf.tgt[r.index] (logProgress c (egProgress g.run)) := by
  unfold egValue
  rw [if_neg h]
  split
  · exact .inl rfl
  · exact .inr rfl

/-- At progress zero the blend is the entry value. -/
theorem egBlend_of_zero {r : EgRun} {tg prog : F64} (hentry : F64.isFinite r.entry = true)
    (hspan : F64.isFinite (F64.sub tg r.entry) = true) (hprog : F64.mag prog = 0) :
    F64.eq (egBlend r tg prog) r.entry = true := by
  obtain ⟨hfin, hkey⟩ := add_mag_zero hentry (mag_mul_zero hspan hprog).1
  exact eq_of_key hfin hentry hkey

/-- At progress one the blend is the entry value plus the span. -/
theorem egBlend_one {r : EgRun} {tg : F64} (hspan : F64.isFinite (F64.sub tg r.entry) = true) :
    egBlend r tg F64.one = F64.add r.entry (F64.sub tg r.entry) := by
  rw [egBlend, F64.one, (mul_one_lit hspan).1]

/-- Zero of either sign plus one is one, bit for bit. -/
theorem zero_add_one {z : F64} (hz : F64.mag z = 0) : F64.add z F64.one = F64.one := by
  have hfin := isFinite_of_mag_zero hz
  have hval : F64.toRat F64.one = 1 := by decide +kernel
  have hround : F64.ofRat (decide ((1 : ℚ) < 0)) 1 = F64.one := by decide +kernel
  simp [F64.add, F64.sumOr, not_isNaN_of_isFinite hfin, not_isInf_of_isFinite hfin,
    not_isNaN_of_isFinite isFinite_one, not_isInf_of_isFinite isFinite_one, toRat_of_mag_zero hz, hval, hround]

/-- Zero divided by a finite number other than zero is zero. -/
theorem mag_div_of_zero {a b : F64} (ha : F64.mag a = 0) (hb : F64.isFinite b = true)
    (hb0 : F64.isZero b = false) : F64.mag (F64.div a b) = 0 := by
  have hfin := isFinite_of_mag_zero ha
  simp [F64.div, not_isNaN_of_isFinite hfin, not_isInf_of_isFinite hfin, not_isNaN_of_isFinite hb,
    not_isInf_of_isFinite hb, hb0, toRat_of_mag_zero ha, roundMag]

/-- A finite number other than zero divided by itself is one. -/
theorem div_self_of_isFinite {x : F64} (hx : F64.isFinite x = true) (hne : F64.toRat x ≠ 0)
    (h0 : F64.isZero x = false) : F64.div x x = F64.one := by
  have hone : F64.ofRat false 1 = F64.one := by decide +kernel
  simp [F64.div, not_isNaN_of_isFinite hx, not_isInf_of_isFinite hx, h0, div_self hne, hone]

/-- Only a finite number other than zero gives one when divided by itself: any other gives a NaN. -/
theorem isFinite_of_div_self {x : F64} (h : F64.div x x = F64.one) :
    F64.isFinite x = true ∧ F64.isZero x = false := by
  have hne : F64.div x x ≠ F64.nan .div x x := fun e => by
    have hnan := isNaN_nan .div x x
    rw [← e, h, not_isNaN_of_isFinite isFinite_one] at hnan
    cases hnan
  obtain hfin | hinf | hnan := kind_cases x
  · cases hz : F64.isZero x with
    | false => exact ⟨hfin, rfl⟩
    | true =>
      exact absurd (by simp [F64.div, not_isNaN_of_isFinite hfin, not_isInf_of_isFinite hfin, hz]) hne
  · exact absurd (by simp [F64.div, not_isNaN_of_isInf hinf, hinf]) hne
  · exact absurd (by simp [F64.div, hnan]) hne

/-- P3: `ln(11.0) / ln(11.0) = 1.0`. -/
theorem ln_eleven_div_self (c : Cfg) : F64.div (Num.ln c (F64.lit 11 1)) (Num.ln c (F64.lit 11 1)) = F64.one := by
  have hne : F64.lit 11 1 ≠ F64.one := by decide +kernel
  have hone : F64.div F64.one F64.one = F64.one := by decide +kernel
  unfold Num.ln
  rw [if_neg hne]
  split
  · exact hone
  · next h => exact not_not.1 fun hdiv => h ⟨rfl, hdiv⟩

/-- R122 at progress zero: `ln(1.0)` is zero (P2). -/
theorem logProgress_of_zero (c : Cfg) {prog : F64} (h : F64.mag prog = 0) : F64.mag (logProgress c prog) = 0 := by
  have hten : F64.isFinite (F64.lit 10 1) = true := by decide +kernel
  have hprod : F64.mag (F64.mul (F64.lit 10 1) prog) = 0 := (mag_mul_zero hten h).1
  have harg : F64.add (F64.mul (F64.lit 10 1) prog) F64.one = F64.one := zero_add_one hprod
  have hln : Num.ln c F64.one = F64.zero := if_pos rfl
  obtain ⟨hfin, h0⟩ := isFinite_of_div_self (ln_eleven_div_self c)
  rw [logProgress, harg, hln]
  exact mag_div_of_zero rfl hfin h0

/-- R122 at progress one: `ln(11.0) / ln(11.0)` is one (P3). -/
theorem logProgress_one (c : Cfg) : logProgress c F64.one = F64.one := by
  have harg : F64.add (F64.mul (F64.lit 10 1) F64.one) F64.one = F64.lit 11 1 := by decide +kernel
  rw [logProgress, harg, ln_eleven_div_self]

/-- R121: at count 0 the progress is zero. -/
theorem egProgress_of_cnt_zero {r : EgRun} (hcnt : r.cnt = 0#32) (hlen : r.len ≠ 0#32) :
    F64.mag (egProgress r) = 0 := by
  obtain ⟨hfin, -, h0, -⟩ := ofInt_count hlen
  rw [egProgress, hcnt]
  exact mag_div_of_zero rfl hfin h0

/-- R121: at the full count the progress is one. -/
theorem egProgress_of_cnt_len {r : EgRun} (hcnt : r.cnt = r.len) (hlen : r.len ≠ 0#32) :
    egProgress r = F64.one := by
  obtain ⟨hfin, hval, h0, hne⟩ := ofInt_count hlen
  rw [egProgress, hcnt]
  exact div_self_of_isFinite hfin (hval ▸ hne) h0

/-- Settles O26: the progress is zero in either shape. -/
theorem firstValueIsEntry : Obligations.FirstValueIsEntry := by
  intro c g r hcnt hlen hentry hspan
  have hprog := egProgress_of_cnt_zero hcnt hlen
  obtain e | e := egValue_of_len_ne_zero c r hlen <;> rw [e]
  · exact egBlend_of_zero hentry hspan hprog
  · exact egBlend_of_zero hentry hspan (logProgress_of_zero c hprog)

/-- Settles O27: the progress is one in either shape. -/
theorem valueAtFullProgress : Obligations.ValueAtFullProgress := by
  intro c g r hcnt hlen hspan
  have hprog := egProgress_of_cnt_len hcnt hlen
  obtain e | e := egValue_of_len_ne_zero c r hlen <;> rw [e, hprog]
  · exact egBlend_one hspan
  · rw [logProgress_one]
    exact egBlend_one hspan

end Sys2Proof.Machine

/-! ## Partial construction (R140..R152)

The key shift and the key difference fit their registers, the break-point search is a list search, and `PE.INIT` has
one reply for each way its three tests can go. -/

namespace Sys2Proof.Machine

/-! ### The key shift (R142) -/

theorem keyShift_of_shifted {k : PeConfig} (h : k.drum = false ∨ k.genDrumKs = true) :
    keyShift k = k.ksCoarse.toInt + k.ksMaster.toInt + k.ksPart.toInt :=
  (if_pos h).trans (Int.add_assoc _ _ _).symm

theorem keyShift_of_unshifted {k : PeConfig} (h : ¬ (k.drum = false ∨ k.genDrumKs = true)) :
    keyShift k = k.ksCoarse.toInt := if_neg h

/-- The range of an s8 register (R22). -/
theorem toInt_range_eight (x : BitVec 8) : -128 ≤ x.toInt ∧ x.toInt ≤ 127 :=
  ⟨x.le_toInt, Int.le_of_lt_add_one x.toInt_lt⟩

theorem keyShift_range (k : PeConfig) : -384 ≤ keyShift k ∧ keyShift k ≤ 381 := by
  have hcoarse := toInt_range_eight k.ksCoarse
  have hmaster := toInt_range_eight k.ksMaster
  have hpart := toInt_range_eight k.ksPart
  by_cases h : k.drum = false ∨ k.genDrumKs = true
  · rw [keyShift_of_shifted h]
    omega
  · rw [keyShift_of_unshifted h]
    omega

/-- Settles O28: the two cases of the sum, and its range inside that of an s16. -/
theorem keyShiftRule : Obligations.KeyShiftRule := by
  intro k
  obtain ⟨hlow, hhigh⟩ := keyShift_range k
  refine ⟨?_, hlow, hhigh, BitVec.toInt_ofInt_eq_self (by decide) (by omega) (by omega)⟩
  split
  · next h => exact keyShift_of_shifted h
  · next h => exact keyShift_of_unshifted h

/-! ### The break-point (R143) -/

/-- The search of R143 is the library's search for the first entry of a list. -/
theorem selectBreakpoint_eq_find? (c : Cfg) (ak : Int) (bp : List BpEntry) :
    selectBreakpoint c ak bp = bp.find? fun b => decide (ak ≤ (b.key.toNat : Int) ∨ b.key = c.bpSentinel) := by
  induction bp with
  | nil => rfl
  | cons b rest ih =>
    by_cases h : ak ≤ (b.key.toNat : Int) ∨ b.key = c.bpSentinel
    · simp only [selectBreakpoint, List.find?_cons, if_pos h, decide_eq_true h]
    · simp only [selectBreakpoint, List.find?_cons, if_neg h, decide_eq_false h, ih]

/-- Settles O29, by the library's laws of `List.find?`. -/
theorem breakpointIsFirstMatch : Obligations.BreakpointIsFirstMatch := by
  intro c ak bp
  rw [selectBreakpoint_eq_find?]
  refine ⟨fun b => ?_, by simp only [List.find?_eq_none, decide_eq_true_eq]⟩
  simp only [List.find?_eq_some_iff_getElem, decide_eq_true_eq, Bool.not_eq_true', decide_eq_false_iff_not,
    List.getElem?_eq_some_iff]
  constructor
  · rintro ⟨hacc, i, hi, hb, hfirst⟩
    refine ⟨i, ⟨hi, hb⟩, hacc, ?_⟩
    rintro j _ hj ⟨_, rfl⟩
    exact hfirst j hj
  · rintro ⟨i, ⟨hi, hb⟩, hacc, hfirst⟩
    exact ⟨hacc, i, hi, hb, fun j hj => hfirst j _ hj ⟨hj.trans hi, rfl⟩⟩

/-! ### The sample record (R144..R147) -/

/-- No index is resolved exactly where no entry accepts or the first that accepts is unset (R144). -/
theorem resolveSample_eq_none {c : Cfg} {ak : Int} {bp : List BpEntry} :
    resolveSample c ak bp = none ↔ ∀ b, selectBreakpoint c ak bp = some b → b.smp = c.smpUnset := by
  unfold resolveSample
  cases selectBreakpoint c ak bp with
  | none => simp
  | some b => simp

theorem srecRead_eq_ok {srec : Memory SampleRecord} {i : BitVec 16} {r : SampleRecord} :
    srecRead srec i = .ok r ↔ Memory.read srec i.toNat = some r := by
  unfold srecRead
  cases Memory.read srec i.toNat with
  | none => simp
  | some rec => simp

/-- Every loop mode is the one of its own code. -/
@[simp] theorem loopModeOf_code (m : LoopMode) : loopModeOf m.code = some m := by
  cases m <;> rfl

theorem geometry_of_sound {r : SampleRecord} {m : LoopMode} (h1 : 1 ≤ r.sampleLen.toNat)
    (hmax : r.sampleLen.toNat ≤ 2 ^ 31 - 1) (hloop : r.loopLen.toNat ≤ r.sampleLen.toNat - 1)
    (hm : m.code = r.loopMode) : geometry r = some m := by
  unfold geometry
  rw [if_pos ⟨h1, hmax, hloop⟩, ← hm, loopModeOf_code]

/-- Each of the four tests of `geometryOk` rejects a record by itself (R146). -/
theorem geometry_of_impossible {r : SampleRecord}
    (h : r.sampleLen.toNat = 0 ∨ 2 ^ 31 - 1 < r.sampleLen.toNat ∨ r.sampleLen.toNat ≤ r.loopLen.toNat ∨
      r.loopMode = 3#2) : geometry r = none := by
  unfold geometry
  obtain h | h | h | hmode := h
  case inr.inr.inr =>
    rw [hmode]
    exact ite_self none
  all_goals exact if_neg (by omega)

theorem keyDiff_range (c : Cfg) (k : PeConfig) (r : SampleRecord) :
    -511 ≤ keyDiff c k (keyShift k) r ∧ keyDiff c k (keyShift k) r ≤ 508 := by
  have hshift := keyShift_range k
  have hkey := k.key.isLt
  have hplay := k.playKey.isLt
  have hroot := r.rootKey.isLt
  simp only [keyDiff]
  split
  · omega
  · split <;> omega

/-- R150 reads back from `KEYDIFF` the difference R147 wrote there. -/
theorem keyDiff_toInt (c : Cfg) (k : PeConfig) (r : SampleRecord) :
    (BitVec.ofInt 16 (keyDiff c k (keyShift k) r)).toInt = keyDiff c k (keyShift k) r := by
  obtain ⟨hlow, hhigh⟩ := keyDiff_range c k r
  exact BitVec.toInt_ofInt_eq_self (by decide) (by omega) (by omega)

/-- `END` of a sample that has a word is the integer of R140. -/
theorem endIdx_eq {n : BitVec 32} (h : 1 ≤ n.toNat) : n - 1#32 = BitVec.ofNat 32 (n.toNat - 1) := by
  bv_omega

/-- `LSTART` of a loop shorter than its sample is the integer of R140. -/
theorem lstart_eq {n l : BitVec 32} (h1 : 1 ≤ n.toNat) (h : l.toNat ≤ n.toNat - 1) :
    n - l - 1#32 = BitVec.ofNat 32 (n.toNat - l.toNat - 1) := by
  bv_omega

/-! ### The envelopes (R141, R152) -/

/-- `startEnvelopes` after `resetRuntime` enters Attack from the reset values on every envelope. -/
theorem startEnvelopes_resetRuntime (c : Cfg) (v : Voice) (p : PeRun) :
    startEnvelopes c { resetRuntime v with ps := p } =
      { v with eg := v.eg.map fun g => enterPhase c v.pe.sampleRate (egInit g) .attack, ps := p } := by
  simp only [startEnvelopes, resetRuntime, Vector.map_map]
  rfl

/-! ### The three replies of `PE.INIT` (R140) -/

section
variable {c : Cfg} {srec : Memory SampleRecord} {v : Voice} (b : Bus)

theorem peInit_of_unresolved (h : resolveSample c ((v.pe.key.toNat : Int) + keyShift v.pe) v.bp = none) :
    peInit c srec b v = .ok (b.report
      { resetRuntime v with ps := (PeRun.selected (keyShift v.pe) 0#16).setErr } .peSampleUnset) := by
  simp only [peInit, h]
  rfl

variable {i : BitVec 16} {r : SampleRecord}
  (hi : resolveSample c ((v.pe.key.toNat : Int) + keyShift v.pe) v.bp = some i) (hr : srecRead srec i = .ok r)
include hi hr

theorem peInit_of_impossible (hg : geometry r = none) :
    peInit c srec b v = .ok (b.report
      { resetRuntime v with ps := (PeRun.selected (keyShift v.pe) i).setErr } .peBadSample) := by
  simp only [peInit, hi, hr, hg]
  rfl

theorem peInit_of_sound {m : LoopMode} (hg : geometry r = some m) :
    peInit c srec b v = .ok (b.done (startEnvelopes c
      { resetRuntime v with
        ps := latchRecord c v.pe (keyShift v.pe) r m (PeRun.selected (keyShift v.pe) i) })) := by
  simp only [peInit, hi, hr, hg]
  rfl

end

theorem exec_peInit {s : State} {v : Voice} {r : Reply} (hv : s.addressed = some v)
    (hr : peInit Config.cfg s.srec s.bus v = .ok r) : exec .peInit s = .next (s.complete r) :=
  exec_of_reply hv (by simp only [commandReply, hr])

/-- Settles O31: both failures are a reply of `PE.INIT`, and `PeRun.selected` is the bank 10 the statement writes
out. -/
theorem peInitFailures : Obligations.PeInitFailures := by
  refine ⟨fun s v hv hunset => ?_, fun s v b r hv hsel hset hread hbad => ?_, rfl, rfl⟩
  · exact exec_peInit hv (peInit_of_unresolved s.bus (resolveSample_eq_none.2 hunset))
  · exact exec_peInit hv (peInit_of_impossible s.bus (resolveSample_of_selected hsel hset)
      (srecRead_eq_ok.2 hread) (geometry_of_impossible hbad))

/-- Settles O30: what is latched is the statement's bank 10, because `KEYDIFF`, `END` and `LSTART` hold the integers
they store. -/
theorem peInitConstructs : Obligations.PeInitConstructs := by
  intro s v b r m hv hsel hset hread h1 hmax hloop hm kd kc cents ratio ps started
  have hlatch : latchRecord Config.cfg v.pe (keyShift v.pe) r m (PeRun.selected (keyShift v.pe) b.smp) = ps := by
    simp only [latchRecord, staticRatio, keyDiff_toInt, endIdx_eq h1, lstart_eq h1 hloop]
    rfl
  have hreply := peInit_of_sound s.bus (resolveSample_of_selected hsel hset) (srecRead_eq_ok.2 hread)
    (geometry_of_sound h1 hmax hloop hm)
  rw [hlatch, startEnvelopes_resetRuntime] at hreply
  exact exec_peInit hv hreply

end Sys2Proof.Machine

/-! ## The per-sample operation (R160..R186)

A catch-up is a feed of consecutive indices up to one stop; a move of the cursor is one catch-up and, where it crosses
a boundary, the boundary's rule; a frame is the stepped envelopes, the moved cursor and one addition per channel. -/

namespace Sys2Proof.Machine

/-! ### Feeding one sample (R62, R168, R176) -/

theorem waveRead_of_outside {wave : Memory F64} {base idx : BitVec 32}
    (h : (base.toNat : Int) + idx.toInt < 0 ∨ 2 ^ 32 ≤ (base.toNat : Int) + idx.toInt) :
    waveRead wave base idx = .error .waveOutOfSpace := by
  obtain ⟨-, e⟩ | ⟨h0, h1, -⟩ | ⟨_, h0, h1, -⟩ := waveRead_cases wave base idx
  · exact e
  · omega
  · omega

theorem waveRead_of_unbacked {wave : Memory F64} {base idx : BitVec 32}
    (h0 : 0 ≤ (base.toNat : Int) + idx.toInt) (h1 : (base.toNat : Int) + idx.toInt < 2 ^ 32)
    (hnone : Memory.read wave ((base.toNat : Int) + idx.toInt).toNat = none) :
    waveRead wave base idx = .error .waveUnbacked := by
  obtain ⟨h, -⟩ | ⟨-, -, -, e⟩ | ⟨_, -, -, hsome, -⟩ := waveRead_cases wave base idx
  · omega
  · exact e
  · rw [hnone] at hsome
    cases hsome

theorem feed_of_read {c : Cfg} {wave : Memory F64} {p : PeRun} {x : F64}
    (h : waveRead wave p.base p.idx = .ok x) : feed c wave p = .ok (smooth c p x) := by
  unfold feed
  rw [h]

theorem feed_of_fault {c : Cfg} {wave : Memory F64} {p : PeRun} {f : Fault}
    (h : waveRead wave p.base p.idx = .error f) : feed c wave p = .error f := by
  unfold feed
  rw [h]

/-- Settles O39: the three ways the read of the sample can go; `smooth` is the record the statement writes out. -/
theorem feedFiltersOneSample : Obligations.FeedFiltersOneSample := fun _ _ _ =>
  ⟨fun _ h0 h1 hx => feed_of_read (waveRead_ok h0 h1 hx), fun h => feed_of_fault (waveRead_of_outside h),
    fun h0 h1 hnone => feed_of_fault (waveRead_of_unbacked h0 h1 hnone)⟩

/-- Settles O40: every product with a coefficient +0.0 is a zero, and none of the four zeros moves the place of the
sample. -/
theorem identityFilter : Obligations.IdentityFilter := by
  intro c f x hb0 hb1 hb2 ha1 ha2 hx hx1 hx2 hy1 hy2
  have hzero {a : F64} (ha : F64.isFinite a = true) : F64.mag (F64.mul F64.zero a) = 0 := (mag_mul_zero ha rfl).2
  obtain ⟨hf1, hk1⟩ := add_mag_zero hx (hzero hx1)
  obtain ⟨hf2, hk2⟩ := add_mag_zero hf1 (hzero hx2)
  obtain ⟨hf3, hk3⟩ := sub_mag_zero hf2 (hzero hy1)
  obtain ⟨hf4, hk4⟩ := sub_mag_zero hf3 (hzero hy2)
  rw [stageOut, hb0, hb1, hb2, ha1, ha2, (mul_one_lit hx).2]
  exact eq_of_key hf4 hx (hk4.trans (hk3.trans (hk2.trans hk1)))

/-! ### The order of the catch-up loops (R167, R172) -/

theorem indicesUp_succ (i : Int) (n : Nat) : indicesUp i (n + 1) = (i + 1) :: indicesUp (i + 1) n := by
  simp only [indicesUp, List.range_succ_eq_map, List.map_cons, List.map_map, Nat.cast_zero, Int.add_zero,
    List.cons.injEq, true_and]
  refine List.map_congr_left fun k _ => ?_
  simp only [Function.comp_apply, Nat.cast_succ]
  omega

theorem indicesDown_succ (i : Int) (n : Nat) : indicesDown i (n + 1) = (i - 1) :: indicesDown (i - 1) n := by
  simp only [indicesDown, List.range_succ_eq_map, List.map_cons, List.map_map, Nat.cast_zero, Int.sub_zero,
    List.cons.injEq, true_and]
  refine List.map_congr_left fun k _ => ?_
  simp only [Function.comp_apply, Nat.cast_succ]
  omega

/-- A position that is not a NaN is trailed below the lesser of its rounding and `END`. -/
theorem trailsForward_of_posRound {p : PeRun} {n : Int} (hn : posRound p.pos = some n) :
    trailsForward p = decide (p.idx.toInt < min n p.endIdx.toInt) := by
  rw [trailsForward, hn, ← Bool.decide_and]
  exact decide_eq_decide.2 lt_min_iff.symm

/-- A position that is not a NaN is trailed above the greater of its rounding and `LSTART`. -/
theorem trailsBackward_of_posRound {p : PeRun} {n : Int} (hn : posRound p.pos = some n) :
    trailsBackward p = decide (max n p.lstart.toInt < p.idx.toInt) := by
  rw [trailsBackward, hn, ← Bool.decide_and]
  exact decide_eq_decide.2 max_lt_iff.symm

/-- The forward loop with fuel for every index up to `END` feeds the indices up to where the position is no longer
trailed. -/
theorem forwardRounds_eq_feedAll {c : Cfg} {wave : Memory F64} {n : Int} (fuel : Nat) {p : PeRun}
    (hn : posRound p.pos = some n) (hfuel : p.endIdx.toInt - p.idx.toInt ≤ fuel) :
    forwardRounds c wave fuel p =
      feedAll c wave p (indicesUp p.idx.toInt (min n p.endIdx.toInt - p.idx.toInt).toNat) := by
  induction fuel generalizing p with
  | zero =>
    rw [show (min n p.endIdx.toInt - p.idx.toInt).toNat = 0 by omega]
    rfl
  | succ k ih =>
    simp only [forwardRounds, trailsForward_of_posRound hn, decide_eq_true_eq]
    split
    · next hlt =>
      have hup : (p.idx + 1#32).toInt = p.idx.toInt + 1 := idx_up (hlt.trans_le (min_le_right _ _))
      rw [show (min n p.endIdx.toInt - p.idx.toInt).toNat =
          (min n p.endIdx.toInt - (p.idx.toInt + 1)).toNat + 1 by omega,
        indicesUp_succ, ← hup, feedAll, BitVec.ofInt_toInt]
      cases hf : feed c wave { p with idx := p.idx + 1#32 } with
      | error f => rfl
      | ok q =>
        obtain ⟨⟨hlatched, hpos, -⟩, hidx⟩ := feed_same hf
        have hend : q.endIdx = p.endIdx := hlatched.endIdx
        simp only
        rw [ih (hpos ▸ hn) (by rw [hend, hidx, hup]; omega), hend, hidx]
    · next hge =>
      rw [show (min n p.endIdx.toInt - p.idx.toInt).toNat = 0 by omega]
      rfl

/-- The backward loop with fuel for every index down to `LSTART` feeds the indices down to where the position is no
longer trailed. -/
theorem backwardRounds_eq_feedAll {c : Cfg} {wave : Memory F64} {n : Int} (fuel : Nat) {p : PeRun}
    (hn : posRound p.pos = some n) (hfuel : p.idx.toInt - p.lstart.toInt ≤ fuel) :
    backwardRounds c wave fuel p =
      feedAll c wave p (indicesDown p.idx.toInt (p.idx.toInt - max n p.lstart.toInt).toNat) := by
  induction fuel generalizing p with
  | zero =>
    rw [show (p.idx.toInt - max n p.lstart.toInt).toNat = 0 by omega]
    rfl
  | succ k ih =>
    simp only [backwardRounds, trailsBackward_of_posRound hn, decide_eq_true_eq]
    split
    · next hlt =>
      have hdown : (p.idx - 1#32).toInt = p.idx.toInt - 1 := idx_down ((le_max_right _ _).trans_lt hlt)
      rw [show (p.idx.toInt - max n p.lstart.toInt).toNat =
          (p.idx.toInt - 1 - max n p.lstart.toInt).toNat + 1 by omega,
        indicesDown_succ, ← hdown, feedAll, BitVec.ofInt_toInt]
      cases hf : feed c wave { p with idx := p.idx - 1#32 } with
      | error f => rfl
      | ok q =>
        obtain ⟨⟨hlatched, hpos, -⟩, hidx⟩ := feed_same hf
        have hstart : q.lstart = p.lstart := hlatched.lstart
        simp only
        rw [ih (hpos ▸ hn) (by rw [hstart, hidx, hdown]; omega), hstart, hidx]
    · next hge =>
      rw [show (p.idx.toInt - max n p.lstart.toInt).toNat = 0 by omega]
      rfl

section
variable (c : Cfg) (wave : Memory F64) {p : PeRun} {n : Int}

theorem catchUpForward_of_posRound (hn : posRound p.pos = some n) :
    catchUpForward c wave p =
      feedAll c wave p (indicesUp p.idx.toInt (min n p.endIdx.toInt - p.idx.toInt).toNat) :=
  forwardRounds_eq_feedAll _ hn (Int.self_le_toNat _)

theorem catchUpBackward_of_posRound (hn : posRound p.pos = some n) :
    catchUpBackward c wave p =
      feedAll c wave p (indicesDown p.idx.toInt (p.idx.toInt - max n p.lstart.toInt).toNat) :=
  backwardRounds_eq_feedAll _ hn (Int.self_le_toNat _)

/-- A loop that trails nothing takes no round (R164). -/
theorem catchUpForward_of_none (hn : posRound p.pos = none) : catchUpForward c wave p = .ok p := by
  have htrails : trailsForward p = false := by rw [trailsForward, hn, Bool.false_and]
  unfold catchUpForward
  cases (p.endIdx.toInt - p.idx.toInt).toNat with
  | zero => rfl
  | succ k => simp only [forwardRounds, htrails, Bool.false_eq_true, if_false]

theorem catchUpBackward_of_none (hn : posRound p.pos = none) : catchUpBackward c wave p = .ok p := by
  have htrails : trailsBackward p = false := by rw [trailsBackward, hn, Bool.false_and]
  unfold catchUpBackward
  cases (p.idx.toInt - p.lstart.toInt).toNat with
  | zero => rfl
  | succ k => simp only [backwardRounds, htrails, Bool.false_eq_true, if_false]

end

theorem posRound_of_isFinite {x : F64} (h : F64.isFinite x = true) : posRound x = some (F64.rha x) := by
  simp only [posRound, not_isNaN_of_isFinite h, not_isInf_of_isFinite h, Bool.false_eq_true, if_false]

theorem posRound_of_isNaN {x : F64} (h : F64.isNaN x = true) : posRound x = none := if_pos h

/-- The integer of `+infinity` is no less than any s32 (log 9). -/
theorem posRound_infinity : ∃ n : Int, posRound 0x7FF0000000000000#64 = some n ∧ 2 ^ 31 - 1 ≤ n := by
  have hnan : F64.isNaN 0x7FF0000000000000#64 = false := by decide
  have hinf : F64.isInf 0x7FF0000000000000#64 = true := by decide
  have hsign : F64.sign 0x7FF0000000000000#64 = false := by decide
  refine ⟨_, ?_, le_max_left _ (Config.freeRound 0x7FF0000000000000#64)⟩
  simp only [posRound, hnan, hinf, hsign, Bool.false_eq_true, if_false, if_true]

/-- Settles O37: the loop ends at the lesser of the position's rounding and `END`, where it has a rounding. -/
theorem forwardCatchUpFeedsInOrder : Obligations.ForwardCatchUpFeedsInOrder := by
  intro c wave p hle
  refine ⟨?_, fun hfin => ?_, fun hinf => ?_, fun hnan => ?_⟩
  · cases hn : posRound p.pos with
    | none => exact ⟨0, by omega, catchUpForward_of_none c wave hn⟩
    | some n => exact ⟨_, by omega, catchUpForward_of_posRound c wave hn⟩
  · exact catchUpForward_of_posRound c wave (posRound_of_isFinite hfin)
  · obtain ⟨n, hn, hlarge⟩ := posRound_infinity
    have hend := p.endIdx.toInt_lt
    rw [catchUpForward_of_posRound c wave (hinf ▸ hn), min_eq_right (by omega)]
  · exact catchUpForward_of_none c wave (posRound_of_isNaN hnan)

/-- Settles O38: the loop ends at the greater of the position's rounding and `LSTART`, where it has a rounding. -/
theorem backwardCatchUpFeedsInOrder : Obligations.BackwardCatchUpFeedsInOrder := by
  intro c wave p hle
  refine ⟨?_, fun hfin => ?_, fun hnan => ?_⟩
  · cases hn : posRound p.pos with
    | none => exact ⟨0, by omega, catchUpBackward_of_none c wave hn⟩
    | some n => exact ⟨_, by omega, catchUpBackward_of_posRound c wave hn⟩
  · exact catchUpBackward_of_posRound c wave (posRound_of_isFinite hfin)
  · exact catchUpBackward_of_none c wave (posRound_of_isNaN hnan)

/-! ### The moves of the cursor (R165, R166, R169..R173) -/

section
variable {c : Cfg} {wave : Memory F64} {p q : PeRun}

theorem moveCursor_of_forward (m : F64) (hd : p.dir = false) : moveCursor c wave m p = moveForward c wave m p :=
  if_neg (Bool.eq_false_iff.1 hd)

theorem moveCursor_of_backward (m : F64) (hd : p.dir = true) : moveCursor c wave m p = moveBackward c wave m p :=
  if_pos hd

/-- A forward move is its catch-up and, past `END`, the rule of the loop mode. -/
theorem moveForward_of_catchUp {m : F64} (hq : catchUpForward c wave { p with pos := F64.add p.pos m } = .ok q) :
    moveForward c wave m p = if F64.lt (endF q) q.pos then crossEnd c wave q else .ok q := by
  rw [moveForward, hq]

theorem moveForward_of_fault {m : F64} {f : Fault}
    (hf : catchUpForward c wave { p with pos := F64.add p.pos m } = .error f) :
    moveForward c wave m p = .error f := by
  rw [moveForward, hf]

/-- A backward move is its catch-up and, below `LSTART`, the turn. -/
theorem moveBackward_of_catchUp {m : F64} (hq : catchUpBackward c wave { p with pos := F64.sub p.pos m } = .ok q) :
    moveBackward c wave m p = if F64.lt q.pos (lstartF q) then reverseAtLoopStart c wave q else .ok q := by
  rw [moveBackward, hq]

theorem moveBackward_of_fault {m : F64} {f : Fault}
    (hf : catchUpBackward c wave { p with pos := F64.sub p.pos m } = .error f) :
    moveBackward c wave m p = .error f := by
  rw [moveBackward, hf]

theorem crossEnd_of_forwardLoop (h : p.lmode = .forwardLoop) : crossEnd c wave p = wrapForwardLoop c wave p := by
  rw [crossEnd, h]

theorem crossEnd_of_forwardBackward (h : p.lmode = .forwardBackward) : crossEnd c wave p = reverseAtEnd c wave p := by
  rw [crossEnd, h]

theorem crossEnd_of_forwardStop (h : p.lmode = .forwardStop) : crossEnd c wave p = .ok p.setTerm := by
  rw [crossEnd, h]

end

/-- Settles O36: the boundary tests of the two moves, and the rule of each loop mode. -/
theorem loopBoundaryRules : Obligations.LoopBoundaryRules := by
  refine fun c wave m p q => ⟨fun hd hq => ?_, fun hd hq => ?_⟩
  · rw [moveCursor_of_forward m hd, moveForward_of_catchUp hq]
    refine ⟨fun hin => ?_, fun hpast hmode => ?_, fun hpast hmode => ?_, fun hpast hmode => ?_⟩
    · exact if_neg (Bool.eq_false_iff.1 hin)
    · exact (if_pos hpast).trans (crossEnd_of_forwardLoop hmode)
    · exact (if_pos hpast).trans (crossEnd_of_forwardBackward hmode)
    · exact (if_pos hpast).trans (crossEnd_of_forwardStop hmode)
  · rw [moveCursor_of_backward m hd, moveBackward_of_catchUp hq]
    exact ⟨fun hin => if_neg (Bool.eq_false_iff.1 hin), fun hpast => if_pos hpast⟩

/-! ### A cursor inside its sample (R164, R175) -/

/-- A wrap sets the index to the loop start, which is in range. -/
theorem PeRun.InRange.wrapped {p : PeRun} (h : p.InRange) (x : F64) :
    ({ p with pos := x, idx := p.lstart } : PeRun).InRange := by
  obtain ⟨⟨hstart, hend⟩, -⟩ := h
  exact ⟨⟨hstart, hend⟩, by simp only; omega, hend⟩

section
variable {c : Cfg} {wave w1 w2 : Memory F64} {p q : PeRun}

theorem catchUpForward_backed (hr : p.InRange) (h : p.Backed wave) : ∃ q, catchUpForward c wave p = .ok q :=
  forwardRounds_backed _ hr h

theorem catchUpBackward_backed (hr : p.InRange) (h : p.Backed wave) : ∃ q, catchUpBackward c wave p = .ok q :=
  backwardRounds_backed _ hr h

/-- Past `END` of a backed sample every loop mode has a result. -/
theorem crossEnd_backed (hr : p.InRange) (h : p.Backed wave) : ∃ q, crossEnd c wave p = .ok q := by
  cases hm : p.lmode with
  | forwardLoop => rw [crossEnd_of_forwardLoop hm]; exact catchUpForward_backed (hr.wrapped _) h
  | forwardBackward => rw [crossEnd_of_forwardBackward hm]; exact catchUpBackward_backed hr h
  | forwardStop => rw [crossEnd_of_forwardStop hm]; exact ⟨_, rfl⟩

/-- The turn at the loop start changes neither the range nor the sample. -/
theorem reverseAtLoopStart_backed (hr : p.InRange) (h : p.Backed wave) :
    ∃ q, reverseAtLoopStart c wave p = .ok q := catchUpForward_backed (by exact hr) h

theorem moveForward_backed (m : F64) (hr : p.InRange) (h : p.Backed wave) :
    ∃ q, moveForward c wave m p = .ok q := by
  have hr' : ({ p with pos := F64.add p.pos m } : PeRun).InRange := hr
  obtain ⟨q, hq⟩ := catchUpForward_backed (c := c) hr' h
  rw [moveForward_of_catchUp hq]
  split
  · exact crossEnd_backed (catchUpForward_inRange hr' hq) (h.of_same (catchUpForward_spec hq).1.1)
  · exact ⟨q, rfl⟩

theorem moveBackward_backed (m : F64) (hr : p.InRange) (h : p.Backed wave) :
    ∃ q, moveBackward c wave m p = .ok q := by
  have hr' : ({ p with pos := F64.sub p.pos m } : PeRun).InRange := hr
  obtain ⟨q, hq⟩ := catchUpBackward_backed (c := c) hr' h
  rw [moveBackward_of_catchUp hq]
  split
  · exact reverseAtLoopStart_backed (catchUpBackward_inRange hr' hq) (h.of_same (catchUpBackward_spec hq).1.1)
  · exact ⟨q, rfl⟩

/-- A cursor inside a backed sample moves, whatever the multiplier. -/
theorem moveCursor_backed (m : F64) (hr : p.InRange) (h : p.Backed wave) : ∃ q, moveCursor c wave m p = .ok q := by
  cases hd : p.dir with
  | false => rw [moveCursor_of_forward m hd]; exact moveForward_backed m hr h
  | true => rw [moveCursor_of_backward m hd]; exact moveBackward_backed m hr h

theorem catchUpForward_sameSample (hr : p.InRange) (h : p.SameSample w1 w2) :
    catchUpForward c w1 p = catchUpForward c w2 p := forwardRounds_sameSample _ hr h

theorem catchUpBackward_sameSample (hr : p.InRange) (h : p.SameSample w1 w2) :
    catchUpBackward c w1 p = catchUpBackward c w2 p := backwardRounds_sameSample _ hr h

theorem crossEnd_sameSample (hr : p.InRange) (h : p.SameSample w1 w2) : crossEnd c w1 p = crossEnd c w2 p := by
  cases hm : p.lmode with
  | forwardLoop =>
    rw [crossEnd_of_forwardLoop hm, crossEnd_of_forwardLoop hm]
    exact catchUpForward_sameSample (hr.wrapped _) h
  | forwardBackward =>
    rw [crossEnd_of_forwardBackward hm, crossEnd_of_forwardBackward hm]
    exact catchUpBackward_sameSample hr h
  | forwardStop => rw [crossEnd_of_forwardStop hm, crossEnd_of_forwardStop hm]

theorem reverseAtLoopStart_sameSample (hr : p.InRange) (h : p.SameSample w1 w2) :
    reverseAtLoopStart c w1 p = reverseAtLoopStart c w2 p := catchUpForward_sameSample (by exact hr) h

theorem moveForward_sameSample (m : F64) (hr : p.InRange) (h : p.SameSample w1 w2) :
    moveForward c w1 m p = moveForward c w2 m p := by
  have hr' : ({ p with pos := F64.add p.pos m } : PeRun).InRange := hr
  have hcatch := catchUpForward_sameSample (c := c) hr' h
  cases hq : catchUpForward c w2 { p with pos := F64.add p.pos m } with
  | error f => rw [moveForward_of_fault (hcatch.trans hq), moveForward_of_fault hq]
  | ok q =>
    rw [moveForward_of_catchUp (hcatch.trans hq), moveForward_of_catchUp hq,
      crossEnd_sameSample (catchUpForward_inRange hr' hq) (h.of_same (catchUpForward_spec hq).1.1)]

theorem moveBackward_sameSample (m : F64) (hr : p.InRange) (h : p.SameSample w1 w2) :
    moveBackward c w1 m p = moveBackward c w2 m p := by
  have hr' : ({ p with pos := F64.sub p.pos m } : PeRun).InRange := hr
  have hcatch := catchUpBackward_sameSample (c := c) hr' h
  cases hq : catchUpBackward c w2 { p with pos := F64.sub p.pos m } with
  | error f => rw [moveBackward_of_fault (hcatch.trans hq), moveBackward_of_fault hq]
  | ok q =>
    rw [moveBackward_of_catchUp (hcatch.trans hq), moveBackward_of_catchUp hq,
      reverseAtLoopStart_sameSample (catchUpBackward_inRange hr' hq) (h.of_same (catchUpBackward_spec hq).1.1)]

/-- A move of a cursor inside its sample reads only the sample. -/
theorem moveCursor_sameSample (m : F64) (hr : p.InRange) (h : p.SameSample w1 w2) :
    moveCursor c w1 m p = moveCursor c w2 m p := by
  cases hd : p.dir with
  | false => rw [moveCursor_of_forward m hd, moveCursor_of_forward m hd, moveForward_sameSample m hr h]
  | true => rw [moveCursor_of_backward m hd, moveCursor_of_backward m hd, moveBackward_sameSample m hr h]

end

/-! ### Volume and pan (R177, R181) -/

/-- Settles O42: the division gives +0.0, where P1 fixes `pow2`, and 0.1 - 0.1 is +0.0. -/
theorem volumeCurveAtZero : Obligations.VolumeCurveAtZero := by
  intro c
  have hquot : F64.div (F64.ofInt 0) (F64.lit 367111 10000) = F64.zero := by decide +kernel
  have hpow : Num.pow2 c F64.zero = F64.one := if_pos rfl
  have hdiff : F64.sub (F64.mul (F64.lit 1 10) F64.one) (F64.lit 1 10) = F64.zero := by decide +kernel
  rw [← hdiff, ← hpow, ← hquot]
  rfl

/-- `(PAN - 64) / 63`, before it is bounded below (R181). -/
def rawPan (n : Int) : F64 := F64.div (F64.sub (F64.ofInt n) (F64.lit 64 1)) (F64.lit 63 1)

theorem rawPan_mono {i j : Int} (h0 : 0 ≤ i) (hij : i ≤ j) (h1 : j ≤ 127) :
    F64.le (rawPan i) (rawPan j) = true := by
  have h64 : F64.isFinite (F64.lit 64 1) = true := by decide +kernel
  have h63 : F64.isFinite (F64.lit 63 1) = true ∧ 0 < F64.toRat (F64.lit 63 1) := by decide +kernel
  exact div_monotone h63.1 h63.2 (sub_monotone h64 (ofInt_le (by omega) (by omega) hij))

theorem neg_one_bits : F64.neg F64.one = 0xBFF0000000000000#64 := by decide +kernel

theorem panValue_of_lt {pan : BitVec 7} (h : F64.lt (rawPan pan.toNat) (F64.neg F64.one) = true) :
    panValue pan = F64.neg F64.one := if_pos h

theorem panValue_of_not_lt {pan : BitVec 7} (h : F64.lt (rawPan pan.toNat) (F64.neg F64.one) = false) :
    panValue pan = rawPan pan.toNat := if_neg (Bool.eq_false_iff.1 h)

/-- Every pan lies in [-1, 1], since the quotient of `PAN = 127` is 1. -/
theorem panValue_range (pan : BitVec 7) :
    F64.le (F64.neg F64.one) (panValue pan) = true ∧ F64.le (panValue pan) F64.one = true := by
  have hhigh : rawPan 127 = F64.one := by decide +kernel
  have hone : F64.le (F64.neg F64.one) F64.one = true ∧ F64.isNaN (F64.neg F64.one) = false := by decide +kernel
  have hle : F64.le (rawPan pan.toNat) F64.one = true := hhigh ▸ rawPan_mono (by omega) (by omega) le_rfl
  cases hlt : F64.lt (rawPan pan.toNat) (F64.neg F64.one) with
  | true =>
    rw [panValue_of_lt hlt]
    exact ⟨F64.le_self hone.2, hone.1⟩
  | false =>
    rw [panValue_of_not_lt hlt]
    obtain ⟨hnan, -, -⟩ := le_iff_key.1 hle
    simp only [F64.lt, hnan, hone.2, Bool.not_false, Bool.true_and, decide_eq_false_iff_not, not_lt] at hlt
    exact ⟨le_iff_key.2 ⟨hone.2, hnan, hlt⟩, hle⟩

theorem panLeft_of_pos {p : F64} (h : F64.lt F64.zero p = true) (x : F64) :
    panLeft p x = F64.mul x (F64.sub F64.one p) := if_pos h

theorem panLeft_of_not_pos {p : F64} (h : F64.lt F64.zero p = false) (x : F64) : panLeft p x = x :=
  if_neg (Bool.eq_false_iff.1 h)

theorem panRight_of_neg {p : F64} (h : F64.lt p F64.zero = true) (x : F64) :
    panRight p x = F64.mul x (F64.add F64.one p) := if_pos h

theorem panRight_of_not_neg {p : F64} (h : F64.lt p F64.zero = false) (x : F64) : panRight p x = x :=
  if_neg (Bool.eq_false_iff.1 h)

/-- Settles O41: the pans of the centre and the extremes are the numbers 0, 1 and -1. -/
theorem panLaw : Obligations.PanLaw := by
  have hcentre : panValue 64#7 = F64.zero := by decide +kernel
  have hleft : panValue 127#7 = F64.one := by decide +kernel
  have hright : panValue 0#7 = F64.neg F64.one ∧ panValue 1#7 = F64.neg F64.one := by decide +kernel
  have hcancel : F64.sub F64.one F64.one = F64.zero ∧ F64.add F64.one (F64.neg F64.one) = F64.zero := by
    decide +kernel
  refine ⟨fun x => ?_, fun x => ?_, fun pan x hpan => ?_, fun pan => neg_one_bits ▸ panValue_range pan⟩
  · rw [hcentre]
    exact ⟨panLeft_of_not_pos (by decide) x, panRight_of_not_neg (by decide) x⟩
  · rw [hleft, panLeft_of_pos (by decide +kernel), hcancel.1]
    exact ⟨rfl, panRight_of_not_neg (by decide +kernel) x⟩
  · have hvalue : panValue pan = F64.neg F64.one := by
      obtain rfl | rfl := hpan
      · exact hright.1
      · exact hright.2
    rw [hvalue, panRight_of_neg (by decide +kernel), hcancel.2]
    exact ⟨panLeft_of_not_pos (by decide +kernel) x, rfl⟩

/-! ### The replies of `PE.STEP` (R160, R161) -/

/-- The voice after a frame: the three envelopes stepped, bank 10 the moved cursor (R162). -/
def Voice.framed (c : Cfg) (v : Voice) (p : PeRun) : Voice := { (stepEnvelopes c v).1 with ps := p }

/-- The reply of a frame: the accumulator is added to unless the move terminated the partial (R160, R171). -/
def frameReply (c : Cfg) (b : Bus) (v : Voice) (p : PeRun) : Reply :=
  if p.term then b.report (v.framed c p) (stepEnvelopes c v).2.2.2.2
  else mixFrame c b (v.framed c p) (stepEnvelopes c v).2.2.2.1 (stepEnvelopes c v).2.2.2.2

@[simp] theorem frameReply_voice (c : Cfg) (b : Bus) (v : Voice) (p : PeRun) :
    (frameReply c b v p).voice = v.framed c p := by
  unfold frameReply
  split <;> rfl

section
variable (c : Cfg) (wave : Memory F64) (b : Bus) {v : Voice}

theorem peStep_of_err (he : v.ps.err = true) : peStep c wave b v = .ok (b.report v .peUnusable) := if_pos he

variable (he : v.ps.err = false)
include he

theorem peStep_of_term (ht : v.ps.term = true) : peStep c wave b v = .ok (b.done v) := by
  simp only [peStep, he, ht, Bool.false_eq_true, if_false, if_true]

variable (ht : v.ps.term = false)
include ht

theorem peStep_of_fin (hf : (v.getEg 2).run.fin = true) :
    peStep c wave b v = .ok (b.done { v with ps := v.ps.setTerm }) := by
  simp only [peStep, he, ht, hf, Bool.false_eq_true, if_false, if_true]

/-- A voice that passes the guards of R161 gives a frame wherever its cursor moves. -/
theorem peStep_of_move (hf : (v.getEg 2).run.fin = false) {p : PeRun}
    (hm : moveCursor c wave (multiplier c v.pe v.ps.static (egStep c v.pe.sampleRate (v.getEg 0)).value) v.ps =
      .ok p) : peStep c wave b v = .ok (frameReply c b v p) := by
  simp only [peStep, he, ht, hf, Bool.false_eq_true, if_false, peFrame, stepEnvelopes, hm]
  exact (apply_ite _ _ _ _).symm

end

/-- Of two codes after the first the first non-zero one is reported (R162). -/
theorem Diag.first_first (d0 d1 d2 : Diag) :
    d0.first (d1.first d2) = if d0 ≠ .none then d0 else if d1 ≠ .none then d1 else d2 := by
  simp only [Diag.first, ite_not]

theorem exec_peStep {s : State} {v : Voice} {r : Reply} (hv : s.addressed = some v)
    (hr : peStep Config.cfg s.wave s.bus v = .ok r) : exec .peStep s = .next (s.complete r) :=
  exec_of_reply hv (by simp only [commandReply, hr])

/-- Settles O33: the three guards, the first two of which leave the voice as it was. -/
theorem peStepGuards : Obligations.PeStepGuards := by
  refine ⟨fun s v hv he => ?_, fun s v hv he ht => ?_, fun s v hv he ht hf => ?_, rfl⟩
  · rw [exec_peStep hv (peStep_of_err _ _ _ he), State.complete_report, State.answeredThrough_same hv, he,
      Bool.or_true]
  · rw [exec_peStep hv (peStep_of_term _ _ _ he ht), State.complete_done, State.answeredThrough_same hv, ht,
      Bool.true_or]
  · exact exec_peStep hv (peStep_of_fin _ _ _ he ht hf)

/-- Settles O34: the reply of a frame that did not terminate, its parts written out. -/
theorem peStepAddsFrame : Obligations.PeStepAddsFrame := by
  intro s v p hv he ht hf r0 r1 r2 m volOf g0 g1 g x pan0 pan l r d hm hp
  have hdiag : (stepEnvelopes Config.cfg v).2.2.2.2 = d := Diag.first_first _ _ _
  have hreply : frameReply Config.cfg s.bus v p = mixFrame Config.cfg s.bus (v.framed Config.cfg p) r2.value d := by
    rw [frameReply, hp, if_neg Bool.false_ne_true, hdiag]
    rfl
  have hpan : panValue v.pe.pan = pan := by
    simp only [pan, ← neg_one_bits]
    rfl
  have hmix : mixFrame Config.cfg s.bus (v.framed Config.cfg p) r2.value d =
      { voice := v.framed Config.cfg p, rdata := 0#64, diag := d,
        mixL := F64.add s.bus.mixL (panLeft pan x), mixR := F64.add s.bus.mixR (panRight pan x) } := by
    rw [← hpan]
    rfl
  rw [exec_peStep hv (peStep_of_move _ _ _ he ht hf hm), hreply, hmix]
  rfl

/-- Settles O35: the catch-up keeps the loop mode, so the crossing sets `TERM` and the frame adds nothing. -/
theorem forwardStopTerminatesAtEnd : Obligations.ForwardStopTerminatesAtEnd := by
  refine ⟨?_, fun s v r hv hr => exec_peStep hv hr⟩
  intro c wave b v p he ht hf hd hmode r0 r1 r2 m hcatch hpast
  have hstop : p.lmode = .forwardStop := (catchUpForward_spec hcatch).1.1.lmode.trans hmode
  have hm : moveCursor c wave m v.ps = .ok p.setTerm := by
    rw [moveCursor_of_forward m hd, moveForward_of_catchUp hcatch, endF, if_pos hpast, crossEnd_of_forwardStop hstop]
  rw [peStep_of_move c wave b he ht hf hm, frameReply, PeRun.setTerm_term, if_pos rfl, ← Diag.first_first]
  rfl

/-- `PE.STEP` of a voice whose cursor is inside a backed sample has a reply on each of the four paths. -/
theorem peStep_backed (c : Cfg) {wave : Memory F64} (b : Bus) {v : Voice} (hr : v.ps.InRange)
    (h : v.ps.Backed wave) : ∃ r, peStep c wave b v = .ok r := by
  cases he : v.ps.err with
  | true => exact ⟨_, peStep_of_err c wave b he⟩
  | false =>
    cases ht : v.ps.term with
    | true => exact ⟨_, peStep_of_term c wave b he ht⟩
    | false =>
      cases hf : (v.getEg 2).run.fin with
      | true => exact ⟨_, peStep_of_fin c wave b he ht hf⟩
      | false =>
        obtain ⟨p, hm⟩ := moveCursor_backed _ hr h
        exact ⟨_, peStep_of_move c wave b he ht hf hm⟩

/-- Settles O43: the cursor moves, and the frame answers with the voice framed. -/
theorem peStepCompletesWhenBacked : Obligations.PeStepCompletesWhenBacked := by
  refine fun s v hv hinv hback => ⟨?_, fun he ht hf => ?_⟩
  · obtain ⟨r, hr⟩ := peStep_backed Config.cfg s.bus hinv.inRange hback
    exact ⟨_, exec_peStep hv hr⟩
  · obtain ⟨p, hm⟩ := moveCursor_backed _ hinv.inRange hback
    refine ⟨p, _, hm, exec_peStep hv (peStep_of_move _ _ _ he ht hf hm), ?_, ?_⟩
    · rw [State.complete_addressed hv, frameReply_voice]
      rfl
    · rw [State.complete_term, frameReply_voice]
      rfl

/-- Settles O44: of the memory `PE.STEP` passes on to the move alone. -/
theorem peStepReadsOnlyItsSample : Obligations.PeStepReadsOnlyItsSample := by
  intro c w1 w2 b v hinv hsame
  simp only [peStep, peFrame, moveCursor_sameSample _ hinv.inRange hsame]

/-- A step that faults is a command word's that faults on the state that accepted it. -/
theorem step_fault {s : State} {f : Fault} (h : step s = .fault f) :
    ∃ t rest i, s.pending = t :: rest ∧ decode t.cmd = .ok i ∧ exec i (s.accept t rest) = .fault f := by
  cases hp : s.pending with
  | nil => rw [step_of_pending_nil hp] at h; cases h
  | cons t rest =>
    cases hd : decode t.cmd with
    | error e => rw [step_of_decode_error hp hd] at h; exact absurd h (State.onVoice_ne_fault _ _ _)
    | ok i => exact ⟨t, rest, i, rfl, hd, step_of_decode_ok hp hd ▸ h⟩

/-- Settles O50: only `PE.STEP` faults, and not on a voice of the invariant whose sample is backed. -/
theorem noFaultWhenBacked : Obligations.NoFaultWhenBacked := by
  intro s hs hback f hfault
  obtain ⟨t, rest, i, -, -, hexec⟩ := step_fault hfault
  obtain ⟨v, hv, hreply⟩ := exec_fault hexec
  obtain rfl := commandReply_fault hreply
  have hmem : v ∈ s.voices := List.mem_of_getElem? hv
  obtain ⟨-, hvoices, -⟩ := hs
  obtain ⟨-, -, hinv⟩ := hvoices v hmem
  obtain ⟨r, hr⟩ := peStep_backed Config.cfg t.bus hinv.inRange (hback v hmem)
  rw [exec_peStep hv hr] at hexec
  cases hexec

/-! ### Note-off (R185) -/

theorem exec_peStop {s : State} {v : Voice} (hv : s.addressed = some v) :
    exec .peStop s = .next (s.complete (peStop Config.cfg s.bus v)) := exec_of_reply hv rfl

section
variable (c : Cfg) (b : Bus) {v : Voice}

theorem peStop_of_err (he : v.ps.err = true) : peStop c b v = b.report v .peUnusable := if_pos he

theorem peStop_of_drum (he : v.ps.err = false) (hdrum : v.pe.drum = true) (hrx : v.pe.drumRxNoteoff = false) :
    peStop c b v = b.done v := by
  simp only [peStop, he, hdrum, hrx, Bool.false_eq_true, if_false, and_self, if_true]

theorem peStop_of_heard (he : v.ps.err = false) (h : ¬ (v.pe.drum = true ∧ v.pe.drumRxNoteoff = false)) :
    peStop c b v = b.done { v with eg := v.eg.map (egRelease c v.pe.sampleRate) } := by
  simp only [peStop, he, h, Bool.false_eq_true, if_false]

end

/-- Settles O46: the three paths of `PE.STOP`, the first two of which leave the voice as it was; `egRelease` is the
function the statement writes out. -/
theorem peStopReleasesEnvelopes : Obligations.PeStopReleasesEnvelopes := by
  refine ⟨decodeInvertsEncode .peStop rfl, fun s v hv he => ?_, fun s v hv he hdrum hrx => ?_,
    fun s v hv he hheard => ?_⟩
  · rw [exec_peStop hv, peStop_of_err _ _ he, State.complete_report, State.answeredThrough_same hv, he, Bool.or_true]
  · rw [exec_peStop hv, peStop_of_drum _ _ he hdrum hrx, State.complete_done, State.answeredThrough_same hv, he,
      Bool.or_false]
  · rw [exec_peStop hv, peStop_of_heard _ _ he hheard, State.complete_done]
    rfl

end Sys2Proof.Machine

/-! ## Commands complete on their own voice (R202, R208, R214)

Every stop is one of those `stopsOnlyWhereDeclared` lists, and a completed command stores to its own voice alone. -/

namespace Sys2Proof.Machine

/-- Settles O51: of the stops a command can have, `PE.STEP` has the faults and, on a voice there is, `PE.INIT` the
refusals. -/
theorem otherCommandsAlwaysComplete : Obligations.OtherCommandsAlwaysComplete := by
  intro i s v hv hinit hstep
  obtain ⟨hfault, hrefused, -⟩ := stopsOnlyWhereDeclared i s
  cases h : exec i s with
  | next t => exact ⟨t, rfl⟩
  | fault f => exact absurd (hfault f h) hstep
  | refused r =>
    obtain ⟨-, hmissing⟩ | ⟨-, hi⟩ := hrefused r h
    · rw [hmissing] at hv
      cases hv
    · exact absurd hi hinit

/-- A voice other than the one a completed command addressed is as before. -/
theorem exec_otherVoice {i : Instr} {s t : State} {n : Nat} (h : exec i s = .next t) (hn : n ≠ s.bus.voice) :
    t.voices[n]? = s.voices[n]? := by
  obtain ⟨v, r, hv, -, rfl⟩ := exec_next h
  rw [State.complete_voice hv, if_neg hn]

/-- Settles O54: the one store to the voices is to the addressed one, and the frame of a command has the rest. -/
theorem otherVoicesUntouched : Obligations.OtherVoicesUntouched := by
  intro i s t h
  obtain ⟨-, -, hpending, hbus, hlength⟩ := exec_frame h
  exact ⟨fun _ hn => exec_otherVoice h hn, hlength, hpending, hbus⟩

end Sys2Proof.Machine

/-! ## The accumulator of a terminated partial and the reset state (R220, R236) -/

namespace Sys2Proof.Machine

/-! ### A terminated partial adds nothing (R160, R236) -/

theorem PeRun.SameLatched.err {p q : PeRun} (h : p.SameLatched q) : q.err = p.err := by
  obtain ⟨-, -, -, -, -, -, -, -, -, herr⟩ := h
  exact herr

/-- All `PE.STEP` can do when it completes: answer with the reply of `peStep` on its voice. -/
theorem exec_peStep_next {s t : State} (h : exec .peStep s = .next t) :
    ∃ v r, s.addressed = some v ∧ peStep Config.cfg s.wave s.bus v = .ok r ∧ t = s.complete r := by
  obtain ⟨v, r, hv, hr, rfl⟩ := exec_next h
  refine ⟨v, r, hv, ?_, rfl⟩
  simp only [commandReply] at hr
  split at hr <;> cases hr
  assumption

/-- Only the frame that sounds adds to the accumulator, and its voice has `TERM = 0` and, as the guard of R161 found
it, `ERR = 0`. -/
theorem peStep_mix_of_termOut {c : Cfg} {wave : Memory F64} {b : Bus} {v : Voice} {r : Reply}
    (h : peStep c wave b v = .ok r) (hterm : r.voice.termOut = true) : r.mixL = b.mixL ∧ r.mixR = b.mixR := by
  obtain ⟨-, rfl⟩ | ⟨-, -, rfl⟩ | ⟨-, -, -, rfl⟩ | ⟨he, -, -, p, hm, ⟨-, rfl⟩ | ⟨hp, rfl⟩⟩ := peStep_cases h
  · exact ⟨rfl, rfl⟩
  · exact ⟨rfl, rfl⟩
  · exact ⟨rfl, rfl⟩
  · exact ⟨rfl, rfl⟩
  · have herr : p.err = false := (moveCursor_latched hm).1.err.trans he
    have hout : (p.term || p.err) = true := hterm
    rw [hp, herr] at hout
    cases hout

/-- Settles O45: the answer's `term` is that of the voice the reply leaves. -/
theorem terminatedStepAddsNothing : Obligations.TerminatedStepAddsNothing := by
  intro s t h hterm
  obtain ⟨v, r, -, hr, rfl⟩ := exec_peStep_next h
  exact peStep_mix_of_termOut hr hterm

/-! ### The reset state (R27, R43..R46, R220) -/

/-- Each of the `CFG.N_VOICES` numbers names a voice of the reset state, whatever else is on the ports. -/
theorem State.reset_addressed {b : Bus} (h : b.voice < Config.cfg.nVoices) :
    ({ State.reset with bus := b } : State).addressed = some (Voice.reset Config.cfg.nBp) :=
  List.getElem?_replicate_of_lt h

@[simp] theorem Voice.reset_getEg (n : Nat) (k : Fin 3) : (Voice.reset n).getEg k = Envelope.reset :=
  Vector.getElem_replicate k.isLt

/-- Settles O47: every voice is `Voice.reset`, and `NOP` answers for the `TERM` and `ERR` of it (O7). -/
theorem resetRuntimeState : Obligations.ResetRuntimeState := by
  refine ⟨List.length_replicate, fun v hv => ?_, fun n hn => ?_⟩
  · rw [List.eq_of_mem_replicate hv]
    exact ⟨List.length_replicate, fun k => congrArg Envelope.run (Voice.reset_getEg _ k), rfl⟩
  · obtain ⟨-, hnop⟩ := nopOnlyAnswers
    exact ⟨_, hnop _ _ (State.reset_addressed hn), rfl, rfl, rfl⟩

end Sys2Proof.Machine
